-- ==== Sys2Proof/Word.lean ====
section
/-!
DEFINITION. The word of the two streams (00_scope R16), the FLOAT datum (R17) and the pair of FLOATs a slot holds (R18).
-/

namespace Sys2Proof

/-- A word of CMD or RSP: 32 bits, bit 31 the most significant (R16). -/
abbrev Word := BitVec 32

/-- A FLOAT: an IEEE 754 binary64 datum (R17, 92 D1). A finite datum is its sign, its biased exponent field
(0 to 2046) and its 52-bit fraction field, so every value of this type is one datum and no two values are the same
datum, but for NaN: "a NaN stays a NaN, payload not specified" (R17), and no rule observes a payload (93 U8), so
there is one NaN and it has none (log 2). -/
inductive F64 where
  | nan
  | inf (neg : Bool)
  | fin (neg : Bool) (bexp : Fin 2047) (frac : BitVec 52)
  deriving DecidableEq, Repr, Inhabited

/-- A stereo pair of FLOATs, left lane first (R18, R64). -/
structure Pair where
  l : F64
  r : F64
  deriving DecidableEq, Repr, Inhabited

/-- A stereo pair of container words as it stands in a payload, left word first (R64, R95). -/
structure WordPair where
  l : Word
  r : Word
  deriving DecidableEq, Repr, Inhabited

end Sys2Proof
end

