-- ==== Sys2Proof/Machine/Ieee.lean ====
section
/-!
DEFINITION. IEEE 754-2008 binary64 arithmetic (00_scope R17, 92 D1, 93 G1): each operation computes exactly on
integers and rounds once, to nearest, ties to even. The unit of all exact values is 2^-1074, the least positive
subnormal, of which every finite datum is a whole multiple.
-/

namespace Sys2Proof

/-- How many units of 2^-1074 make 1.0 (irreducible, so that no proof step unfolds the numeral by itself). -/
@[irreducible] def F64.one1074 : Nat := 2 ^ 1074

/-- The significand of a finite datum, the hidden bit included where the exponent field is not 0. -/
def F64.significand (bexp : Fin 2047) (frac : BitVec 52) : Nat :=
  if bexp.val = 0 then frac.toNat else 2 ^ 52 + frac.toNat

/-- The magnitude of a finite datum in units of 2^-1074. -/
def F64.magnitude (bexp : Fin 2047) (frac : BitVec 52) : Nat :=
  F64.significand bexp frac * 2 ^ (bexp.val - 1)

/-- A finite datum's value in units of 2^-1074, signed; 0 for an infinity or a NaN, which no caller asks for. -/
def F64.units : F64 → Int
  | .nan => 0
  | .inf _ => 0
  | .fin false e m => F64.magnitude e m
  | .fin true e m => -(F64.magnitude e m : Int)

/-- `isfinite(x)` of R17: false for NaN and the infinities. -/
def F64.isFinite : F64 → Bool
  | .nan => false
  | .inf _ => false
  | .fin _ _ _ => true

/-- Whether the datum is a NaN (44 R186). -/
def F64.isNaN : F64 → Bool
  | .nan => true
  | .inf _ => false
  | .fin _ _ _ => false

/-- The sign bit (a NaN has none that a rule could see). -/
def F64.sign : F64 → Bool
  | .nan => false
  | .inf s => s
  | .fin s _ _ => s

/-- The datum whose low 63 bits, read as one number, are `m`; at or above the pattern of infinity, the infinity
(the overflow of round to nearest). -/
def F64.ofMagnitudeBits (neg : Bool) (m : Nat) : F64 :=
  if h : m < 2047 * 2 ^ 52 then .fin neg ⟨m / 2 ^ 52, by omega⟩ (BitVec.ofNat 52 m) else .inf neg

/-- `num / den` to the nearest integer, ties to even. -/
def F64.roundHalfEven (num den : Nat) : Nat :=
  if 2 * (num % den) > den ∨ (2 * (num % den) = den ∧ num / den % 2 = 1) then num / den + 1 else num / den

/-- How many bits of a quotient of size `q` lie below the 53 that a significand keeps. -/
def F64.droppedBits (q : Nat) : Nat := Nat.log2 q - 52

/-- The low 63 bits, read as one number, of the datum nearest to `num / den` units of 2^-1074, ties to even. Between
two powers of two the data lie `2 ^ droppedBits` units apart, and a carry out of the significand raises the exponent
field by itself. -/
def F64.roundBits (num den : Nat) : Nat :=
  F64.droppedBits (num / den) * 2 ^ 52 + F64.roundHalfEven num (den * 2 ^ F64.droppedBits (num / den))

/-- The datum nearest to `num / den` units of 2^-1074, ties to even: the ONE rounding of every operation (R17). -/
def F64.round (neg : Bool) (num den : Nat) : F64 := F64.ofMagnitudeBits neg (F64.roundBits num den)

/-- The datum nearest to a whole number of units; `zeroSign` is the sign of an exact zero. -/
def F64.ofUnits (zeroSign : Bool) (u : Int) : F64 :=
  if u = 0 then .fin zeroSign 0 0 else F64.round (decide (u < 0)) u.natAbs 1

/-- `float(i)`: the integer `i` as a FLOAT, exact below 2^53 in magnitude (R17); zero is +0.0. -/
def F64.ofInt (i : Int) : F64 := F64.ofUnits false (i * F64.one1074)

/-- Sign change. -/
def F64.neg : F64 → F64
  | .nan => .nan
  | .inf s => .inf !s
  | .fin s e m => .fin (!s) e m

/-- `x + y` (R17). An exact zero sum is +0.0 unless both operands are negative (round to nearest's rule). -/
def F64.add : F64 → F64 → F64
  | .nan, _ => .nan
  | .inf _, .nan => .nan
  | .fin _ _ _, .nan => .nan
  | .inf s, .inf t => if s = t then .inf s else .nan
  | .inf s, .fin _ _ _ => .inf s
  | .fin _ _ _, .inf t => .inf t
  | .fin s e m, .fin t f n => F64.ofUnits (s && t) (F64.units (.fin s e m) + F64.units (.fin t f n))

/-- `x - y` (R17). -/
def F64.sub (x y : F64) : F64 := F64.add x y.neg

/-- `x * y` (R17). An infinity times a zero is a NaN. -/
def F64.mul : F64 → F64 → F64
  | .nan, _ => .nan
  | .inf _, .nan => .nan
  | .fin _ _ _, .nan => .nan
  | .inf s, .inf t => .inf (s != t)
  | .inf s, .fin t f n => if F64.magnitude f n = 0 then .nan else .inf (s != t)
  | .fin s e m, .inf t => if F64.magnitude e m = 0 then .nan else .inf (s != t)
  | .fin s e m, .fin t f n => F64.round (s != t) (F64.magnitude e m * F64.magnitude f n) F64.one1074

/-- `x / y` (R17). 0/0 and inf/inf are NaNs; any other quotient by zero is an infinity. -/
def F64.div : F64 → F64 → F64
  | .nan, _ => .nan
  | .inf _, .nan => .nan
  | .fin _ _ _, .nan => .nan
  | .inf _, .inf _ => .nan
  | .inf s, .fin t _ _ => .inf (s != t)
  | .fin s _ _, .inf t => .fin (s != t) 0 0
  | .fin s e m, .fin t f n =>
    if F64.magnitude f n = 0 then (if F64.magnitude e m = 0 then .nan else .inf (s != t))
    else F64.round (s != t) (F64.magnitude e m * F64.one1074) (F64.magnitude f n)

/-- `x < y` (R17): false with a NaN. -/
def F64.lt : F64 → F64 → Bool
  | .nan, _ => false
  | .inf _, .nan => false
  | .fin _ _ _, .nan => false
  | .inf s, .inf t => s && !t
  | .inf s, .fin _ _ _ => s
  | .fin _ _ _, .inf t => !t
  | .fin s e m, .fin t f n => decide (F64.units (.fin s e m) < F64.units (.fin t f n))

/-- `x = y` (R17): false with a NaN, and +0.0 = -0.0. -/
def F64.eq : F64 → F64 → Bool
  | .nan, _ => false
  | .inf _, .nan => false
  | .fin _ _ _, .nan => false
  | .inf s, .inf t => s == t
  | .inf _, .fin _ _ _ => false
  | .fin _ _ _, .inf _ => false
  | .fin s e m, .fin t f n => decide (F64.units (.fin s e m) = F64.units (.fin t f n))

/-- `x > y`. -/
def F64.gt (x y : F64) : Bool := F64.lt y x

/-- `x <= y`: less or equal, so false with a NaN. -/
def F64.le (x y : F64) : Bool := F64.lt x y || F64.eq x y

/-- `x >= y`. -/
def F64.ge (x y : F64) : Bool := F64.le y x

/-- `floor(x)` of a finite x: the largest integer not above it, also for negative x (R17, 40 R127). -/
def F64.floor (x : F64) : Int := x.units / (F64.one1074 : Int)

/-- `trunc(x)` of a finite x: toward zero (44 R186). -/
def F64.trunc (x : F64) : Int := x.units.tdiv (F64.one1074 : Int)

/-- The FLOAT of a 64-bit pattern, sign in bit 63 (R17). -/
def F64.ofBits (b : BitVec 64) : F64 :=
  if h : (b.extractLsb' 52 11).toNat < 2047 then
    .fin (b.getLsbD 63) ⟨(b.extractLsb' 52 11).toNat, h⟩ (b.extractLsb' 0 52)
  else if b.extractLsb' 0 52 = 0 then .inf (b.getLsbD 63) else .nan

/-- The 64-bit pattern of a FLOAT that is no NaN; a NaN has no stated payload, so no pattern. -/
def F64.toBits : F64 → Option (BitVec 64)
  | .nan => none
  | .inf s => some (BitVec.ofBool s ++ (2047 : BitVec 11) ++ (0 : BitVec 52))
  | .fin s e m => some (BitVec.ofBool s ++ BitVec.ofNat 11 e.val ++ m)

/-- `widen(w)`: a word read as IEEE binary32 and returned as the binary64 of the same value (R17, 30 R103). A
binary32 unit of 2^-149 is 2^925 units of 2^-1074. -/
def F64.widen (w : Word) : F64 :=
  let neg := w.getLsbD 31
  let e := (w.extractLsb' 23 8).toNat
  let m := (w.extractLsb' 0 23).toNat
  if e = 255 then (if m = 0 then .inf neg else .nan)
  else if e = 0 then F64.round neg (m * 2 ^ 925) 1
  else F64.round neg ((2 ^ 23 + m) * 2 ^ (e - 1 + 925)) 1

/-- +0.0, the value of silence and of a cleared date. -/
def F64.zero : F64 := .fin false 0 0

/-- 1.0 = 0x3FF0000000000000. -/
def F64.one : F64 := .fin false 1023 0

/-- 0.5 = 0x3FE0000000000000. -/
def F64.half : F64 := .fin false 1022 0

/-- 1.5 = 0x3FF8000000000000. -/
def F64.threeHalves : F64 := .fin false 1023 0x8000000000000

/-- FS = 8388607.0 = 0x415FFFFFC0000000, the maximum positive 24-bit magnitude (R11). -/
def F64.fullScale : F64 := .fin false 1045 0xFFFFFC0000000

/-- 48000.0, FOUT (R10). -/
def F64.fout : F64 := F64.ofInt 48000

/-- 2147483648.0 = 0x41E0000000000000, the least value CVT24 cannot give (44 R186). -/
def F64.twoPow31 : F64 := .fin false 1054 0

/-- -2147483649.0 = 0xC1E0000000200000, the greatest negative value CVT24 cannot give (44 R186). -/
def F64.belowMinInt32 : F64 := .fin true 1054 0x0000000200000

end Sys2Proof
end

