-- ==== Sys2Proof/Syntax.lean ====
section
/-!
DEFINITION. The commands of the block (30_encoding R94), their operands, and the words of the boundary: channels,
headers, the reasons a header is reserved, and what the environment can put on the input stream.
-/

namespace Sys2Proof

/-- A channel number: 1, 2 or 3 and nothing else (R18, R100). -/
inductive Chan where
  | c1 | c2 | c3
  deriving DecidableEq, Repr, Inhabited

/-- The channel number itself, as the field ch holds it (R91). -/
def Chan.number : Chan → Nat
  | .c1 => 1
  | .c2 => 2
  | .c3 => 3

/-- One value per channel: `REG[c]` of R18. -/
structure PerChannel (α : Type) where
  ch1 : α
  ch2 : α
  ch3 : α
  deriving DecidableEq, Repr, Inhabited

/-- The instance of channel `c`. -/
def PerChannel.get {α : Type} (p : PerChannel α) : Chan → α
  | .c1 => p.ch1
  | .c2 => p.ch2
  | .c3 => p.ch3

/-- Replace the instance of channel `c`, and no other. -/
def PerChannel.set {α : Type} (p : PerChannel α) (c : Chan) (a : α) : PerChannel α :=
  match c with
  | .c1 => { p with ch1 := a }
  | .c2 => { p with ch2 := a }
  | .c3 => { p with ch3 := a }

/-- A value of RATE[c] or CAND[c] (R29): "one of a fixed enumerated set ... or 'no sync'". -/
inductive Rate where
  | nosync | sr32000 | sr44100 | sr48000 | srmid | sr96000
  deriving DecidableEq, Repr, Inhabited

/-- The five commands (R94), one constructor per row of spec/opcode_table.json, with the whole payload. -/
inductive Instr where
  /-- PUSHS c: the pairs of the payload, oldest first (R95). -/
  | pushs (c : Chan) (pairs : List WordPair)
  /-- PULLS (R96). -/
  | pulls
  /-- SETGAIN c, g: g is a raw binary32 word (R97). -/
  | setgain (c : Chan) (g : Word)
  /-- SETGAINM g (R97). -/
  | setgainm (g : Word)
  /-- GETSR c (R97). -/
  | getsr (c : Chan)
  deriving DecidableEq, Repr

/-- What a header word names: the command without its payload (R91, R94). -/
inductive Header where
  | pushs (c : Chan)
  | pulls
  | setgain (c : Chan)
  | setgainm
  | getsr (c : Chan)
  deriving DecidableEq, Repr

/-- Why a header word is reserved, in the order R105 lists the reasons. -/
inductive Reserved where
  /-- op is 0 or 6 .. 15. -/
  | op
  /-- rz1 != 0. -/
  | rz1
  /-- rz0 != 0. -/
  | rz0
  /-- op is 1, 3 or 5 and ch = 0. -/
  | channelMissing
  /-- op is 2 or 4 and ch != 0. -/
  | channelOnGlobal
  deriving DecidableEq, Repr

/-- What the decoder finds at the front of a list of words. -/
inductive Decoded where
  /-- A whole command, and the words after it. -/
  | command (i : Instr) (rest : List Word)
  /-- A reserved header, one word long (R98), and the words after it. -/
  | reserved (why : Reserved) (rest : List Word)
  /-- Fewer words than the command asks for: it is not started (R106). -/
  | incomplete
  deriving DecidableEq, Repr

/-- What the environment puts on the input: a word of CMD, or a RESET event between words (R90, 70 R240, R256). -/
inductive Input where
  | word (w : Word)
  | reset
  deriving DecidableEq, Repr

/-- What the block finds at the front of its input. -/
inductive Fetched where
  /-- A whole command, and the input after it. -/
  | command (i : Instr) (rest : List Input)
  /-- A reserved header. -/
  | reserved (why : Reserved) (rest : List Input)
  /-- A RESET event, before which stood no word or only a part of a command, discarded (70 R240). -/
  | reset (rest : List Input)
  /-- The stream ends before a whole command: the block waits (R106, 70 R256). -/
  | wait
  deriving DecidableEq, Repr

end Sys2Proof
end

