-- ==== Sys2Proof/Config.lean ====
section
/-!
DEFINITION. The configuration CFG (00_scope R13), the test configuration CFG_T (R15), and the one free value of the
spec, `draw32()` (R18, 44 R186).
-/

namespace Sys2Proof

/-- CFG: the named constants to which the source gives no value (R13). TOL and PERSIST have the source's own
defaults, and MID_RATE is absent by default (90 C1). What a configuration must satisfy is `Machine.legalConfig`. -/
structure Cfg where
  /-- N, ring capacity in stereo pairs. -/
  n : Nat
  /-- B_IN[c], input burst size of channel c in stereo pairs. -/
  bIn : PerChannel Nat
  /-- B_OUT, output burst size in stereo pairs. -/
  bOut : Nat
  /-- W, detection window in output samples. -/
  w : Nat
  /-- KP, the "gain_constant". -/
  kp : F64
  /-- ALPHA, the coefficient of the moving average. -/
  alpha : F64
  /-- TOL[c], half-width of the tolerance band in counted samples; default B_IN[c]. -/
  tol : PerChannel Nat := bIn
  /-- PERSIST, matching windows before a new lock is trusted; default 1. -/
  persist : Nat := 1
  /-- MID_RATE in Hz, or absent. -/
  midRate : Option Nat := none
  deriving DecidableEq, Repr

/-- CFG_T (R15): the spec's test configuration, and the configuration of `State.reset` (log 3). -/
def Config.cfgT : Cfg where
  n := 16
  bIn := ⟨2, 2, 2⟩
  bOut := 4
  w := 96
  kp := F64.ofBits 0x3F90000000000000#64
  alpha := F64.ofBits 0x3F50000000000000#64
  tol := ⟨2, 2, 2⟩
  persist := 1
  midRate := none

/-- `draw32()`: "a free 32-bit value under no law", "possibly different each time" (R18, 44 R186, 93 U2). The k-th
draw of a run is `Config.draw32 k`; it has no body, so nothing can be proved of its value (log 6). -/
opaque Config.draw32 : Nat → Word

end Sys2Proof
end

