-- ==== Sys2Proof/Machine/State.lean ====
section
/-!
DEFINITION. The state of the block (10_state R20) with its two streams (30_encoding R90), as plain data, the state
right after reset (R44), and the reasons a step can stop.
-/

namespace Sys2Proof.Machine

/-- A slot of a ring's storage that does not hold its reset content: its index and its pair (R25, 20_memory R60). -/
abbrev Cell := Nat × Pair

/-- A ring's storage MEM (R25): the slots that differ from the reset content, in one canonical form (`memoryWf`). -/
abbrev Memory := List Cell

/-- One Interpolating Ring Buffer RB[c] (R20). -/
structure Ring where
  /-- RB[c].MEM (R25). -/
  mem : Memory
  /-- RB[c].CURSOR, the index of the slot the next push writes (R26). -/
  cursor : Nat
  /-- RB[c].DATE, a FLOAT that holds a non-negative integer (R27). -/
  date : F64
  deriving DecidableEq, Repr

/-- The registers of one channel (R20). -/
structure Channel where
  /-- RB[c] (R25 to R28). -/
  ring : Ring
  /-- RATE[c] (R29). -/
  rate : Rate
  /-- NOMINAL[c] (R30). -/
  nominal : F64
  /-- DRIFT[c] (R31). -/
  drift : F64
  /-- INCOUNT[c], 32 bits, saturating (R32). -/
  incount : BitVec 32
  /-- OUTDATE[c] (R33). -/
  outdate : F64
  /-- GAIN[c] (R40). -/
  gain : F64
  /-- CAND[c] (R35). -/
  cand : Rate
  /-- CANDCNT[c] (R35). -/
  candcnt : Nat
  deriving DecidableEq, Repr

/-- The block's state (R20), its streams (R90), its configuration (R13, log 3) and the model's own draw counter
(log 6). -/
structure State where
  /-- CFG, written by nothing (R42). -/
  cfg : Cfg
  /-- The registers of the three channels. -/
  chans : PerChannel Channel
  /-- MGAIN (R40). -/
  mgain : F64
  /-- PULLCNT (R34). -/
  pullcnt : Nat
  /-- CMD: the input not yet consumed, oldest first (R90). -/
  cmd : List Input
  /-- RSP: the words sent, oldest first (R90). -/
  rsp : List Word
  /-- How many times `draw32()` has been used: the model's own field (log 6). -/
  draws : Nat
  deriving DecidableEq, Repr

/-- A fault of the block: none exists. "No command and no internal operation can fault, trap, abort or be refused by
the block" (60_exceptions R210), so the type has no constructor. Safe: no run can stop with a fault. -/
inductive Fault
  deriving DecidableEq, Repr

/-- Why the model refuses. -/
inductive Refusal where
  /-- No meaning yet for the instruction of that mnemonic; raised only by a refused arm of `exec` (none is left).
  Safe: the run stops. -/
  | notModelled (mnemonic : String)
  /-- Raised by `step` on a reserved header: "A model treats a reserved header as `refuse`" (30_encoding R105; 60 R210,
  70 R257, log 5). Safe: the hardware consumes the word and goes on. -/
  | reservedHeader (why : Reserved)
  /-- Raised by `step` under a configuration that breaks a constraint: "A model refuses any other configuration" (70
  R242, log 4). Safe: no hardware has such a configuration. -/
  | illegalConfiguration
  deriving DecidableEq, Repr

/-- RB[c] after reset: every slot at its reset content, cursor 0, date +0.0 (R44). -/
def Ring.reset : Ring := { mem := [], cursor := 0, date := F64.zero }

/-- The registers of a channel after reset (R44). -/
def Channel.reset : Channel where
  ring := Ring.reset
  rate := .nosync
  nominal := F64.zero
  drift := F64.zero
  incount := 0
  outdate := F64.zero
  gain := F64.one
  cand := .nosync
  candcnt := 0

/-- The state right after reset under a configuration (R44), nothing received and nothing sent (log 1). -/
def State.resetWith (cfg : Cfg) : State where
  cfg := cfg
  chans := ⟨Channel.reset, Channel.reset, Channel.reset⟩
  mgain := F64.one
  pullcnt := 0
  cmd := []
  rsp := []
  draws := 0

/-- The state right after reset, under the spec's test configuration CFG_T (R15, log 3). -/
def State.reset : State := State.resetWith Config.cfgT

end Sys2Proof.Machine
end

