-- ==== Sys2Proof/Machine/Ops.lean ====
section
/-!
DEFINITION. The named operations over the storage and the registers: slots, channels, the two streams, the free draw,
the clear of a ring, entry to "no sync" and the way out of it, and the RESET event.

The block raises no exception (60_exceptions R210) and has no trap entry and no return (R218, R219), so there is no
operation that takes one. What the spec names in their place is here: `enterNoSync` (R212) and `freshLock` (R219).
-/

namespace Sys2Proof.Machine

/-! ## Ring storage -/

/-- The pair (+0.0, +0.0): silence (00_scope R19) and the reset content of every slot (10_state R44). -/
def silence : Pair := ⟨F64.zero, F64.zero⟩

/-- `MemRead(c, i)`: the pair in slot i; a slot not listed holds the reset content (R18, R44). -/
def memRead : Memory → Nat → Pair
  | [], _ => silence
  | (j, u) :: rest, i => if i = j then u else memRead rest i

/-- A slot in front of the slots above it; content equal to the reset content is not listed. -/
def consCell (i : Nat) (v : Pair) (m : Memory) : Memory := if v = silence then m else (i, v) :: m

/-- `MemWrite(c, i, v)`: replaces the pair in slot i and keeps the canonical form (R18). -/
def memWrite : Memory → Nat → Pair → Memory
  | [], i, v => consCell i v []
  | (j, u) :: rest, i, v =>
    if i < j then consCell i v ((j, u) :: rest)
    else if i = j then consCell i v rest
    else (j, u) :: memWrite rest i v

/-- The canonical form of a storage: slot indices strictly rising and no slot listed with its reset content. -/
def memoryWf : Memory → Bool
  | [] => true
  | [(_, u)] => u != silence
  | (i, u) :: (j, v) :: rest => u != silence && decide (i < j) && memoryWf ((j, v) :: rest)

/-- Every listed slot is one of the slots 0 .. N-1 (20_memory R60). -/
def memoryWithin (n : Nat) (m : Memory) : Bool := m.all (fun cell => decide (cell.1 < n))

/-! ## Channels -/

/-- The registers of channel c. -/
def State.chan (s : State) (c : Chan) : Channel := s.chans.get c

/-- Replace the registers of channel c, and of no other. -/
def State.setChan (s : State) (c : Chan) (x : Channel) : State := { s with chans := s.chans.set c x }

/-! ## Streams and the free draw -/

/-- `send(w)`: append a word to RSP (R18). -/
def State.send (s : State) (w : Word) : State := { s with rsp := s.rsp ++ [w] }

/-- `draw32()`: the next free word, and the count of draws after it (R18, log 6). -/
def draw32 (draws : Nat) : Word × Nat := (Config.draw32 draws, draws + 1)

/-! ## The clear, entry to "no sync", and the fresh lock -/

/-- RB.CLEAR: cursor to 0 and date to +0.0; the storage keeps its content (40_ring_buffer R121, 92 D9). -/
def ringClear (r : Ring) : Ring := { r with cursor := 0, date := F64.zero }

/-- Sync loss, or still no sync: the first branch of DETECT (42_rate_detector R156, R157; 60 R212). NOMINAL, GAIN and
the storage keep their values; INCOUNT is DETECT's last action. -/
def enterNoSync (ch : Channel) : Channel :=
  { ch with
    rate := .nosync
    drift := F64.zero
    ring := ringClear ch.ring
    outdate := F64.zero
    cand := .nosync
    candcnt := 0 }

/-- A fresh lock to rate m with nominal factor nom: RATE, NOMINAL and DRIFT are set, the ring is cleared and OUTDATE
returns to +0.0 (42 R156, R159; 60 R219). -/
def freshLock (m : Rate) (nom : F64) (ch : Channel) : Channel :=
  { ch with
    rate := m
    nominal := nom
    drift := nom
    ring := ringClear ch.ring
    outdate := F64.zero
    cand := .nosync
    candcnt := 0 }

/-! ## RESET -/

/-- The RESET event: every register takes its reset value; "words already sent on RSP stay sent"; the configuration
is fixed; the input that follows the event is `rest` (70_reset_and_hazards R240). The draw counter is the model's own
and goes on, so that a draw after a RESET is as free as any (log 6). -/
def State.resetEvent (s : State) (rest : List Input) : State :=
  { State.resetWith s.cfg with cmd := rest, rsp := s.rsp, draws := s.draws }

end Sys2Proof.Machine
end

