-- ==== Sys2Proof/Machine/Operands.lean ====
section
/-!
DEFINITION. Every operand form of the spec: the sample container, the gain word, the rate values and their codes, the
output word.
-/

namespace Sys2Proof.Machine

/-- `sext_24(w[23:0])` of a container word: bits 31:24 take no part (00_scope R16, 30_encoding R93, R99). -/
def sampleOf (w : Word) : Int := (w.extractLsb' 0 24).toInt

/-- NORM24(w) = float(sext_24(w[23:0])) / FS (40_ring_buffer R122). -/
def norm24 (w : Word) : F64 := (F64.ofInt (sampleOf w)).div F64.fullScale

/-- Both lanes of a pair of container words, "handled identically and independently" (R124). -/
def normPair (p : WordPair) : Pair := ⟨norm24 p.l, norm24 p.r⟩

/-- The gain operand: a binary32 word widened exactly; every bit pattern is accepted (30_encoding R103). -/
def gainOf (g : Word) : F64 := F64.widen g

/-- `hz(rho)` of a rate value; NOSYNC has no rate, and SRMID has one only where MID_RATE is present (10_state R29). -/
def rateHz (cfg : Cfg) : Rate → Option Nat
  | .nosync => none
  | .sr32000 => some 32000
  | .sr44100 => some 44100
  | .sr48000 => some 48000
  | .srmid => cfg.midRate
  | .sr96000 => some 96000

/-- RATES, in list order: [SR32000, SR44100, SR48000, SRMID (if present), SR96000] (00_scope R12). Each value stands
with its rate in Hz. -/
def ratesList (cfg : Cfg) : List (Rate × Nat) :=
  [(.sr32000, 32000), (.sr44100, 44100), (.sr48000, 48000)]
    ++ (match cfg.midRate with
        | some hz => [(.srmid, hz)]
        | none => [])
    ++ [(.sr96000, 96000)]

/-- The 3-bit code of a rate value (30_encoding R104). -/
def rateCode : Rate → BitVec 3
  | .nosync => 0
  | .sr32000 => 1
  | .sr44100 => 2
  | .sr48000 => 3
  | .srmid => 4
  | .sr96000 => 5

/-- `zext_32(code(RATE[c]))`, the response of GETSR (45_config_status R202). -/
def rateWord (r : Rate) : Word := (rateCode r).zeroExtend 32

/-- The nominal factor of a rate of hz Hz: float(hz) / 48000.0 (10_state R30). -/
def nominalFactor (hz : Nat) : F64 := (F64.ofInt hz).div F64.fout

/-- `word(i)`: the 32-bit two's-complement pattern of an integer (00_scope R16). -/
def wordOfInt (i : Int) : Word := BitVec.ofInt 32 i

/-- Whether CVT24 has no stated result for y: a NaN, or a truncation that does not fit 32 bits (44 R186). -/
def outOfInt32 (y : F64) : Bool := y.isNaN || y.ge F64.twoPow31 || y.le F64.belowMinInt32

/-- CVT24(y): truncation toward zero, or a free draw; with the count of draws after it (44 R186, 92 D22, D23). -/
def cvt24 (y : F64) (draws : Nat) : Word × Nat :=
  if outOfInt32 y then draw32 draws else (wordOfInt y.trunc, draws)

end Sys2Proof.Machine
end

