-- ==== Sys2Proof/Machine/Flags.lean ====
section
/-!
DEFINITION. The block has no flag register and no condition codes (10_state R37). The one condition the rules test is
the derived predicate `synced(c)`; the operating conditions of 60_exceptions R222 are functions of the registers.
-/

namespace Sys2Proof.Machine

/-- `synced(c)`: DRIFT[c] != 0, an IEEE comparison, so neither +0.0 nor -0.0 counts as non-zero (R37). -/
def synced (ch : Channel) : Bool := !(F64.eq ch.drift F64.zero)

/-- The operating condition of a channel (60_exceptions R222). -/
inductive Condition where
  | nosync | nosyncCandidate | synced | syncedCandidate
  deriving DecidableEq, Repr

/-- The table of R222: "each a function of the channel's registers and not separate state". -/
def condition (ch : Channel) : Condition :=
  if ch.rate = .nosync then (if ch.candcnt > 0 then .nosyncCandidate else .nosync)
  else (if ch.candcnt > 0 then .syncedCandidate else .synced)

end Sys2Proof.Machine
end

