-- ==== Sys2Proof/Machine/RingBuffer.lean ====
section
/-!
DEFINITION. RB.PUSH and RB.PULL (40_ring_buffer R123 to R131); RB.CLEAR is `ringClear` of Ops.
-/

namespace Sys2Proof.Machine

/-- RB.PUSH(c, lw, rw): write the normalised pair at the cursor, advance the cursor with wrap, add 1 to the date
(R123). -/
def ringPush (cfg : Cfg) (r : Ring) (p : WordPair) : Ring where
  mem := memWrite r.mem r.cursor (normPair p)
  cursor := (r.cursor + 1) % cfg.n
  date := r.date.add F64.one

/-- The range guard of RB.PULL: in range when d is finite and DATE - N <= d <= DATE, both bounds inclusive (R126,
R131). -/
def inRange (cfg : Cfg) (r : Ring) (d : F64) : Bool :=
  if !d.isFinite then false
  else if d.gt r.date then false
  else if d.lt (r.date.sub (F64.ofInt cfg.n)) then false
  else true

/-- The slot of the sample of integer date k: `(CURSOR - (int(DATE) - k)) mod N` (R127, 92 D10). DATE is an integer in
every reachable state, so `int` is the floor (log 8). -/
def slotOfDate (cfg : Cfg) (r : Ring) (k : Int) : Nat :=
  (((r.cursor : Int) - (r.date.floor - k)) % (cfg.n : Int)).toNat

/-- The fraction of a date: f = d - float(floor(d)), one IEEE subtraction, which can round up to 1.0 for a negative d
(R127). -/
def dateFraction (d : F64) : F64 := d.sub (F64.ofInt d.floor)

/-- The blend of one lane: `(a * g) + (b * f)`, g = 1.0 - f (R128, 92 D12). -/
def blend (a b f : F64) : F64 := (a.mul (F64.one.sub f)).add (b.mul f)

/-- Both lanes, "per channel independently" (R128). -/
def blendPair (a b : Pair) (f : F64) : Pair := ⟨blend a.l b.l f, blend a.r b.r f⟩

/-- RB.PULL(c, d): silence out of range, else the interpolation of the two slots that bracket d (R126 to R128). It
reads and changes nothing. -/
def ringPull (cfg : Cfg) (r : Ring) (d : F64) : Pair :=
  if inRange cfg r d then
    let idx0 := slotOfDate cfg r d.floor
    let idx1 := (idx0 + 1) % cfg.n
    blendPair (memRead r.mem idx0) (memRead r.mem idx1) (dateFraction d)
  else silence

end Sys2Proof.Machine
end

