-- ==== Sys2Proof/Machine/Push.lean ====
section
/-!
DEFINITION. The push path: PUSH1 and PUSHS (41_push_path R140 to R142).
-/

namespace Sys2Proof.Machine

/-- `min(INCOUNT[c] + 1, 2^32 - 1)`: counted exactly, then held at the limit (R140, R141). -/
def countOne (n : BitVec 32) : BitVec 32 := BitVec.ofNat 32 (min (n.toNat + 1) (2 ^ 32 - 1))

/-- PUSH1(c, lw, rw): push the pair into the ring and count it; whether the channel is synchronised or not (R140). -/
def pushOne (cfg : Cfg) (ch : Channel) (p : WordPair) : Channel :=
  { ch with ring := ringPush cfg ch.ring p, incount := countOne ch.incount }

/-- The loop of PUSHS, in payload order (R142). -/
def pushAll (cfg : Cfg) : Channel → List WordPair → Channel
  | ch, [] => ch
  | ch, p :: ps => pushAll cfg (pushOne cfg ch p) ps

/-- PUSHS c: PUSH1 for each pair of the payload; no response (R142). -/
def execPushs (c : Chan) (pairs : List WordPair) (s : State) : Host.Outcome State Fault Refusal :=
  .next (s.setChan c (pushAll s.cfg (s.chan c) pairs))

end Sys2Proof.Machine
end

