-- ==== Sys2Proof/Machine/Detector.lean ====
section
/-!
DEFINITION. The rate detector: EXPECT, CLASSIFY, DETECT (42_rate_detector R152 to R161), and the constraints a
configuration must meet (00_scope R13, R153, 70_reset_and_hazards R242).
-/

namespace Sys2Proof.Machine

/-! ## Expected counts and bands -/

/-- EXPECT of a rate of hz Hz: `floor((W * hz + 24000) / 48000)` in unbounded integer arithmetic (R152). -/
def expectCount (cfg : Cfg) (hz : Nat) : Nat := (cfg.w * hz + 24000) / 48000

/-- The lower edge of a band, which belongs to it (R153). -/
def bandLow (cfg : Cfg) (c : Chan) (hz : Nat) : Int := (expectCount cfg hz : Int) - (cfg.tol.get c : Int)

/-- The upper edge of a band, which belongs to it (R153). -/
def bandHigh (cfg : Cfg) (c : Chan) (hz : Nat) : Int := (expectCount cfg hz : Int) + (cfg.tol.get c : Int)

/-- Whether a count lies in the band of a rate of hz Hz (R154). -/
def inBand (cfg : Cfg) (c : Chan) (n hz : Nat) : Bool :=
  decide (bandLow cfg c hz ≤ (n : Int)) && decide ((n : Int) ≤ bandHigh cfg c hz)

/-- The scan of CLASSIFY: the first rate of the list whose band holds n (R154). -/
def firstMatch (cfg : Cfg) (c : Chan) (n : Nat) : List (Rate × Nat) → Option (Rate × Nat)
  | [] => none
  | rho :: rest => if inBand cfg c n rho.2 then some rho else firstMatch cfg c n rest

/-- CLASSIFY(c, n), with the rate in Hz of the value found; `none` is NOSYNC (R154). -/
def classify (cfg : Cfg) (c : Chan) (n : Nat) : Option (Rate × Nat) := firstMatch cfg c n (ratesList cfg)

/-- CLASSIFY(c, n) as the rate value the spec names (R154). -/
def classifyRate (cfg : Cfg) (c : Chan) (n : Nat) : Rate :=
  match classify cfg c n with
  | some rho => rho.1
  | none => .nosync

/-! ## DETECT -/

/-- The candidate bookkeeping of a match that differs from RATE[c]: count it on, or start it at 1 (R156, R161). -/
def countCandidate (m : Rate) (ch : Channel) : Channel :=
  if m = ch.cand then { ch with candcnt := ch.candcnt + 1 } else { ch with cand := m, candcnt := 1 }

/-- A match with a rate other than RATE[c]: a fresh lock once it has persisted PERSIST windows (R159). -/
def detectNewRate (cfg : Cfg) (m : Rate) (hz : Nat) (ch : Channel) : Channel :=
  if (countCandidate m ch).candcnt ≥ cfg.persist then freshLock m (nominalFactor hz) (countCandidate m ch)
  else countCandidate m ch

/-- A match with RATE[c] itself: nothing changes but a pending candidate, which is dropped (R158). -/
def detectSameRate (ch : Channel) : Channel := { ch with cand := .nosync, candcnt := 0 }

/-- DETECT's three-way decision, before its last action (R156, 60 R217). -/
def detectDecision (cfg : Cfg) (c : Chan) (ch : Channel) : Channel :=
  match classify cfg c ch.incount.toNat with
  | none => enterNoSync ch
  | some rho => if rho.1 = ch.rate then detectSameRate ch else detectNewRate cfg rho.1 rho.2 ch

/-- DETECT(c): the decision, then "the input counter is reset to 0 regardless" (R156, R160). -/
def detect (cfg : Cfg) (c : Chan) (ch : Channel) : Channel :=
  { detectDecision cfg c ch with incount := 0 }

/-- DETECT(1), DETECT(2), DETECT(3) (44 R191). -/
def detectAll (cfg : Cfg) (p : PerChannel Channel) : PerChannel Channel where
  ch1 := detect cfg .c1 p.ch1
  ch2 := detect cfg .c2 p.ch2
  ch3 := detect cfg .c3 p.ch3

/-! ## Legal configurations -/

/-- Two bands of a channel have no count in common (R153 (a)). -/
def bandsDisjoint (cfg : Cfg) (c : Chan) (a b : Nat) : Bool :=
  decide (bandHigh cfg c a < bandLow cfg c b) || decide (bandHigh cfg c b < bandLow cfg c a)

/-- Every two bands of a list are disjoint (R153 (a)). -/
def allDisjoint (cfg : Cfg) (c : Chan) : List (Rate × Nat) → Bool
  | [] => true
  | rho :: rest => rest.all (fun r => bandsDisjoint cfg c rho.2 r.2) && allDisjoint cfg c rest

/-- The three constraints on the bands of a channel: (a) disjoint, (b) each starts at 1 or above, (c) each ends below
2^32 - 1 (R153). -/
def legalBands (cfg : Cfg) (c : Chan) : Bool :=
  allDisjoint cfg c (ratesList cfg)
    && (ratesList cfg).all (fun rho =>
      decide (1 ≤ bandLow cfg c rho.2 ∧ bandHigh cfg c rho.2 < 2 ^ 32 - 1))

/-- B_IN[c] >= 1 and 2*B_IN[c] < N (R13). -/
def legalBurst (cfg : Cfg) (c : Chan) : Bool :=
  decide (1 ≤ cfg.bIn.get c) && decide (2 * cfg.bIn.get c < cfg.n)

/-- MID_RATE absent, or in Hz other than the four fixed rates (R12, R13). -/
def legalMidRate (cfg : Cfg) : Bool :=
  match cfg.midRate with
  | none => true
  | some hz => hz != 32000 && hz != 44100 && hz != 48000 && hz != 96000

/-- N >= 2, B_OUT >= 1, W >= 1, PERSIST >= 1 (R13). -/
def legalSizes (cfg : Cfg) : Bool :=
  decide (2 ≤ cfg.n ∧ 1 ≤ cfg.bOut ∧ 1 ≤ cfg.w ∧ 1 ≤ cfg.persist)

/-- KP finite and above 0; 0 < ALPHA < 1 (R13). -/
def legalFilter (cfg : Cfg) : Bool :=
  cfg.kp.isFinite && (F64.zero.lt cfg.kp && (F64.zero.lt cfg.alpha && cfg.alpha.lt F64.one))

/-- The constraints on what a channel has of its own: its burst size and its bands. -/
def legalChannel (cfg : Cfg) (c : Chan) : Bool := legalBurst cfg c && legalBands cfg c

/-- The constraints of R13 and R153 on a configuration, gathered in 70 R242. -/
def legalConfig (cfg : Cfg) : Bool :=
  legalSizes cfg && (legalFilter cfg && (legalMidRate cfg
    && (legalChannel cfg .c1 && (legalChannel cfg .c2 && legalChannel cfg .c3))))

end Sys2Proof.Machine
end

