-- ==== Sys2Proof/Machine/Drift.lean ====
section
/-!
DEFINITION. The read position and the drift filter: READDATE and DRIFT.ADJ (43_drift_filter R170 to R176).
-/

namespace Sys2Proof.Machine

/-- float(B_IN[c]): the target age, and the safety margin of the read position (R170, R173). -/
def targetAge (cfg : Cfg) (c : Chan) : F64 := F64.ofInt (cfg.bIn.get c)

/-- READDATE(c) = (OUTDATE[c] * DRIFT[c]) - float(B_IN[c]) (R170). -/
def readDate (cfg : Cfg) (c : Chan) (ch : Channel) : F64 := (ch.outdate.mul ch.drift).sub (targetAge cfg c)

/-- err = (age - tgt) / tgt with age = RB[c].DATE - r (R172, R173). -/
def driftError (cfg : Cfg) (c : Chan) (ch : Channel) (r : F64) : F64 :=
  ((ch.ring.date.sub r).sub (targetAge cfg c)).div (targetAge cfg c)

/-- corr = NOMINAL[c] * (1.0 + (err * KP)), before the clamp (R172, R174). -/
def correction (cfg : Cfg) (c : Chan) (ch : Channel) (r : F64) : F64 :=
  ch.nominal.mul (F64.one.add ((driftError cfg c ch r).mul cfg.kp))

/-- Two comparisons against bounds, each bound inclusive (R175, 92 D20). -/
def clampTo (lo hi x : F64) : F64 :=
  let y := if x.lt lo then lo else x
  if y.gt hi then hi else y

/-- The clamp to within 50% of the nominal factor (R175). -/
def clampToNominal (nominal x : F64) : F64 := clampTo (nominal.mul F64.half) (nominal.mul F64.threeHalves) x

/-- The moving average: (old * (1.0 - ALPHA)) + (corr * ALPHA) (R176, 92 D19). -/
def movingAverage (cfg : Cfg) (old corr : F64) : F64 :=
  (old.mul (F64.one.sub cfg.alpha)).add (corr.mul cfg.alpha)

/-- DRIFT.ADJ(c, r): writes DRIFT[c] only (R172). -/
def driftAdjust (cfg : Cfg) (c : Chan) (r : F64) (ch : Channel) : Channel :=
  { ch with drift := movingAverage cfg ch.drift (clampToNominal ch.nominal (correction cfg c ch r)) }

end Sys2Proof.Machine
end

