-- ==== Sys2Proof/Machine/Pull.lean ====
section
/-!
DEFINITION. The pull path: TICK and PULLS (44_pull_path R187 to R193); CVT24 is `cvt24` of Operands.
-/

namespace Sys2Proof.Machine

/-- The pair a channel contributes to a tick: its ring read at the read date times its gain, or +0.0 itself when the
channel is not synchronised (R187, 92 D28). -/
def contribution (cfg : Cfg) (c : Chan) (ch : Channel) : Pair :=
  if synced ch then
    let p := ringPull cfg ch.ring (readDate cfg c ch)
    ⟨p.l.mul ch.gain, p.r.mul ch.gain⟩
  else silence

/-- The drift adjustment of a tick, at the date the tick has just used, for a synchronised channel only (R187, 43
R177). -/
def tickDrift (cfg : Cfg) (c : Chan) (ch : Channel) : Channel :=
  if synced ch then driftAdjust cfg c (readDate cfg c ch) ch else ch

/-- Step 5 of a tick for one channel: OUTDATE[c] <- OUTDATE[c] + 1.0, synchronised or not (R190). -/
def advanceOutdate (ch : Channel) : Channel := { ch with outdate := ch.outdate.add F64.one }

/-- What a tick does to one channel before the window test (R187, R190). -/
def tickChannel (cfg : Cfg) (c : Chan) (ch : Channel) : Channel := advanceOutdate (tickDrift cfg c ch)

/-- The three channels after the drift adjustments and the date increments, "in the order 1, 2, 3" (60 R225). -/
def tickChannels (cfg : Cfg) (p : PerChannel Channel) : PerChannel Channel where
  ch1 := tickChannel cfg .c1 p.ch1
  ch2 := tickChannel cfg .c2 p.ch2
  ch3 := tickChannel cfg .c3 p.ch3

/-- One lane of the mix: ((x1 + x2) + x3), times MGAIN, times FS (R188, 92 D21). -/
def mixLane (x1 x2 x3 mgain : F64) : F64 := (((x1.add x2).add x3).mul mgain).mul F64.fullScale

/-- The scaled sum of both lanes (R188). -/
def mix (s : State) : Pair :=
  let x1 := contribution s.cfg .c1 (s.chan .c1)
  let x2 := contribution s.cfg .c2 (s.chan .c2)
  let x3 := contribution s.cfg .c3 (s.chan .c3)
  ⟨mixLane x1.l x2.l x3.l s.mgain, mixLane x1.r x2.r x3.r s.mgain⟩

/-- The output pair of a tick, left word converted first, and the count of draws after it (R188, log 12). -/
def tickOutput (s : State) : WordPair × Nat :=
  let l := cvt24 (mix s).l s.draws
  let r := cvt24 (mix s).r l.2
  (⟨l.1, r.1⟩, r.2)

/-- The window test: PULLCNT <- PULLCNT + 1, and in the tick that brings it to W, DETECT for the three channels and
PULLCNT <- 0 (R191). -/
def windowTest (s : State) : State :=
  if s.pullcnt + 1 = s.cfg.w then { s with chans := detectAll s.cfg s.chans, pullcnt := 0 }
  else { s with pullcnt := s.pullcnt + 1 }

/-- What a tick leaves: the drift factors and dates, then the window test; the output was computed before (R187 to
R191). -/
def tickState (s : State) : State :=
  windowTest { s with chans := tickChannels s.cfg s.chans, draws := (tickOutput s).2 }

/-- One pass of the loop of PULLS: TICK, then send LOUT, then send ROUT (R193). -/
def tickAndSend (s : State) : State := ((tickState s).send (tickOutput s).1.l).send (tickOutput s).1.r

/-- k passes of the loop of PULLS. -/
def ticks : Nat → State → State
  | 0, s => s
  | k + 1, s => ticks k (tickAndSend s)

/-- PULLS: B_OUT ticks, each sending its two words (R193). -/
def execPulls (s : State) : Host.Outcome State Fault Refusal := .next (ticks s.cfg.bOut s)

end Sys2Proof.Machine
end

