-- ==== Sys2Proof/Machine/ConfigStatus.lean ====
section
/-!
DEFINITION. The configuration and status commands: SETGAIN, SETGAINM, GETSR (45_config_status R200 to R202).
-/

namespace Sys2Proof.Machine

/-- SETGAIN c, g: GAIN[c] <- widen(g), no bounds, no smoothing (R200). -/
def execSetgain (c : Chan) (g : Word) (s : State) : Host.Outcome State Fault Refusal :=
  .next (s.setChan c { s.chan c with gain := gainOf g })

/-- SETGAINM g: MGAIN <- widen(g) (R201). -/
def execSetgainm (g : Word) (s : State) : Host.Outcome State Fault Refusal :=
  .next { s with mgain := gainOf g }

/-- GETSR c: sends zext_32(code(RATE[c])) and changes no register (R202). -/
def execGetsr (c : Chan) (s : State) : Host.Outcome State Fault Refusal :=
  .next (s.send (rateWord (s.chan c).rate))

end Sys2Proof.Machine
end

