-- ==== Sys2Proof/Machine/Dispatch.lean ====
section
/-!
DEFINITION. One arm per command (30_encoding R94).
-/

namespace Sys2Proof.Machine

/-- The meaning of a command: a next state always, for the block raises nothing (60_exceptions R210). -/
def exec (i : Instr) (s : State) : Host.Outcome State Fault Refusal :=
  match i with
  | .pushs c pairs => Sys2Proof.Machine.execPushs c pairs s
  | .pulls => Sys2Proof.Machine.execPulls s
  | .setgain c g => Sys2Proof.Machine.execSetgain c g s
  | .setgainm g => Sys2Proof.Machine.execSetgainm g s
  | .getsr c => Sys2Proof.Machine.execGetsr c s

end Sys2Proof.Machine
end

