-- ==== Sys2Proof/WellFormed.lean ====
section
/-!
DEFINITION. Which commands the encoding can express under a configuration (30_encoding R94 to R98).
-/

namespace Sys2Proof

/-- A PUSHS carries exactly B_IN[c] pairs (R95): "a payload of other than 2*B_IN[c] words cannot be expressed"
(41 R142). Every other operand is expressible at every value: the channel is 1, 2 or 3 by its type, and "every bit
pattern is accepted" as a gain (R103). -/
def Instr.wellFormed (cfg : Cfg) : Instr → Bool
  | .pushs c ps => ps.length == cfg.bIn.get c
  | .pulls => true
  | .setgain _ _ => true
  | .setgainm _ => true
  | .getsr _ => true

end Sys2Proof
end

