-- ==== Sys2Proof/Decode.lean ====
section
/-!
DEFINITION. The decoder of 30_encoding (total on any words, rejecting by name), the encoder written from the same
table, and the notation of R107 and R108. Words stand in lists in stream order; there are no bytes (20_memory R63).
-/

namespace Sys2Proof

/-! ## Decoding -/

/-- Header bits 31:28, op (R91). -/
def headerOp (w : Word) : Nat := (w.extractLsb' 28 4).toNat

/-- Header bits 27:26, rz1 (R91). -/
def headerRz1 (w : Word) : Nat := (w.extractLsb' 26 2).toNat

/-- Header bits 25:24, ch (R91, R100). -/
def headerCh (w : Word) : Nat := (w.extractLsb' 24 2).toNat

/-- Header bits 23:0, rz0 (R91). -/
def headerRz0 (w : Word) : Nat := (w.extractLsb' 0 24).toNat

/-- The channel operand of a channel command; 0 is reserved (R100, R105). -/
def decodeChan : Nat → Except Reserved Chan
  | 1 => .ok .c1
  | 2 => .ok .c2
  | 3 => .ok .c3
  | _ => .error .channelMissing

/-- A header of format C: the channel must be 1, 2 or 3 (R92). -/
def channelHeader (ch : Nat) (h : Chan → Header) : Except Reserved Header :=
  match decodeChan ch with
  | .ok c => .ok (h c)
  | .error e => .error e

/-- A header of format G: the channel field must be 00 (R92). -/
def globalHeader (ch : Nat) (h : Header) : Except Reserved Header :=
  if ch = 0 then .ok h else .error .channelOnGlobal

/-- The opcode map (R94): op 1 to 5 in the order of the table. -/
def opcodeMap (op ch : Nat) : Except Reserved Header :=
  match op with
  | 1 => channelHeader ch .pushs
  | 2 => globalHeader ch .pulls
  | 3 => channelHeader ch .setgain
  | 4 => globalHeader ch .setgainm
  | 5 => channelHeader ch .getsr
  | _ => .error .op

/-- A header word, decoded or rejected with the reason that it is reserved (R94, R105). -/
def decodeHeader (w : Word) : Except Reserved Header :=
  if headerRz1 w ≠ 0 then .error .rz1
  else if headerRz0 w ≠ 0 then .error .rz0
  else opcodeMap (headerOp w) (headerCh w)

/-- The number of payload words of a command (R98). -/
def payloadLength (cfg : Cfg) : Header → Nat
  | .pushs c => 2 * cfg.bIn.get c
  | .pulls => 0
  | .setgain _ => 1
  | .setgainm => 1
  | .getsr _ => 0

/-- The length in words of the command a header word begins; "a reserved header is 1" (R98). -/
def commandLength (cfg : Cfg) (w : Word) : Nat :=
  match decodeHeader w with
  | .ok h => 1 + payloadLength cfg h
  | .error _ => 1

/-- The first `k` pairs of an interleaved payload, left word first (R64, R95), and the words after them. -/
def takePairs : Nat → List Word → Option (List WordPair × List Word)
  | 0, ws => some ([], ws)
  | _ + 1, [] => none
  | _ + 1, [_] => none
  | k + 1, l :: r :: ws =>
    match takePairs k ws with
    | some (ps, rest) => some (⟨l, r⟩ :: ps, rest)
    | none => none

/-- A command with one payload word. -/
def decodeOneWord (mk : Word → Instr) : List Word → Decoded
  | [] => .incomplete
  | g :: rest => .command (mk g) rest

/-- The payload of a decoded header: "the payload that follows is fixed by op (and by ch and CFG for its length)"
(R92). -/
def decodePayload (cfg : Cfg) (h : Header) (ws : List Word) : Decoded :=
  match h with
  | .pushs c =>
    match takePairs (cfg.bIn.get c) ws with
    | some (ps, rest) => .command (.pushs c ps) rest
    | none => .incomplete
  | .pulls => .command .pulls ws
  | .setgain c => decodeOneWord (.setgain c) ws
  | .setgainm => decodeOneWord .setgainm ws
  | .getsr c => .command (.getsr c) ws

/-- The command at the front of a list of words. Position decides: the first word is a header, whatever it would
mean as a payload (R98, R109). -/
def decode (cfg : Cfg) : List Word → Decoded
  | [] => .incomplete
  | w :: ws =>
    match decodeHeader w with
    | .ok h => decodePayload cfg h ws
    | .error why => .reserved why ws

/-! ## Encoding -/

/-- The header word with the given op and ch, rz1 and rz0 zero (R91). -/
def headerWord (op ch : Nat) : Word :=
  BitVec.ofNat 4 op ++ (0 : BitVec 2) ++ BitVec.ofNat 2 ch ++ (0 : BitVec 24)

/-- The header word of a command (R94). -/
def encodeHeader : Header → Word
  | .pushs c => headerWord 1 c.number
  | .pulls => headerWord 2 0
  | .setgain c => headerWord 3 c.number
  | .setgainm => headerWord 4 0
  | .getsr c => headerWord 5 c.number

/-- The header of a command. -/
def Instr.header : Instr → Header
  | .pushs c _ => .pushs c
  | .pulls => .pulls
  | .setgain c _ => .setgain c
  | .setgainm _ => .setgainm
  | .getsr c => .getsr c

/-- Pairs in payload order: L_0 R_0 L_1 R_1 ... (R95). -/
def interleave : List WordPair → List Word
  | [] => []
  | p :: ps => p.l :: p.r :: interleave ps

/-- The payload words of a command. -/
def Instr.payload : Instr → List Word
  | .pushs _ ps => interleave ps
  | .pulls => []
  | .setgain _ g => [g]
  | .setgainm g => [g]
  | .getsr _ => []

/-- The words of a command: header, then payload (R91). -/
def encode (i : Instr) : List Word := encodeHeader i.header :: i.payload

/-- The words of a command list, one command after the other (R98). -/
def encodeProgram (is : List Instr) : List Word := is.flatMap encode

/-! ## Notation (R107, R108) -/

/-- The mnemonic of R94. -/
def Instr.mnemonic : Instr → String
  | .pushs _ _ => "PUSHS"
  | .pulls => "PULLS"
  | .setgain _ _ => "SETGAIN"
  | .setgainm _ => "SETGAINM"
  | .getsr _ => "GETSR"

/-- The digit that ends a per-channel call name of the source. -/
def Chan.digit : Chan → String
  | .c1 => "1"
  | .c2 => "2"
  | .c3 => "3"

/-- The source's call name, accepted as an alias of the mnemonic and its channel (R108). -/
def Instr.callName : Instr → String
  | .pushs c _ => "pushSamples" ++ c.digit
  | .pulls => "pullSamples"
  | .setgain c _ => "setGain" ++ c.digit
  | .setgainm _ => "setGainMaster"
  | .getsr c => "getSampleRate" ++ c.digit

/-- `REPEAT n ...`: the body written n times, with the iteration number `$j` from 0 (R108). -/
def repeatBody (n : Nat) (body : Nat → List Instr) : List Instr := (List.range n).flatMap body

/-! ## The opcode table's words -/

/-- The first `k` 32-bit words of a number, the first word in its least significant bits. -/
def tableWords : Nat → Nat → List Word
  | 0, _ => []
  | k + 1, w => BitVec.ofNat 32 w :: tableWords k (w / 2 ^ 32)

/-- The words of a command whose table bits are `w`: bits from `nbits` up are zero, and there are as many words as
the header asks for under `cfg`. -/
def tableCommand (cfg : Cfg) (nbits w : Nat) : List Word :=
  tableWords (commandLength cfg (BitVec.ofNat 32 (w % 2 ^ nbits))) (w % 2 ^ nbits)

/-- The command the decoder reads from a table row's bits, under the configuration of `State.reset` (log 3). -/
def decodeTableWord (nbits w : Nat) : Option Instr :=
  match decode Config.cfgT (tableCommand Config.cfgT nbits w) with
  | .command i _ => some i
  | .reserved _ _ => none
  | .incomplete => none

end Sys2Proof
end

