-- ==== Sys2Proof/Machine/Fetch.lean ====
section
/-!
DEFINITION. Taking the next command from the input: words up to the next RESET event, the RESET event itself, and the
wait when no whole command has arrived (30_encoding R98, R106; 70_reset_and_hazards R240, R256).
-/

namespace Sys2Proof.Machine

/-- The words that stand before the next RESET event. -/
def leadingWords : List Input → List Word
  | .word w :: rest => w :: leadingWords rest
  | .reset :: _ => []
  | [] => []

/-- The input after the next RESET event, where one has arrived. -/
def afterReset : List Input → Option (List Input)
  | .word _ :: rest => afterReset rest
  | .reset :: rest => some rest
  | [] => none

/-- The next thing the block does with its input. A command is taken only when all of it has arrived (R106); a RESET
discards a command received only in part, so it is met before it (R240). -/
def fetch (cfg : Cfg) (input : List Input) : Fetched :=
  match decode cfg (leadingWords input) with
  | .command i rest => .command i (input.drop ((leadingWords input).length - rest.length))
  | .reserved why rest => .reserved why (input.drop ((leadingWords input).length - rest.length))
  | .incomplete =>
    match afterReset input with
    | some rest => .reset rest
    | none => .wait

/-- The words of a command, put in front of the input. -/
def placeWords (ws : List Word) (input : List Input) : List Input := ws.map Input.word ++ input

/-- The state with another input in front of it, all else the same. -/
def State.withInput (s : State) (input : List Input) : State := { s with cmd := input }

/-- An environment's move: inputs arrive behind those not yet consumed (R90, 70 R257). -/
def State.deliver (s : State) (arrived : List Input) : State := { s with cmd := s.cmd ++ arrived }

end Sys2Proof.Machine
end

