-- ==== Sys2Proof/Machine/Step.lean ====
section
/-!
DEFINITION. One step: one whole command, or one RESET event, or the wait for input (00_scope R9, 70_reset_and_hazards
R240, R255, R256).
-/

namespace Sys2Proof.Machine

/-- What follows from what was fetched. The command runs on the state whose input it has left. Waiting for a word
changes nothing and is no stop: "the block then waits for a header word, which is not a fault, not a hang and not a
stuck state of the block" (R256, log 7). -/
def perform (s : State) : Fetched → Host.Outcome State Fault Refusal
  | .command i rest => exec i (s.withInput rest)
  | .reserved why _ => .refused (.reservedHeader why)
  | .reset rest => .next (s.resetEvent rest)
  | .wait => .next s

/-- One step of the block. An illegal configuration is refused (R242, log 4). -/
def step (s : State) : Host.Outcome State Fault Refusal :=
  if legalConfig s.cfg then perform s (fetch s.cfg s.cmd) else .refused .illegalConfiguration

/-- The command whose table bits are `w`, its payload words from `nbits` up zero, put where the step takes its next
command: at the front of the input (log 1). -/
def State.withFetchWord (s : State) (nbits w : Nat) : State :=
  s.withInput (placeWords (tableCommand s.cfg nbits w) s.cmd)

end Sys2Proof.Machine
end

