-- ==== Sys2Proof/Safety.lean ====
section
/-!
DEFINITION. What the rules say holds between any two commands (10_state R25 to R44, 43_drift_filter R171, R178): the
invariant of every state that a run from reset reaches under a legal configuration, in the terms the statements use.
-/

namespace Sys2Proof.Machine

/-- A date: a FLOAT that holds a non-negative integer (R27, R33), at most 2^53, where the counting stops (40 R125, 44
R190). -/
def IsDate (x : F64) : Prop := ∃ k : Nat, k ≤ 2 ^ 53 ∧ x = F64.ofInt k

/-- A value that a push can store (R25): NORM24 of some container word. -/
def IsSample (x : F64) : Prop := ∃ w : Word, x = norm24 w

/-- Between commands, a ring's storage is canonical and inside its N slots, every slot holds samples or its reset
content, which is NORM24 of the zero word (R25), the cursor is below N (R26), and DATE is a date (R27). -/
structure RingInv (cfg : Cfg) (r : Ring) : Prop where
  canonical : memoryWf r.mem = true
  within : memoryWithin cfg.n r.mem = true
  samples : ∀ i, IsSample (memRead r.mem i).l ∧ IsSample (memRead r.mem i).r
  cursor : r.cursor < cfg.n
  date : IsDate r.date

/-- A bound on DRIFT[c] that the filter cannot pass: 2^64, far above 1.5 times the greatest nominal factor of a legal
configuration (below 2^33). It is the model's own bound, looser than R178's, and is there so that finiteness is
inductive. -/
def driftCeiling : F64 := .fin false 1087 0

/-- A synchronised channel: its rate has a frequency, NOMINAL is that rate's factor (R30), DRIFT is finite and
strictly positive (R31, R178). -/
structure SyncedInv (cfg : Cfg) (ch : Channel) : Prop where
  nominal : ∃ hz, rateHz cfg ch.rate = some hz ∧ ch.nominal = nominalFactor hz
  finite : ch.drift.isFinite = true
  positive : F64.zero.lt ch.drift = true
  bounded : ch.drift.le driftCeiling = true

/-- Between commands, the registers of one channel (R25 to R35). -/
structure ChannelInv (cfg : Cfg) (ch : Channel) : Prop where
  ring : RingInv cfg ch.ring
  outdate : IsDate ch.outdate
  /-- DRIFT[c] = +0.0 exactly while the channel is not synchronised (R31). -/
  unsynced : ch.rate = .nosync → ch.drift = F64.zero
  synced : ch.rate ≠ .nosync → SyncedInv cfg ch
  /-- A candidate is pending exactly while its count is not 0 (R35, 42 R156). -/
  candidate : ch.cand = .nosync ↔ ch.candcnt = 0
  /-- A count that reaches PERSIST has become a lock (42 R159, R161). -/
  pending : ch.candcnt < cfg.persist

/-- The invariant of the whole state between commands. The bound on N is that of 00_scope R17: `float(i)` is stated
below 2^53 only, and 40 R126 takes N to be there. -/
structure Inv (s : State) : Prop where
  legal : legalConfig s.cfg = true
  capacity : s.cfg.n < 2 ^ 53
  chans : ∀ c, ChannelInv s.cfg (s.chan c)
  /-- 0 <= PULLCNT <= W-1 between commands (R34). -/
  pullcnt : s.pullcnt < s.cfg.w

/-- Every register of a channel at its reset value, and every slot of its ring (R44). -/
structure AtReset (ch : Channel) : Prop where
  mem : ∀ i, memRead ch.ring.mem i = ⟨F64.zero, F64.zero⟩
  cursor : ch.ring.cursor = 0
  date : ch.ring.date = F64.zero
  rate : ch.rate = .nosync
  nominal : ch.nominal = F64.zero
  drift : ch.drift = F64.zero
  incount : ch.incount = 0
  outdate : ch.outdate = F64.zero
  gain : ch.gain = F64.one
  cand : ch.cand = .nosync
  candcnt : ch.candcnt = 0

/-- Between the two states only registers of channel c differ: the frame of a command of one channel. -/
structure SameBut (c : Chan) (s t : State) : Prop where
  cfg : t.cfg = s.cfg
  mgain : t.mgain = s.mgain
  pullcnt : t.pullcnt = s.pullcnt
  cmd : t.cmd = s.cmd
  rsp : t.rsp = s.rsp
  draws : t.draws = s.draws
  others : ∀ d, d ≠ c → t.chan d = s.chan d

/-- No channel is locked, nothing has been pushed since the last window boundary, and the master gain is finite. -/
structure Quiet (s : State) : Prop where
  inv : Inv s
  unlocked : ∀ c, (s.chan c).rate = .nosync
  empty : ∀ c, (s.chan c).incount = 0
  mgain : s.mgain.isFinite = true

/-- The commands of a list, one after the other, each on the state the one before it left (20_memory R69). -/
def execAll : List Instr → State → Host.Outcome State Fault Refusal
  | [], s => .next s
  | i :: is, s =>
    match exec i s with
    | .next t => execAll is t
    | .fault f => .fault f
    | .refused r => .refused r

/-- A run of `Host.Core.run` that was stopped by neither a fault nor a refusal. -/
def safeRun (k : Nat) (s : State) : Prop := ∃ t, Host.Core.run core k s = .next t

end Sys2Proof.Machine
end

