-- ==== Sys2Proof/Certificates/Slice0/Obligations.lean ====
section
/-!
DEFINITION. The statements for the provers, one definition each, in the order of the rules they formalise: the encoding,
the step and the stream, reset and configuration, the ring, the operands, the small commands, the detector, the pull
path, the drift filter, and rules over the whole machine.
-/

section Statements

open Sys2Proof Sys2Proof.Machine

/-! ## The encoding (30_encoding) -/

/-- Decoding the words of a well-formed command gives the command back, with every operand, and leaves the words behind
it (R91, R94, R95, R97, R98). -/
def Obligations.DecodeEncodeRoundTrip : Prop :=
  ∀ (cfg : Cfg) (i : Instr) (rest : List Word),
    i.wellFormed cfg = true → decode cfg (encode i ++ rest) = .command i rest

/-- Whatever words decode to a command are that command's own words and no others (R91, R94, R98). -/
def Obligations.DecodedCommandIsItsEncoding : Prop :=
  ∀ (cfg : Cfg) (ws rest : List Word) (i : Instr),
    decode cfg ws = .command i rest → i.wellFormed cfg = true ∧ ws = encode i ++ rest

/-- A header word is reserved exactly when one of R105's five conditions on its bits holds; it is one word long. -/
def Obligations.ReservedHeadersAreExactlyThese : Prop :=
  ∀ (cfg : Cfg) (w : Word) (rest : List Word),
    (∃ why, decode cfg (w :: rest) = .reserved why rest) ↔
      (w.toNat / 2 ^ 28 = 0 ∨ 6 ≤ w.toNat / 2 ^ 28) ∨ w.toNat / 2 ^ 26 % 4 ≠ 0 ∨ w.toNat % 2 ^ 24 ≠ 0 ∨
      ((w.toNat / 2 ^ 28 = 1 ∨ w.toNat / 2 ^ 28 = 3 ∨ w.toNat / 2 ^ 28 = 5) ∧ w.toNat / 2 ^ 24 % 4 = 0) ∨
      ((w.toNat / 2 ^ 28 = 2 ∨ w.toNat / 2 ^ 28 = 4) ∧ w.toNat / 2 ^ 24 % 4 ≠ 0)

/-- The worked encodings of R109: words written out from the spec decode to the commands they stand for, and position
decides what the word 0x40000000 is. -/
def Obligations.WorkedEncodingsDecode : Prop :=
  decode Config.cfgT [0x11000000, 0x00061000, 0xFFF9F000, 0x00062000, 0xFFF9E000]
      = .command (.pushs .c1 [⟨0x00061000, 0xFFF9F000⟩, ⟨0x00062000, 0xFFF9E000⟩]) [] ∧
  decode Config.cfgT [0x20000000] = .command .pulls [] ∧
  decode Config.cfgT [0x32000000, 0x40000000] = .command (.setgain .c2 0x40000000) [] ∧
  gainOf 0x40000000 = F64.ofBits 0x4000000000000000 ∧
  decode Config.cfgT [0x40000000, 0x3E800000] = .command (.setgainm 0x3E800000) [] ∧
  gainOf 0x3E800000 = F64.ofBits 0x3FD0000000000000 ∧
  decode Config.cfgT [0x53000000] = .command (.getsr .c3) []

/-! ## The step and the stream -/

/-- A step runs the decoded command: when the words at the front of the input are those of one command, the step is the
command's own meaning on the state whose input begins behind them (R9, R23, R98). -/
def Obligations.StepRunsTheDecodedCommand : Prop :=
  ∀ (s : State) (ws : List Word) (i : Instr) (input : List Input),
    legalConfig s.cfg = true → decode s.cfg ws = .command i [] → s.cmd = placeWords ws input →
    step s = exec i (s.withInput input)

/-- A step that meets a reserved header refuses, with the reason (R105, log 5). -/
def Obligations.StepRefusesReservedHeader : Prop :=
  ∀ (s : State) (w : Word) (why : Reserved) (rest : List Input),
    legalConfig s.cfg = true → decodeHeader w = .error why → s.cmd = .word w :: rest →
    step s = .refused (.reservedHeader why)

/-- A command of which only a part has arrived is not started, and neither is one of which nothing has: the waiting
step changes nothing (R106; that waiting is a step that changes nothing is the model's choice, log 7). -/
def Obligations.IncompleteCommandIsNotStarted : Prop :=
  (∀ (s : State) (w : Word) (ws : List Word) (h : Header),
    legalConfig s.cfg = true → decodeHeader w = .ok h → ws.length < payloadLength s.cfg h →
    s.cmd = placeWords (w :: ws) [] → step s = .next s) ∧
  (∀ s : State, legalConfig s.cfg = true → s.cmd = [] → step s = .next s)

/-- The RESET event, also in the middle of a command: every register takes its reset value, the part of a command that
came before it is discarded, the words sent stay sent, and the input behind it is read next (R240). -/
def Obligations.ResetEventRestoresEveryRegister : Prop :=
  ∀ (s : State) (ws : List Word) (rest : List Input),
    legalConfig s.cfg = true → decode s.cfg ws = .incomplete → s.cmd = placeWords ws (.reset :: rest) →
    ∃ t, step s = .next t ∧ (∀ c, AtReset (t.chan c)) ∧ t.mgain = F64.ofBits 0x3FF0000000000000 ∧ t.pullcnt = 0 ∧
      t.rsp = s.rsp ∧ t.cmd = rest ∧ t.cfg = s.cfg

/-- No step ends in a fault, every command has a next state in every state, and what a legal configuration refuses is a
reserved header and nothing else (R210). -/
def Obligations.NoCommandCanFault : Prop :=
  (∀ (s : State) (f : Fault), step s ≠ .fault f) ∧
  (∀ (i : Instr) (s : State), ∃ t, exec i s = .next t) ∧
  (∀ (s : State) (r : Refusal), legalConfig s.cfg = true → step s = .refused r → ∃ why, r = .reservedHeader why)

/-- A step never changes the configuration (R42) and never takes back a word it has sent (R90, R240). -/
def Obligations.StepKeepsConfigurationAndSentWords : Prop :=
  ∀ s t : State, step s = .next t → t.cfg = s.cfg ∧ ∃ ws, t.rsp = s.rsp ++ ws

/-- What arrives later does not change a step that has all it needs: the block sees its input in order and executes
whole commands (R69, R257). -/
def Obligations.LaterInputDoesNotChangeAStep : Prop :=
  ∀ (s t : State) (arrived : List Input),
    fetch s.cfg s.cmd ≠ .wait → step s = .next t → step (s.deliver arrived) = .next (t.deliver arrived)

/-- Running the words of a command list, one step a command, is executing the commands in their order, each on the state
left by all earlier ones (R69). -/
def Obligations.StreamIsSequentiallyConsistent : Prop :=
  ∀ (is : List Instr) (s : State) (rest : List Input),
    legalConfig s.cfg = true → (∀ i ∈ is, i.wellFormed s.cfg = true) →
    Host.Core.run core is.length (s.withInput (placeWords (encodeProgram is) rest)) =
      execAll is (s.withInput rest)

/-- However long it runs, a stream of well-formed commands stops neither in a fault nor in a refusal; behind its last
command the block waits (R210, R256). -/
def Obligations.WellFormedStreamNeverStops : Prop :=
  ∀ (is : List Instr) (s : State) (k : Nat),
    legalConfig s.cfg = true → (∀ i ∈ is, i.wellFormed s.cfg = true) →
    safeRun k (s.withInput (placeWords (encodeProgram is) []))

/-! ## Reset and configuration -/

/-- The values of R44: in the machine's reset state, and in the reset state of every configuration. -/
def Obligations.ResetStateHoldsTheResetValues : Prop :=
  ∀ s : State, (s = State.reset ∨ ∃ cfg : Cfg, s = State.resetWith cfg) →
    (∀ c, AtReset (s.chan c)) ∧ s.mgain = F64.ofBits 0x3FF0000000000000 ∧ s.pullcnt = 0

/-- A step refuses a configuration exactly when it breaks a constraint of R242. That the step is where it is refused, and
every step, is the model's reading (log 4). -/
def Obligations.IllegalConfigurationIsRefused : Prop :=
  ∀ s : State, step s ≠ .refused .illegalConfiguration ↔
    (2 ≤ s.cfg.n ∧
    (∀ c, 1 ≤ s.cfg.bIn.get c ∧ 2 * s.cfg.bIn.get c < s.cfg.n) ∧
    1 ≤ s.cfg.bOut ∧ 1 ≤ s.cfg.w ∧
    (∀ c r r' hz hz', rateHz s.cfg r = some hz → rateHz s.cfg r' = some hz' → r ≠ r' → ∀ n : Int,
      ¬ (bandLow s.cfg c hz ≤ n ∧ n ≤ bandHigh s.cfg c hz ∧ bandLow s.cfg c hz' ≤ n ∧ n ≤ bandHigh s.cfg c hz')) ∧
    (∀ c r hz, rateHz s.cfg r = some hz → 1 ≤ bandLow s.cfg c hz ∧ bandHigh s.cfg c hz < 2 ^ 32 - 1) ∧
    1 ≤ s.cfg.persist ∧
    (s.cfg.kp.isFinite = true ∧ s.cfg.kp.gt F64.zero = true) ∧
    (s.cfg.alpha.gt F64.zero = true ∧ s.cfg.alpha.lt F64.one = true) ∧
    (∀ hz, s.cfg.midRate = some hz → hz ≠ 32000 ∧ hz ≠ 44100 ∧ hz ≠ 48000 ∧ hz ≠ 96000))

/-- The state after reset meets the invariant, under every legal configuration of a ring below 2^53 slots. -/
def Obligations.ResetStateMeetsTheInvariant : Prop :=
  (∀ cfg : Cfg, legalConfig cfg = true → cfg.n < 2 ^ 53 → Inv (State.resetWith cfg)) ∧ Inv State.reset

/-- Every step keeps the invariant, from every state that meets it: canonical storage inside its N slots, samples in
every slot, the ranges of CURSOR, PULLCNT and CANDCNT, integer dates, DRIFT = +0.0 exactly while unlocked and finite and
positive while locked, NOMINAL the factor of RATE. -/
def Obligations.EveryStepKeepsTheInvariant : Prop :=
  ∀ s t : State, Inv s → step s = .next t → Inv t

/-! ## The ring (40_ring_buffer) and the push path (41_push_path) -/

/-- PUSHS: its words, that it completes, and all it does (R142). -/
def Obligations.PushsNetEffect : Prop :=
  ∀ (s : State) (c : Chan) (ps : List WordPair) (k : Nat),
    legalConfig s.cfg = true → RingInv s.cfg (s.chan c).ring → (s.chan c).ring.date = F64.ofInt k →
    k + ps.length ≤ 2 ^ 53 → (Instr.pushs c ps).wellFormed s.cfg = true →
    encode (.pushs c ps) = (0x10000000 + (BitVec.ofNat 32 c.number <<< 24)) :: interleave ps ∧
    (interleave ps).length = 2 * s.cfg.bIn.get c ∧
    ∃ t, exec (.pushs c ps) s = .next t ∧ SameBut c s t ∧
      (∀ j, (h : j < ps.length) → memRead (t.chan c).ring.mem (((s.chan c).ring.cursor + j) % s.cfg.n)
        = ⟨norm24 ps[j].l, norm24 ps[j].r⟩) ∧
      (∀ i, (∀ j < ps.length, i ≠ ((s.chan c).ring.cursor + j) % s.cfg.n) →
        memRead (t.chan c).ring.mem i = memRead (s.chan c).ring.mem i) ∧
      (t.chan c).ring.cursor = ((s.chan c).ring.cursor + s.cfg.bIn.get c) % s.cfg.n ∧
      (t.chan c).ring.date = F64.ofInt (k + s.cfg.bIn.get c : Nat) ∧
      (t.chan c).incount.toNat = min ((s.chan c).incount.toNat + s.cfg.bIn.get c) (2 ^ 32 - 1) ∧
      (t.chan c).rate = (s.chan c).rate ∧ (t.chan c).nominal = (s.chan c).nominal ∧
      (t.chan c).drift = (s.chan c).drift ∧ (t.chan c).outdate = (s.chan c).outdate ∧
      (t.chan c).gain = (s.chan c).gain ∧ (t.chan c).cand = (s.chan c).cand ∧
      (t.chan c).candcnt = (s.chan c).candcnt

/-- After any pushes into a cleared ring, slot (CURSOR - j) mod N holds the sample of date DATE - j for j up to
min(DATE, N), and the other slots hold what they held before (R27, R28). -/
def Obligations.RingHoldsTheLastSamples : Prop :=
  ∀ (cfg : Cfg) (r : Ring) (ps : List WordPair),
    2 ≤ cfg.n → memoryWf r.mem = true → r.cursor = 0 → r.date = F64.zero → ps.length ≤ 2 ^ 53 →
    (ps.foldl (ringPush cfg) r).date = F64.ofInt ps.length ∧
    (∀ j, 1 ≤ j → j ≤ min ps.length cfg.n →
      (ps[ps.length - j]?).map normPair = some (memRead (ps.foldl (ringPush cfg) r).mem
        ((((ps.foldl (ringPush cfg) r).cursor : Int) - j) % cfg.n).toNat)) ∧
    (∀ i < cfg.n, (∀ j : Nat, 1 ≤ j → j ≤ min ps.length cfg.n →
        i ≠ ((((ps.foldl (ringPush cfg) r).cursor : Int) - j) % cfg.n).toNat) →
      memRead (ps.foldl (ringPush cfg) r).mem i = memRead r.mem i)

/-- DATE counts pushes up to 2^53, where it stops while the cursor goes on (R125). -/
def Obligations.DateCountsPushesUpToTheLimit : Prop :=
  ∀ (cfg : Cfg) (r : Ring) (p : WordPair) (k : Nat), r.date = F64.ofInt k →
    (k < 2 ^ 53 → (ringPush cfg r p).date = F64.ofInt (k + 1 : Nat)) ∧
    (k = 2 ^ 53 → (ringPush cfg r p).date = r.date) ∧
    (ringPush cfg r p).cursor = (r.cursor + 1) % cfg.n

/-- RB.PULL: the guard, with both bounds inclusive and DATE - N exact, and in range the two slots, the fraction and the
four operations a lane; the result is finite (R126, R127, R128, R131). -/
def Obligations.RingPullRule : Prop :=
  ∀ (cfg : Cfg) (r : Ring) (d : F64) (m : Nat),
    RingInv cfg r → cfg.n < 2 ^ 53 → m ≤ 2 ^ 53 → r.date = F64.ofInt m →
    (d.isFinite = false → ringPull cfg r d = ⟨F64.zero, F64.zero⟩) ∧
    (d.gt r.date = true → ringPull cfg r d = ⟨F64.zero, F64.zero⟩) ∧
    (d.lt (r.date.sub (F64.ofInt cfg.n)) = true → ringPull cfg r d = ⟨F64.zero, F64.zero⟩) ∧
    r.date.sub (F64.ofInt cfg.n) = F64.ofInt ((m : Int) - cfg.n) ∧
    (d.isFinite = true → d.gt r.date = false → d.lt (r.date.sub (F64.ofInt cfg.n)) = false →
      ∃ (i0 i1 : Nat) (f : F64),
        i0 = (((r.cursor : Int) - ((m : Int) - d.floor)) % cfg.n).toNat ∧ i1 = (i0 + 1) % cfg.n ∧
        i0 < cfg.n ∧ i1 < cfg.n ∧ (m : Int) - cfg.n ≤ d.floor ∧ d.floor ≤ m ∧
        f = d.sub (F64.ofInt d.floor) ∧ f.ge F64.zero = true ∧ f.le F64.one = true ∧
        (ringPull cfg r d).l = ((memRead r.mem i0).l.mul (F64.one.sub f)).add ((memRead r.mem i1).l.mul f) ∧
        (ringPull cfg r d).r = ((memRead r.mem i0).r.mul (F64.one.sub f)).add ((memRead r.mem i1).r.mul f) ∧
        (ringPull cfg r d).l.isFinite = true ∧ (ringPull cfg r d).r.isFinite = true)

/-- A read at an integer date in range gives the content of one slot exactly, whatever the neighbour holds, at the two
inclusive edges and at negative dates too; out of range it gives silence (R126, R127, R129, R130, S1). -/
def Obligations.IntegerDateReadsOneSlot : Prop :=
  ∀ (cfg : Cfg) (r : Ring) (m : Nat) (k : Int),
    RingInv cfg r → cfg.n < 2 ^ 53 → m ≤ 2 ^ 53 → r.date = F64.ofInt m → k.natAbs ≤ 2 ^ 53 →
    ((m : Int) - cfg.n ≤ k ∧ k ≤ m →
      ringPull cfg r (F64.ofInt k) = memRead r.mem (((r.cursor : Int) - ((m : Int) - k)) % cfg.n).toNat) ∧
    (k < (m : Int) - cfg.n ∨ (m : Int) < k → ringPull cfg r (F64.ofInt k) = ⟨F64.zero, F64.zero⟩)

/-- The blend of two stored samples with weight +0.0 is the first; with weight 0.5 it is the exact half sum rounded once
(R129). -/
def Obligations.BlendAtZeroAndAtOneHalf : Prop :=
  ∀ a b : F64, IsSample a → IsSample b →
    blend a b F64.zero = a ∧ (a.units + b.units) % 2 = 0 ∧
    blend a b F64.half = F64.ofUnits false ((a.units + b.units) / 2)

/-- The source's round trip: K pairs pushed into a fresh ring, K below N, are read back exactly at dates 0 .. K-1 (S2,
R27). -/
def Obligations.PushThenPullReturnsTheSample : Prop :=
  ∀ (cfg : Cfg) (ps : List WordPair) (k : Nat), 2 ≤ cfg.n → cfg.n < 2 ^ 53 → ps.length < cfg.n →
    (h : k < ps.length) →
    ringPull cfg (ps.foldl (ringPush cfg) Ring.reset) (F64.ofInt k) = ⟨norm24 ps[k].l, norm24 ps[k].r⟩

/-- RB.CLEAR writes the cursor and the date and nothing else, does nothing to a cleared ring, and leaves dates from -N to
0 in range, where the slots still hold what they held (R121). -/
def Obligations.ClearKeepsTheStorage : Prop :=
  ∀ (cfg : Cfg) (r : Ring), RingInv cfg r → cfg.n < 2 ^ 53 →
    (ringClear r).cursor = 0 ∧ (ringClear r).date = F64.zero ∧ (ringClear r).mem = r.mem ∧
    ringClear (ringClear r) = ringClear r ∧
    (∀ d : F64, d.isFinite = true → d.ge (F64.ofInt (-(cfg.n : Int))) = true → d.le F64.zero = true →
      inRange cfg (ringClear r) d = true) ∧
    (∀ k : Int, -(cfg.n : Int) ≤ k → k ≤ 0 →
      ringPull cfg (ringClear r) (F64.ofInt k) = memRead r.mem (k % cfg.n).toNat)

/-- PUSHS commands of different channels commute: which of two sources comes first makes no difference between the
channels (R60, R70). -/
def Obligations.PushesOfDifferentChannelsCommute : Prop :=
  ∀ (s t u : State) (c d : Chan) (ps qs : List WordPair), c ≠ d →
    exec (.pushs c ps) s = .next t → exec (.pushs d qs) t = .next u →
    ∃ v, exec (.pushs d qs) s = .next v ∧ exec (.pushs c ps) v = .next u

/-- INCOUNT counts up to its limit and stays there, and a count at the limit matches no rate of a legal configuration
(R141); nor does a count of 0 (R153 (b)). -/
def Obligations.SaturatedCountMatchesNothing : Prop :=
  ∀ (cfg : Cfg) (c : Chan) (ch : Channel) (p : WordPair),
    (ch.incount.toNat < 2 ^ 32 - 1 → (pushOne cfg ch p).incount.toNat = ch.incount.toNat + 1) ∧
    (ch.incount.toNat = 2 ^ 32 - 1 → (pushOne cfg ch p).incount = ch.incount) ∧
    (legalConfig cfg = true → classifyRate cfg c (2 ^ 32 - 1) = .nosync ∧ classifyRate cfg c 0 = .nosync)

/-! ## Operands and conversions -/

/-- NORM24: the low 24 bits as a signed integer, converted exactly and divided once by FS; its range, its named values,
and that it is finite and never -0.0 (R122). -/
def Obligations.Norm24Rule : Prop :=
  (∀ w : Word, norm24 w = (F64.ofInt (w.extractLsb' 0 24).toInt).div (F64.ofBits 0x415FFFFFC0000000) ∧
    (F64.ofInt (w.extractLsb' 0 24).toInt).units = (w.extractLsb' 0 24).toInt * F64.one1074 ∧
    (norm24 w).isFinite = true ∧ norm24 w ≠ .fin true 0 0 ∧
    (norm24 w).ge (F64.ofBits 0xBFF0000020000040) = true ∧ (norm24 w).le F64.one = true ∧
    ((w.extractLsb' 0 24).toInt ≠ -8388608 → (norm24 w).ge (F64.ofBits 0xBFF0000000000000) = true)) ∧
  (∀ w v : Word, w.extractLsb' 0 24 = v.extractLsb' 0 24 → norm24 w = norm24 v) ∧
  norm24 0x00000000 = F64.zero ∧ norm24 0x007FFFFF = F64.one ∧
  norm24 0x00800000 = F64.ofBits 0xBFF0000020000040 ∧ norm24 0x00000001 = F64.ofBits 0x3E80000020000040

/-- With all gains 1.0, one channel synchronised and a read at an integer date, every stored sample comes back as its own
24-bit integer: trunc((float(s) / FS) * FS) = s for every s (R189). -/
def Obligations.UnityGainReturnsTheStoredSample : Prop :=
  ∀ (w : Word) (draws : Nat),
    cvt24 (mixLane ((norm24 w).mul F64.one) F64.zero F64.zero F64.one) draws = (wordOfInt (sampleOf w), draws) ∧
    cvt24 (mixLane F64.zero ((norm24 w).mul F64.one) F64.zero F64.one) draws = (wordOfInt (sampleOf w), draws) ∧
    cvt24 (mixLane F64.zero F64.zero ((norm24 w).mul F64.one) F64.one) draws = (wordOfInt (sampleOf w), draws)

/-- CVT24: the three cases that draw, and otherwise the truncation toward zero, which fits 32 bits (R186). -/
def Obligations.Cvt24Rule : Prop :=
  ∀ (y : F64) (draws : Nat),
    ((y.isNaN = true ∨ y.ge (F64.ofBits 0x41E0000000000000) = true ∨ y.le (F64.ofBits 0xC1E0000000200000) = true) →
      cvt24 y draws = (Config.draw32 draws, draws + 1)) ∧
    ((y.isNaN = false ∧ y.ge (F64.ofBits 0x41E0000000000000) = false ∧ y.le (F64.ofBits 0xC1E0000000200000) = false) →
      y.isFinite = true ∧ -2 ^ 31 ≤ y.trunc ∧ y.trunc ≤ 2 ^ 31 - 1 ∧
      cvt24 y draws = (BitVec.ofInt 32 y.trunc, draws) ∧ (BitVec.ofInt 32 y.trunc).toInt = y.trunc ∧
      y.trunc = y.units.tdiv F64.one1074)

/-- widen: the binary64 of exactly the same value, for every binary32 including zeros of either sign, subnormals,
infinities and NaNs (R17, R103). -/
def Obligations.WidenIsExact : Prop :=
  ∀ w : Word,
    ((w.extractLsb' 23 8).toNat = 255 → (w.extractLsb' 0 23).toNat = 0 → F64.widen w = .inf (w.getLsbD 31)) ∧
    ((w.extractLsb' 23 8).toNat = 255 → (w.extractLsb' 0 23).toNat ≠ 0 → F64.widen w = .nan) ∧
    ((w.extractLsb' 23 8).toNat ≠ 255 → (F64.widen w).isFinite = true ∧ (F64.widen w).sign = w.getLsbD 31 ∧
      (F64.widen w).units.natAbs = (if (w.extractLsb' 23 8).toNat = 0 then (w.extractLsb' 0 23).toNat * 2 ^ 925
        else (2 ^ 23 + (w.extractLsb' 0 23).toNat) * 2 ^ ((w.extractLsb' 23 8).toNat - 1 + 925)))

/-! ## The configuration and status commands (45_config_status) -/

/-- SETGAIN: its two words; the register takes the widened operand and nothing else changes; the last value set is kept; it multiplies
from the next tick on, and does nothing while the channel is not synchronised (R200). -/
def Obligations.SetgainEffect : Prop :=
  ∀ (s : State) (c : Chan) (g : Word),
    encode (.setgain c g) = [0x30000000 ||| (BitVec.ofNat 32 c.number <<< 24), g] ∧
    ∃ t, exec (.setgain c g) s = .next t ∧ SameBut c s t ∧
    t.chan c = { s.chan c with gain := F64.widen g } ∧
    (∀ g', exec (.setgain c g') t = exec (.setgain c g') s) ∧
    (synced (s.chan c) = false → contribution t.cfg c (t.chan c) = contribution s.cfg c (s.chan c)) ∧
    (synced (s.chan c) = true → contribution t.cfg c (t.chan c) =
      ⟨(ringPull s.cfg (s.chan c).ring (readDate s.cfg c (s.chan c))).l.mul (F64.widen g),
       (ringPull s.cfg (s.chan c).ring (readDate s.cfg c (s.chan c))).r.mul (F64.widen g)⟩)

/-- SETGAINM: its two words; the register takes the widened operand and nothing else changes; with a master gain of zero the output
words are 0 as long as the sums are finite, and with an infinite or NaN one every output word is drawn (R201). -/
def Obligations.SetgainmEffect : Prop :=
  ∀ (s : State) (g : Word), encode (.setgainm g) = [0x40000000, g] ∧
    ∃ t, exec (.setgainm g) s = .next t ∧ t = { s with mgain := F64.widen g } ∧
    ((F64.widen g).eq F64.zero = true →
      (((contribution s.cfg .c1 (s.chan .c1)).l.add (contribution s.cfg .c2 (s.chan .c2)).l).add
        (contribution s.cfg .c3 (s.chan .c3)).l).isFinite = true →
      (((contribution s.cfg .c1 (s.chan .c1)).r.add (contribution s.cfg .c2 (s.chan .c2)).r).add
        (contribution s.cfg .c3 (s.chan .c3)).r).isFinite = true →
      tickOutput t = (⟨0, 0⟩, s.draws)) ∧
    ((F64.widen g).isFinite = false →
      tickOutput t = (⟨Config.draw32 s.draws, Config.draw32 (s.draws + 1)⟩, s.draws + 2))

/-- GETSR: its word; one response word, the code of RATE[c] in its low bits and zeros above, and no register changes; code 4 only under a
configuration that has a MID_RATE (R97, R104, R202). -/
def Obligations.GetsrEffect : Prop :=
  ∀ (s : State) (c : Chan), encode (.getsr c) = [0x50000000 ||| (BitVec.ofNat 32 c.number <<< 24)] ∧
    ∃ w, exec (.getsr c) s = .next { s with rsp := s.rsp ++ [w] } ∧
    ((s.chan c).rate = .nosync → w = 0x00000000) ∧ ((s.chan c).rate = .sr32000 → w = 0x00000001) ∧
    ((s.chan c).rate = .sr44100 → w = 0x00000002) ∧ ((s.chan c).rate = .sr48000 → w = 0x00000003) ∧
    ((s.chan c).rate = .srmid → w = 0x00000004) ∧ ((s.chan c).rate = .sr96000 → w = 0x00000005) ∧
    (Inv s → w = 0x00000004 → s.cfg.midRate ≠ none)

/-! ## The rate detector (42_rate_detector) -/

/-- CLASSIFY returns a rate exactly when the count lies in that rate's band, edges included, so at most one matches;
NOSYNC exactly when no band holds it (R152, R153, R154). -/
def Obligations.ClassifyFindsTheOneBand : Prop :=
  ∀ (cfg : Cfg) (c : Chan) (n : Nat), legalConfig cfg = true →
    (∀ r hz, rateHz cfg r = some hz → (classifyRate cfg c n = r ↔
      (((cfg.w * hz + 24000) / 48000 : Nat) : Int) - cfg.tol.get c ≤ n ∧
      (n : Int) ≤ (((cfg.w * hz + 24000) / 48000 : Nat) : Int) + cfg.tol.get c)) ∧
    (classifyRate cfg c n = .nosync ↔ ∀ r hz, rateHz cfg r = some hz →
      ¬ ((((cfg.w * hz + 24000) / 48000 : Nat) : Int) - cfg.tol.get c ≤ n ∧
        (n : Int) ≤ (((cfg.w * hz + 24000) / 48000 : Nat) : Int) + cfg.tol.get c))

/-- The boundary counts of R155, for every channel. -/
def Obligations.ClassifyBoundaryCounts : Prop :=
  ∀ c : Chan,
    (∀ n ∈ [1000, 960, 1040], classifyRate { Config.cfgT with w := 1000, tol := ⟨40, 40, 40⟩ } c n = .sr48000) ∧
    classifyRate { Config.cfgT with w := 1000, tol := ⟨40, 40, 40⟩ } c 959 = .sr44100 ∧
    (∀ n ∈ [1041, 878, 0], classifyRate { Config.cfgT with w := 1000, tol := ⟨40, 40, 40⟩ } c n = .nosync) ∧
    (∀ n ∈ [94, 96, 98], classifyRate Config.cfgT c n = .sr48000) ∧
    (∀ n ∈ [86, 90], classifyRate Config.cfgT c n = .sr44100) ∧
    (∀ n ∈ [62, 66], classifyRate Config.cfgT c n = .sr32000) ∧
    (∀ n ∈ [190, 194], classifyRate Config.cfgT c n = .sr96000) ∧
    (∀ n ∈ [93, 99, 85, 91, 0], classifyRate Config.cfgT c n = .nosync)

/-- The window test: in the tick that brings PULLCNT to W every channel becomes DETECT of what the drift adjustment and
the date increment made of it, and PULLCNT becomes 0; in any other tick PULLCNT counts on and no DETECT runs (R150,
R191). Sync loss: in the tick that ends a window, a channel whose count is in no band has RATE, DRIFT, the ring's date and
cursor, OUTDATE, the candidate and INCOUNT all reset together, while GAIN, NOMINAL and the storage keep their values; in
any other tick RATE does not change (R39, R212). -/
def Obligations.SyncLossResetsTogether : Prop :=
  ∀ (s : State) (c : Chan),
    (s.pullcnt + 1 = s.cfg.w → (tickState s).pullcnt = 0 ∧
      (tickState s).chan c = detect s.cfg c (tickChannel s.cfg c (s.chan c))) ∧
    (s.pullcnt + 1 ≠ s.cfg.w → (tickState s).pullcnt = s.pullcnt + 1 ∧
      (tickState s).chan c = tickChannel s.cfg c (s.chan c)) ∧
    (s.pullcnt + 1 = s.cfg.w → classifyRate s.cfg c (s.chan c).incount.toNat = .nosync →
      ((tickState s).chan c).rate = .nosync ∧ ((tickState s).chan c).drift = F64.zero ∧
      ((tickState s).chan c).ring.cursor = 0 ∧ ((tickState s).chan c).ring.date = F64.zero ∧
      ((tickState s).chan c).outdate = F64.zero ∧ ((tickState s).chan c).cand = .nosync ∧
      ((tickState s).chan c).candcnt = 0 ∧ ((tickState s).chan c).incount = 0 ∧
      ((tickState s).chan c).gain = (s.chan c).gain ∧ ((tickState s).chan c).nominal = (s.chan c).nominal ∧
      ((tickState s).chan c).ring.mem = (s.chan c).ring.mem) ∧
    (s.pullcnt + 1 ≠ s.cfg.w → ((tickState s).chan c).rate = (s.chan c).rate)

/-- A match with another rate: a candidate until it has been seen PERSIST times in a row, then a fresh lock, and nothing
else changes (R159). -/
def Obligations.FreshLockRule : Prop :=
  ∀ (cfg : Cfg) (c : Chan) (ch : Channel) (m : Rate) (hz k : Nat),
    rateHz cfg m = some hz → classifyRate cfg c ch.incount.toNat = m → m ≠ ch.rate →
    k = (if m = ch.cand then ch.candcnt + 1 else 1) →
    (k < cfg.persist → detect cfg c ch = { ch with cand := m, candcnt := k, incount := 0 }) ∧
    (cfg.persist ≤ k → detect cfg c ch = { ch with
      rate := m
      nominal := (F64.ofInt hz).div (F64.ofInt 48000)
      drift := (F64.ofInt hz).div (F64.ofInt 48000)
      ring := { ch.ring with cursor := 0, date := F64.zero }
      outdate := F64.zero
      cand := .nosync
      candcnt := 0
      incount := 0 })

/-- A match with the channel's own rate leaves the ring, the dates, NOMINAL and DRIFT alone: only INCOUNT and a pending
candidate change (R158). -/
def Obligations.SameRateKeepsTheChannel : Prop :=
  ∀ (cfg : Cfg) (c : Chan) (ch : Channel), ch.rate ≠ .nosync →
    classifyRate cfg c ch.incount.toNat = ch.rate →
    detect cfg c ch = { ch with cand := .nosync, candcnt := 0, incount := 0 }

/-- From no candidate, consecutive windows that all match the same other rate change nothing but the candidate and
INCOUNT until there have been PERSIST of them, and lock in the PERSIST-th (R159, R161). -/
def Obligations.LockNeedsPersistWindows : Prop :=
  ∀ (cfg : Cfg) (c : Chan) (ch : Channel) (m : Rate) (hz : Nat) (counts : List (BitVec 32)),
    1 ≤ cfg.persist → rateHz cfg m = some hz → m ≠ ch.rate → ch.cand = .nosync → ch.candcnt = 0 →
    (∀ n ∈ counts, classifyRate cfg c n.toNat = m) →
    (counts.length < cfg.persist →
      (counts.foldl (fun x n => detect cfg c { x with incount := n }) ch).rate = ch.rate ∧
      (counts.foldl (fun x n => detect cfg c { x with incount := n }) ch).drift = ch.drift ∧
      (counts.foldl (fun x n => detect cfg c { x with incount := n }) ch).ring = ch.ring ∧
      (counts.foldl (fun x n => detect cfg c { x with incount := n }) ch).outdate = ch.outdate ∧
      (counts.foldl (fun x n => detect cfg c { x with incount := n }) ch).nominal = ch.nominal ∧
      (counts.foldl (fun x n => detect cfg c { x with incount := n }) ch).gain = ch.gain ∧
      (counts ≠ [] → (counts.foldl (fun x n => detect cfg c { x with incount := n }) ch).cand = m) ∧
      (counts.foldl (fun x n => detect cfg c { x with incount := n }) ch).candcnt = counts.length) ∧
    (counts.length = cfg.persist →
      (counts.foldl (fun x n => detect cfg c { x with incount := n }) ch).rate = m ∧
      (counts.foldl (fun x n => detect cfg c { x with incount := n }) ch).nominal = nominalFactor hz ∧
      (counts.foldl (fun x n => detect cfg c { x with incount := n }) ch).drift = nominalFactor hz ∧
      (counts.foldl (fun x n => detect cfg c { x with incount := n }) ch).gain = ch.gain ∧
      (counts.foldl (fun x n => detect cfg c { x with incount := n }) ch).cand = .nosync ∧
      (counts.foldl (fun x n => detect cfg c { x with incount := n }) ch).candcnt = 0)

/-- What DETECT(c) never touches, and that it keeps "synchronised exactly while RATE is not NOSYNC" (R162). MGAIN and
PULLCNT are no arguments of it. -/
def Obligations.DetectNeverTouches : Prop :=
  ∀ (cfg : Cfg) (c : Chan) (ch : Channel),
    (detect cfg c ch).gain = ch.gain ∧ (detect cfg c ch).ring.mem = ch.ring.mem ∧
    (∀ (p : PerChannel Channel) (d : Chan), d ≠ c →
      (detectAll cfg (p.set c ch)).get d = (detectAll cfg p).get d) ∧
    (∀ s : State, (windowTest s).mgain = s.mgain) ∧
    (legalConfig cfg = true → (synced ch = true ↔ ch.rate ≠ .nosync) →
      (synced (detect cfg c ch) = true ↔ (detect cfg c ch).rate ≠ .nosync))

/-- `synced(c)` holds exactly while RATE[c] is not NOSYNC, at reset and after every step; and DRIFT[c] is +0.0 itself
while the channel is not synchronised (R31, R38). -/
def Obligations.SyncedExactlyWhileRated : Prop :=
  (∀ c, synced (State.reset.chan c) = false ∧ (State.reset.chan c).rate = .nosync) ∧
  (∀ s t : State, Inv s → step s = .next t → ∀ c,
    (synced (t.chan c) = true ↔ (t.chan c).rate ≠ .nosync) ∧
    ((t.chan c).rate = .nosync → (t.chan c).drift = F64.zero))

/-! ## The pull path (44_pull_path) -/

/-- PULLS completes in every state: it sends the words of its B_OUT ticks, left before right, the k-th computed from the
state the earlier ones left, and writes no slot and no gain (R96, R185, R193). The two words of a tick are CVT24 of the
mix of the three contributions, lane by lane; which draws a word takes, where CVT24 draws, is left open here (R187,
R188). -/
def Obligations.PullsSendsItsTicks : Prop :=
  encode .pulls = [0x20000000] ∧
  ∀ s : State, ∃ t, exec .pulls s = .next t ∧ t = ticks s.cfg.bOut s ∧
    t.rsp = s.rsp ++ (List.range s.cfg.bOut).flatMap
      (fun k => [(tickOutput (ticks k s)).1.l, (tickOutput (ticks k s)).1.r]) ∧
    t.rsp.length = s.rsp.length + 2 * s.cfg.bOut ∧
    t.cfg = s.cfg ∧ t.cmd = s.cmd ∧ t.mgain = s.mgain ∧
    (∀ c i, memRead (t.chan c).ring.mem i = memRead (s.chan c).ring.mem i) ∧
    (∀ c, (t.chan c).gain = (s.chan c).gain) ∧
    ticks 0 s = s ∧
    (∀ k, ticks (k + 1) s =
      ((tickState (ticks k s)).send (tickOutput (ticks k s)).1.l).send (tickOutput (ticks k s)).1.r) ∧
    (∀ x : Chan → Pair,
      (∀ c, ((s.chan c).drift.eq F64.zero = true → x c = ⟨F64.zero, F64.zero⟩) ∧
        ((s.chan c).drift.eq F64.zero = false → ∀ r,
          r = ((s.chan c).outdate.mul (s.chan c).drift).sub (F64.ofInt (s.cfg.bIn.get c)) →
          x c = ⟨(ringPull s.cfg (s.chan c).ring r).l.mul (s.chan c).gain,
                 (ringPull s.cfg (s.chan c).ring r).r.mul (s.chan c).gain⟩)) →
      (∃ d, (tickOutput s).1.l =
        (cvt24 (((((x .c1).l.add (x .c2).l).add (x .c3).l).mul s.mgain).mul (F64.ofBits 0x415FFFFFC0000000)) d).1) ∧
      (∃ d, (tickOutput s).1.r =
        (cvt24 (((((x .c1).r.add (x .c2).r).add (x .c3).r).mul s.mgain).mul (F64.ofBits 0x415FFFFFC0000000)) d).1))

/-- A PULLS that ends no window: PULLCNT and every OUTDATE rise by B_OUT, synchronised or not, the drift filter of each
synchronised channel runs B_OUT times, and nothing else of a channel changes; in every case PULLCNT is taken modulo W
(R177, R190, R191, R194). -/
def Obligations.PullsInsideAWindow : Prop :=
  ∀ s : State, Inv s → ∃ t, exec .pulls s = .next t ∧ t.pullcnt = (s.pullcnt + s.cfg.bOut) % s.cfg.w ∧
    (s.pullcnt + s.cfg.bOut < s.cfg.w → ∀ c,
      t.chan c = (tickChannel s.cfg c)^[s.cfg.bOut] (s.chan c) ∧
      (∀ j : Nat, (s.chan c).outdate = F64.ofInt j → j + s.cfg.bOut ≤ 2 ^ 53 →
        (t.chan c).outdate = F64.ofInt (j + s.cfg.bOut : Nat)) ∧
      (synced (s.chan c) = false → (t.chan c).drift = (s.chan c).drift) ∧
      (t.chan c).ring = (s.chan c).ring ∧ (t.chan c).rate = (s.chan c).rate ∧
      (t.chan c).nominal = (s.chan c).nominal ∧ (t.chan c).incount = (s.chan c).incount ∧
      (t.chan c).gain = (s.chan c).gain ∧ (t.chan c).cand = (s.chan c).cand ∧
      (t.chan c).candcnt = (s.chan c).candcnt)

/-- Three channels silent: PULLS gives zero words and leaves the block silent, so it does so for ever; from reset, k
PULLS send 8 * k zero words under CFG_T (R185, S7). -/
def Obligations.SilentBlockStaysSilent : Prop :=
  (∀ s : State, ∃ t, exec .pulls s = .next t ∧ t.rsp.length = s.rsp.length + 2 * s.cfg.bOut) ∧
  (∀ s : State, Quiet s → ∃ t, exec .pulls s = .next t ∧ Quiet t ∧
    t.rsp = s.rsp ++ List.replicate (2 * s.cfg.bOut) 0) ∧
  Quiet State.reset ∧
  (∀ k : Nat, ∃ t, Host.Core.run core k (State.reset.withInput (placeWords (List.replicate k 0x20000000) [])) = .next t ∧
    t.rsp = List.replicate (8 * k) 0)

/-- While no channel is locked a tick outputs zeros under any finite master gain, and draws both words under any other
(R192 (a)). -/
def Obligations.UnlockedTickOutputsZero : Prop :=
  ∀ s : State, Inv s → (∀ c, (s.chan c).rate = .nosync) →
    (s.mgain.isFinite = true → tickOutput s = (⟨0x00000000, 0x00000000⟩, s.draws)) ∧
    (s.mgain.isFinite = false →
      tickOutput s = (⟨Config.draw32 s.draws, Config.draw32 (s.draws + 1)⟩, s.draws + 2))

/-- A channel that is not synchronised contributes +0.0 itself: neither its gain nor its ring nor its date can be heard
(R187, D28). -/
def Obligations.SilentChannelIsNotHeard : Prop :=
  ∀ (s : State) (c : Chan) (x : Channel), synced (s.chan c) = false → synced x = false →
    contribution s.cfg c (s.chan c) = ⟨F64.zero, F64.zero⟩ ∧ tickOutput (s.setChan c x) = tickOutput s

/-- With all gains of magnitude at most 1 no output word is drawn and every output word lies within +-25165824 (R189). -/
def Obligations.UnitGainsDrawNothing : Prop :=
  ∀ s t : State, Inv s →
    (∀ c, (s.chan c).gain.ge (F64.ofInt (-1)) = true ∧ (s.chan c).gain.le F64.one = true) →
    s.mgain.ge (F64.ofInt (-1)) = true → s.mgain.le F64.one = true → exec .pulls s = .next t →
    t.draws = s.draws ∧ ∀ w ∈ t.rsp.drop s.rsp.length, -25165824 ≤ w.toInt ∧ w.toInt ≤ 25165824

/-- The four ticks of R197. -/
def Obligations.TickExamples : Prop :=
  (∃ s : State, s = (State.reset.setChan .c1 { Channel.reset with
      ring := { mem := [(14, ⟨norm24 0x0005F000, norm24 0xFFFA1000⟩), (15, ⟨norm24 0x00060000, norm24 0xFFFA0000⟩)],
                cursor := 0, date := F64.zero }
      rate := .sr48000, nominal := F64.one, drift := F64.one }) ∧
    (tickOutput s).1 = ⟨0x0005F000, 0xFFFA1000⟩ ∧ (∀ c, ((tickState s).chan c).outdate = F64.one) ∧
    ((tickState s).chan .c1).drift = F64.one ∧ (tickState s).pullcnt = 1) ∧
  (cvt24 (mixLane ((norm24 0x00400000).mul F64.half) ((norm24 0x00200000).mul (F64.ofInt 2)) F64.zero
      (F64.ofBits 0x3FD0000000000000)) 0).1 = 0x00180000 ∧
  (cvt24 (mixLane ((norm24 0x00C00000).mul F64.half) ((norm24 0x00100000).mul (F64.ofInt 2)) F64.zero
      (F64.ofBits 0x3FD0000000000000)) 0).1 = 0x00000000 ∧
  (cvt24 (mixLane F64.one F64.one F64.one F64.one) 0).1 = 0x017FFFFD ∧
  (cvt24 (mixLane (norm24 0x00800000) (norm24 0x00800000) (norm24 0x00800000) F64.one) 0).1 = 0xFE800000 ∧
  (cvt24 (mixLane (F64.one.mul (F64.widen 0x3DCCCCCD)) F64.zero F64.zero F64.one) 0).1 = 0x000CCCCC

/-! ## The read position and the drift filter (43_drift_filter) -/

/-- The read date of a locked channel is finite, so a tick never reads at a NaN or an infinity (R171). -/
def Obligations.ReadDateOfALockedChannelIsFinite : Prop :=
  ∀ (s : State) (c : Chan), Inv s → (s.chan c).rate ≠ .nosync →
    (readDate s.cfg c (s.chan c)).isFinite = true

/-- At OUTDATE = +0.0 the read date is exactly -float(B_IN[c]), whatever DRIFT[c] (R170). -/
def Obligations.ReadDateStartsOneBurstBack : Prop :=
  ∀ (cfg : Cfg) (c : Chan) (ch : Channel), 1 ≤ cfg.bIn.get c → cfg.bIn.get c ≤ 2 ^ 53 →
    ch.outdate = F64.zero → ch.drift.isFinite = true →
    readDate cfg c ch = F64.ofInt (-(cfg.bIn.get c : Int))

/-- After a lock the first read, at date -B_IN[c], is in range as long as at most N - B_IN[c] pairs have been pushed since,
and returns slot N - B_IN[c], which still holds what it held before the lock (R195, R121). -/
def Obligations.FirstReadAfterLockIsOldContent : Prop :=
  ∀ (cfg : Cfg) (c : Chan) (ch : Channel) (m : Rate) (hz : Nat) (ps : List WordPair),
    legalConfig cfg = true → cfg.n < 2 ^ 53 → RingInv cfg ch.ring → rateHz cfg m = some hz →
    ps.length ≤ cfg.n - cfg.bIn.get c →
    ringPull cfg (pushAll cfg (freshLock m (nominalFactor hz) ch) ps).ring
      (readDate cfg c (pushAll cfg (freshLock m (nominalFactor hz) ch) ps)) =
      memRead ch.ring.mem (cfg.n - cfg.bIn.get c)

/-- The correction of a locked channel is no NaN, and the clamp holds it between half and one and a half times the
nominal factor, both bounds included, changing nothing in between (R175). -/
def Obligations.ClampHoldsTheCorrection : Prop :=
  ∀ (s : State) (c : Chan) (corr : F64), Inv s → (s.chan c).rate ≠ .nosync →
    corr = correction s.cfg c (s.chan c) (readDate s.cfg c (s.chan c)) →
    corr.isNaN = false ∧
    (clampToNominal (s.chan c).nominal corr).ge ((s.chan c).nominal.mul (F64.ofBits 0x3FE0000000000000)) = true ∧
    (clampToNominal (s.chan c).nominal corr).le ((s.chan c).nominal.mul (F64.ofBits 0x3FF8000000000000)) = true ∧
    (corr.ge ((s.chan c).nominal.mul (F64.ofBits 0x3FE0000000000000)) = true →
      corr.le ((s.chan c).nominal.mul (F64.ofBits 0x3FF8000000000000)) = true →
      clampToNominal (s.chan c).nominal corr = corr)

/-- One update of the filter keeps DRIFT[c] within half to one and a half times the nominal factor, up to a relative 2^-50
of rounding (R178). -/
def Obligations.DriftUpdateStaysInBand : Prop :=
  ∀ (s : State) (c : Chan) (lo hi new : F64), Inv s → (s.chan c).rate ≠ .nosync →
    lo = (s.chan c).nominal.mul F64.half → hi = (s.chan c).nominal.mul F64.threeHalves →
    (s.chan c).drift.ge lo = true → (s.chan c).drift.le hi = true →
    new = (driftAdjust s.cfg c (readDate s.cfg c (s.chan c)) (s.chan c)).drift →
    (2 ^ 50 - 1) * lo.units ≤ 2 ^ 50 * new.units ∧ 2 ^ 50 * new.units ≤ (2 ^ 50 + 1) * hi.units

/-- The five examples of R181 (CFG_T). -/
def Obligations.DriftExamples : Prop :=
  ∀ d : F64 → F64 → F64 → F64, d = (fun nom date r => (driftAdjust Config.cfgT .c1 r
      { Channel.reset with nominal := nom, drift := nom, ring := { Ring.reset with date := date } }).drift) →
    d F64.one F64.zero (F64.ofInt (-2)) = F64.one ∧
    d F64.one (F64.ofInt 2) (F64.ofInt (-2)) = F64.ofBits 0x3FF0001000000000 ∧
    d F64.one (F64.ofInt 198) (F64.ofInt (-2)) = F64.ofBits 0x3FF0020000000000 ∧
    d F64.one F64.zero (F64.ofInt 100) = F64.ofBits 0x3FEFFC0000000000 ∧
    d (F64.ofBits 0x3FE5555555555555) (F64.ofInt 2) (F64.ofInt (-2)) = F64.ofBits 0x3FE5556AAAAAAAAB

/-! ## Rules over the whole machine -/

/-- No data crosses channels: what a command does to channel c, and to the window counter, depends on the configuration,
the window counter and channel c alone (R2, R60, R225). -/
def Obligations.ChannelsAreIsolated : Prop :=
  ∀ (i : Instr) (s s' t t' : State) (c : Chan),
    s.cfg = s'.cfg → s.pullcnt = s'.pullcnt → s.chan c = s'.chan c →
    exec i s = .next t → exec i s' = .next t' → t.chan c = t'.chan c ∧ t.pullcnt = t'.pullcnt

/-- Each register changes only by the commands the table of R20 lets write it, or by a RESET: a gain by its own SETGAIN,
the master gain by SETGAINM, the storage by PUSHS of its channel, cursor, date and input counter by that PUSHS or by
PULLS, everything else by PULLS (R20, R193). -/
def Obligations.RegistersChangeOnlyByTheirCommands : Prop :=
  ∀ (s t : State) (c : Chan), step s = .next t → (∀ rest, fetch s.cfg s.cmd ≠ .reset rest) →
    ((t.chan c).gain ≠ (s.chan c).gain → ∃ g rest, fetch s.cfg s.cmd = .command (.setgain c g) rest) ∧
    (t.mgain ≠ s.mgain → ∃ g rest, fetch s.cfg s.cmd = .command (.setgainm g) rest) ∧
    ((t.chan c).ring.mem ≠ (s.chan c).ring.mem → ∃ ps rest, fetch s.cfg s.cmd = .command (.pushs c ps) rest) ∧
    (((t.chan c).ring.cursor ≠ (s.chan c).ring.cursor ∨ (t.chan c).ring.date ≠ (s.chan c).ring.date ∨
        (t.chan c).incount ≠ (s.chan c).incount) →
      (∃ ps rest, fetch s.cfg s.cmd = .command (.pushs c ps) rest) ∨
      ∃ rest, fetch s.cfg s.cmd = .command .pulls rest) ∧
    (((t.chan c).rate ≠ (s.chan c).rate ∨ (t.chan c).nominal ≠ (s.chan c).nominal ∨
        (t.chan c).drift ≠ (s.chan c).drift ∨ (t.chan c).outdate ≠ (s.chan c).outdate ∨
        (t.chan c).cand ≠ (s.chan c).cand ∨ (t.chan c).candcnt ≠ (s.chan c).candcnt ∨ t.pullcnt ≠ s.pullcnt) →
      ∃ rest, fetch s.cfg s.cmd = .command .pulls rest)

/-- What one tick does to a channel before the window test: of a synchronised channel it replaces DRIFT by the moving
average of the old value and the clamped correction, both taken at the read date of the state before the tick; it adds
1.0 to the date of every channel; it changes nothing else (R172, R173, R174, R175, R176, R177, R190). -/
def Obligations.TickFiltersASynchronisedChannel : Prop :=
  ∀ (cfg : Cfg) (c : Chan) (x : Channel),
    (x.drift.eq F64.zero = true → tickChannel cfg c x = { x with outdate := x.outdate.add F64.one }) ∧
    (∀ r age tgt err corr lo hi low clamped : F64, x.drift.eq F64.zero = false →
      r = (x.outdate.mul x.drift).sub (F64.ofInt (cfg.bIn.get c)) →
      age = x.ring.date.sub r → tgt = F64.ofInt (cfg.bIn.get c) → err = (age.sub tgt).div tgt →
      corr = x.nominal.mul (F64.one.add (err.mul cfg.kp)) →
      lo = x.nominal.mul (F64.ofBits 0x3FE0000000000000) → hi = x.nominal.mul (F64.ofBits 0x3FF8000000000000) →
      low = (if corr.lt lo then lo else corr) → clamped = (if low.gt hi then hi else low) →
      tickChannel cfg c x = { x with
        drift := (x.drift.mul (F64.one.sub cfg.alpha)).add (clamped.mul cfg.alpha)
        outdate := x.outdate.add F64.one })

end Statements
end

