-- ==== Sys2Proof/Laws/Ieee.lean ====
section
/-!
SUPPORT. What the rounding of Machine/Ieee.lean does, said once: it is exact on every representable value, it never
crosses one (`round_le`, `le_round`), and the integers up to 2^53 and their fractions are representable.
-/

namespace Sys2Proof

/-! ## The magnitude a 63-bit pattern stands for -/

/-- The magnitude, in units of 2^-1074, of the datum whose low 63 bits are `m` (beyond the pattern of infinity too). -/
def F64.magnitudeOfBits (m : Nat) : Nat :=
  if m / 2 ^ 52 = 0 then m % 2 ^ 52 else (2 ^ 52 + m % 2 ^ 52) * 2 ^ (m / 2 ^ 52 - 1)

/-- The low 63 bits of a finite datum. -/
def F64.bits63 (e : Fin 2047) (f : BitVec 52) : Nat := e.val * 2 ^ 52 + f.toNat

theorem F64.bits63_div (e : Fin 2047) (f : BitVec 52) : F64.bits63 e f / 2 ^ 52 = e.val := by
  have := f.isLt
  unfold F64.bits63; omega

theorem F64.bits63_mod (e : Fin 2047) (f : BitVec 52) : F64.bits63 e f % 2 ^ 52 = f.toNat := by
  have := f.isLt
  unfold F64.bits63; omega

theorem F64.bits63_lt (e : Fin 2047) (f : BitVec 52) : F64.bits63 e f < 2047 * 2 ^ 52 := by
  have := f.isLt
  have := e.isLt
  unfold F64.bits63; omega

theorem F64.magnitude_eq (e : Fin 2047) (f : BitVec 52) :
    F64.magnitude e f = F64.magnitudeOfBits (F64.bits63 e f) := by
  unfold F64.magnitudeOfBits F64.magnitude F64.significand
  rw [F64.bits63_div, F64.bits63_mod]
  by_cases h : e.val = 0 <;> simp [h]

theorem F64.ofMagnitudeBits_bits63 (s : Bool) (e : Fin 2047) (f : BitVec 52) :
    F64.ofMagnitudeBits s (F64.bits63 e f) = .fin s e f := by
  unfold F64.ofMagnitudeBits
  rw [dif_pos (F64.bits63_lt e f)]
  have h1 : (⟨F64.bits63 e f / 2 ^ 52, by have := F64.bits63_lt e f; omega⟩ : Fin 2047) = e :=
    Fin.ext (F64.bits63_div e f)
  have h2 : BitVec.ofNat 52 (F64.bits63 e f) = f := by
    apply BitVec.eq_of_toNat_eq
    rw [BitVec.toNat_ofNat]
    exact F64.bits63_mod e f
  rw [h1, h2]

theorem F64.bits63_mk {a m : Nat} (h : a < 2047) (ha : m / 2 ^ 52 = a) :
    F64.bits63 ⟨a, h⟩ (BitVec.ofNat 52 m) = m := by
  unfold F64.bits63
  rw [BitVec.toNat_ofNat]
  dsimp only
  omega

/-- A pattern below that of infinity is a finite datum of that magnitude. -/
theorem F64.ofMagnitudeBits_fin (s : Bool) {m : Nat} (h : m < 2047 * 2 ^ 52) :
    ∃ e f, F64.ofMagnitudeBits s m = .fin s e f ∧ F64.bits63 e f = m := by
  refine ⟨_, _, ?_, F64.bits63_mk (a := m / 2 ^ 52) (by omega) rfl⟩
  unfold F64.ofMagnitudeBits; rw [dif_pos h]

theorem F64.ofMagnitudeBits_inf (s : Bool) {m : Nat} (h : 2047 * 2 ^ 52 ≤ m) :
    F64.ofMagnitudeBits s m = .inf s := by
  unfold F64.ofMagnitudeBits; rw [dif_neg (by omega)]

/-- A pattern written as exponent step `k` and significand `r`, the carry to 2^53 included. -/
theorem F64.magnitudeOfBits_normal (k r : Nat) (h1 : 2 ^ 52 ≤ r) (h2 : r ≤ 2 ^ 53) :
    F64.magnitudeOfBits (k * 2 ^ 52 + r) = r * 2 ^ k := by
  unfold F64.magnitudeOfBits
  rcases Nat.lt_or_ge r (2 ^ 53) with h | h
  · have e1 : (k * 2 ^ 52 + r) / 2 ^ 52 = k + 1 := by omega
    have e2 : (k * 2 ^ 52 + r) % 2 ^ 52 = r - 2 ^ 52 := by omega
    rw [e1, e2, if_neg (by omega)]
    have e3 : 2 ^ 52 + (r - 2 ^ 52) = r := by omega
    rw [e3, Nat.add_sub_cancel]
  · have e0 : r = 2 ^ 53 := by omega
    have e1 : (k * 2 ^ 52 + r) / 2 ^ 52 = k + 2 := by omega
    have e2 : (k * 2 ^ 52 + r) % 2 ^ 52 = 0 := by omega
    rw [e1, e2, if_neg (by omega), e0]
    have : k + 2 - 1 = k + 1 := by omega
    rw [this, Nat.pow_succ]; ring

theorem F64.magnitudeOfBits_small {r : Nat} (h : r ≤ 2 ^ 53) : F64.magnitudeOfBits r = r := by
  rcases Nat.lt_or_ge r (2 ^ 52) with h1 | h1
  · unfold F64.magnitudeOfBits
    rw [if_pos (by omega)]; omega
  · have := F64.magnitudeOfBits_normal 0 r h1 h
    simpa using this

/-- Every pattern is small or is written as exponent step and significand. -/
theorem F64.bits_cases (m : Nat) :
    (m < 2 ^ 52) ∨ ∃ k r, m = k * 2 ^ 52 + r ∧ 2 ^ 52 ≤ r ∧ r < 2 ^ 53 :=
  if h : m < 2 ^ 52 then .inl h
  else .inr ⟨m / 2 ^ 52 - 1, 2 ^ 52 + m % 2 ^ 52, by omega, by omega, by omega⟩

theorem F64.magnitudeOfBits_lt_succ (m : Nat) : F64.magnitudeOfBits m < F64.magnitudeOfBits (m + 1) := by
  rcases F64.bits_cases m with h | ⟨k, r, rfl, h1, h2⟩
  · rw [F64.magnitudeOfBits_small (by omega), F64.magnitudeOfBits_small (by omega)]; omega
  · rw [F64.magnitudeOfBits_normal k r h1 (by omega), Nat.add_assoc,
      F64.magnitudeOfBits_normal k (r + 1) (by omega) (by omega)]
    exact Nat.mul_lt_mul_of_pos_right (by omega) (by positivity)

theorem F64.magnitudeOfBits_strictMono : StrictMono F64.magnitudeOfBits :=
  strictMono_nat_of_lt_succ F64.magnitudeOfBits_lt_succ

theorem F64.magnitudeOfBits_le {a b : Nat} : F64.magnitudeOfBits a ≤ F64.magnitudeOfBits b ↔ a ≤ b :=
  F64.magnitudeOfBits_strictMono.le_iff_le

theorem F64.magnitudeOfBits_inj {a b : Nat} : F64.magnitudeOfBits a = F64.magnitudeOfBits b ↔ a = b :=
  F64.magnitudeOfBits_strictMono.injective.eq_iff

/-- Two finite data of one sign and one magnitude are the same datum. -/
theorem F64.magnitude_inj {e e' : Fin 2047} {f f' : BitVec 52} (h : F64.magnitude e f = F64.magnitude e' f') :
    e = e' ∧ f = f' := by
  rw [F64.magnitude_eq, F64.magnitude_eq, F64.magnitudeOfBits_inj] at h
  have h1 := F64.bits63_div e f
  have h2 := F64.bits63_mod e f
  rw [h, F64.bits63_div] at h1
  rw [h, F64.bits63_mod] at h2
  exact ⟨Fin.ext h1.symm, BitVec.eq_of_toNat_eq h2.symm⟩

/-! ## Rounding -/

theorem F64.roundHalfEven_ge (num den : Nat) : num / den ≤ F64.roundHalfEven num den := by
  unfold F64.roundHalfEven; split <;> omega

theorem F64.roundHalfEven_le_succ (num den : Nat) : F64.roundHalfEven num den ≤ num / den + 1 := by
  unfold F64.roundHalfEven; split <;> omega

/-- An integer at or above the quotient is at or above the rounded quotient. -/
theorem F64.roundHalfEven_le {num den x : Nat} (hd : 0 < den) (h : num ≤ x * den) :
    F64.roundHalfEven num den ≤ x := by
  rcases Nat.eq_or_lt_of_le h with h | h
  · subst h
    unfold F64.roundHalfEven
    rw [Nat.mul_mod_left, Nat.mul_div_cancel _ hd, if_neg (by omega)]
  · have : num / den < x := (Nat.div_lt_iff_lt_mul hd).2 h
    have := F64.roundHalfEven_le_succ num den
    omega

theorem F64.droppedBits_zero {q : Nat} (h : F64.droppedBits q = 0) : q < 2 ^ 53 := by
  unfold F64.droppedBits at h
  rcases Nat.eq_zero_or_pos q with rfl | hq
  · norm_num
  · have h1 : q < 2 ^ (Nat.log2 q + 1) := Nat.lt_log2_self
    exact lt_of_lt_of_le h1 (Nat.pow_le_pow_right (by omega) (by omega))

theorem F64.droppedBits_pos {q : Nat} (h : F64.droppedBits q ≠ 0) :
    2 ^ 52 * 2 ^ F64.droppedBits q ≤ q ∧ q < 2 ^ 53 * 2 ^ F64.droppedBits q := by
  unfold F64.droppedBits at *
  have hq : q ≠ 0 := by rintro rfl; simp at h
  have h1 := Nat.log2_self_le hq
  have h2 : q < 2 ^ (Nat.log2 q + 1) := Nat.lt_log2_self
  rw [← pow_add, ← pow_add]
  have e1 : 52 + (q.log2 - 52) = q.log2 := by omega
  have e2 : 53 + (q.log2 - 52) = q.log2 + 1 := by omega
  rw [e1, e2]; exact ⟨h1, h2⟩

/-- Rounding up never crosses a representable magnitude. -/
theorem F64.roundBits_le {num den m : Nat} (hd : 0 < den) (h : num ≤ F64.magnitudeOfBits m * den) :
    F64.roundBits num den ≤ m := by
  unfold F64.roundBits
  have hq : num / den ≤ F64.magnitudeOfBits m := Nat.div_le_of_le_mul (by rwa [Nat.mul_comm])
  by_cases hk : F64.droppedBits (num / den) = 0
  · have h53 := F64.droppedBits_zero hk
    rw [hk]; simp only [pow_zero, Nat.mul_one, Nat.zero_mul, Nat.zero_add]
    rcases Nat.lt_or_ge m (2 ^ 53) with hm | hm
    · exact F64.roundHalfEven_le hd (by rwa [F64.magnitudeOfBits_small (by omega)] at h)
    · have := F64.roundHalfEven_le_succ num den
      omega
  · obtain ⟨hlo, hhi⟩ := F64.droppedBits_pos hk
    generalize F64.droppedBits (num / den) = k at *
    have hD : 0 < den * 2 ^ k := by positivity
    rcases F64.bits_cases m with hm | ⟨j, r, rfl, h1, h2⟩
    · rw [F64.magnitudeOfBits_small (by omega)] at hq
      have : 1 ≤ 2 ^ k := Nat.one_le_two_pow
      nlinarith
    · rw [F64.magnitudeOfBits_normal j r h1 (by omega)] at h hq
      rcases Nat.lt_trichotomy j k with hj | rfl | hj
      · have hp : 2 ^ (j + 1) ≤ 2 ^ k := Nat.pow_le_pow_right (by omega) hj
        rw [pow_succ] at hp
        have : 0 < 2 ^ j := by positivity
        nlinarith
      · have : F64.roundHalfEven num (den * 2 ^ j) ≤ r := F64.roundHalfEven_le hD (by nlinarith)
        omega
      · have : F64.roundHalfEven num (den * 2 ^ k) ≤ 2 ^ 53 := by
          apply F64.roundHalfEven_le hD
          have : num < (num / den + 1) * den := by
            have := Nat.lt_div_mul_add hd (a := num); nlinarith
          nlinarith
        have : (k + 1) * 2 ^ 52 ≤ j * 2 ^ 52 := Nat.mul_le_mul_right _ hj
        omega

/-- Rounding down never crosses a representable magnitude. -/
theorem F64.le_roundBits {num den m : Nat} (hd : 0 < den) (h : F64.magnitudeOfBits m * den ≤ num) :
    m ≤ F64.roundBits num den := by
  unfold F64.roundBits
  have hq : F64.magnitudeOfBits m ≤ num / den := (Nat.le_div_iff_mul_le hd).2 h
  by_cases hk : F64.droppedBits (num / den) = 0
  · have h53 := F64.droppedBits_zero hk
    rw [hk]; simp only [pow_zero, Nat.mul_one, Nat.zero_mul, Nat.zero_add]
    have hR := F64.roundHalfEven_ge num den
    rcases Nat.lt_or_ge m (2 ^ 53) with hm | hm
    · rw [F64.magnitudeOfBits_small (by omega)] at hq; omega
    · have := F64.magnitudeOfBits_le.2 hm
      rw [F64.magnitudeOfBits_small (le_refl _)] at this
      omega
  · obtain ⟨hlo, hhi⟩ := F64.droppedBits_pos hk
    have hR := F64.roundHalfEven_ge num (den * 2 ^ F64.droppedBits (num / den))
    rw [← Nat.div_div_eq_div_mul] at hR
    generalize num / den = q at *
    generalize F64.droppedBits q = k at *
    have hP : 0 < 2 ^ k := by positivity
    have hQ : 2 ^ 52 ≤ q / 2 ^ k := (Nat.le_div_iff_mul_le hP).2 hlo
    rcases F64.bits_cases m with hm | ⟨j, r, rfl, h1, h2⟩
    · have := Nat.zero_le (k * 2 ^ 52)
      omega
    · rw [F64.magnitudeOfBits_normal j r h1 (by omega)] at hq
      rcases Nat.lt_trichotomy j k with hj | rfl | hj
      · have : (j + 1) * 2 ^ 52 ≤ k * 2 ^ 52 := Nat.mul_le_mul_right _ hj
        omega
      · have : r ≤ q / 2 ^ j := (Nat.le_div_iff_mul_le hP).2 hq
        omega
      · have hp : 2 ^ (k + 1) ≤ 2 ^ j := Nat.pow_le_pow_right (by omega) hj
        rw [pow_succ] at hp
        nlinarith

/-- A representable magnitude is rounded to itself. -/
theorem F64.roundBits_exact {num den m : Nat} (hd : 0 < den) (h : num = F64.magnitudeOfBits m * den) :
    F64.roundBits num den = m :=
  Nat.le_antisymm (F64.roundBits_le hd (le_of_eq h)) (F64.le_roundBits hd (le_of_eq h.symm))

/-- Rounding is monotone in the exact quotient. -/
theorem F64.roundHalfEven_mono {n d n' d' : Nat} (hd : 0 < d) (hd' : 0 < d') (h : n * d' ≤ n' * d) :
    F64.roundHalfEven n d ≤ F64.roundHalfEven n' d' := by
  have q1 := Nat.div_add_mod n d
  have q2 := Nat.div_add_mod n' d'
  have r1 := Nat.mod_lt n hd
  have r2 := Nat.mod_lt n' hd'
  have hq : n / d ≤ n' / d' := by
    rw [Nat.le_div_iff_mul_le hd']
    by_contra hc
    push Not at hc
    have : n / d * d ≤ n := Nat.div_mul_le_self n d
    nlinarith
  rcases Nat.eq_or_lt_of_le hq with hq | hq
  · unfold F64.roundHalfEven
    rw [← hq]
    have key : n % d * d' ≤ n' % d' * d := by
      rw [← hq] at q2
      generalize n % d = a at *
      generalize n' % d' = b at *
      generalize n / d = q at *
      subst q1 q2
      nlinarith
    split
    · rename_i hc
      split
      · exact le_refl _
      · rename_i hc'
        exfalso
        push Not at hc'
        obtain ⟨hc1, hc2⟩ := hc'
        rcases hc with hc | ⟨hc, hodd⟩
        · nlinarith
        · rcases Nat.eq_or_lt_of_le hc1 with h' | h'
          · exact hc2 h' hodd
          · nlinarith
    · split <;> omega
  · have := F64.roundHalfEven_le_succ n d
    have := F64.roundHalfEven_ge n' d'
    omega

end Sys2Proof
end

