-- ==== Sys2Proof/Laws/IeeeRat.lean ====
section
/-!
SUPPORT. The finite data as rational numbers: what each operation of Machine/Ieee.lean does to the values, said once.
An operation's result lies between any two data between which the exact result lies, and is exact where that is a
datum's value.
-/

namespace Sys2Proof

/-- The value of a finite datum (0 for the others, of which no lemma speaks). -/
def F64.toRat (x : F64) : ℚ := (x.units : ℚ) / (F64.one1074 : ℚ)

/-! ## Signed magnitudes -/

/-- A magnitude with a sign. -/
def F64.signed (s : Bool) (n : Nat) : Int := if s then -(n : Int) else n

theorem F64.units_fin (s : Bool) (e : Fin 2047) (f : BitVec 52) :
    (F64.fin s e f).units = F64.signed s (F64.magnitude e f) := by
  cases s <;> rfl

theorem F64.signed_mul (s t : Bool) (a b : Nat) :
    F64.signed s a * F64.signed t b = F64.signed (s != t) (a * b) := by
  cases s <;> cases t <;> simp [F64.signed]

theorem F64.signed_natAbs (u : Int) : F64.signed (decide (u < 0)) u.natAbs = u := by
  unfold F64.signed
  by_cases h : u < 0
  · simp only [h, decide_true, if_true]; omega
  · simp only [h, decide_false, Bool.false_eq_true, if_false]; omega

theorem F64.magnitude_zero : F64.magnitude 0 0 = 0 := by
  rw [F64.magnitude_eq]; decide

theorem F64.finite_cases {x : F64} (h : x.isFinite = true) : ∃ s e f, x = .fin s e f := by
  cases x with
  | nan => simp [F64.isFinite] at h
  | inf s => simp [F64.isFinite] at h
  | fin s e f => exact ⟨s, e, f, rfl⟩

@[simp] theorem F64.isFinite_fin (s : Bool) (e : Fin 2047) (f : BitVec 52) : (F64.fin s e f).isFinite = true := rfl

/-! ## The rounding, between any two data -/

theorem F64.neg_isFinite {x : F64} : x.neg.isFinite = x.isFinite := by cases x <;> rfl

theorem F64.neg_units (x : F64) : x.neg.units = -x.units := by
  cases x with
  | nan => rfl
  | inf s => rfl
  | fin s e f => cases s <;> simp [F64.neg, F64.units]

theorem F64.one1074_eq : F64.one1074 = 2 ^ 1074 := by unfold F64.one1074; rfl

theorem F64.one1074_pos : (0 : Int) < (F64.one1074 : Int) := by
  rw [F64.one1074_eq]; positivity

/-- A datum that is not negative has the magnitude of some pattern. -/
theorem F64.exists_bits_of_nonneg {x : F64} (hx : x.isFinite = true) (h : 0 ≤ x.units) :
    ∃ m, m < 2047 * 2 ^ 52 ∧ (F64.magnitudeOfBits m : Int) = x.units := by
  obtain ⟨s, e, f, rfl⟩ := F64.finite_cases hx
  rw [F64.units_fin] at *
  cases s
  · exact ⟨_, F64.bits63_lt e f, by rw [← F64.magnitude_eq]; rfl⟩
  · refine ⟨0, by norm_num, ?_⟩
    rw [F64.magnitudeOfBits_small (by norm_num)]
    simp only [F64.signed, if_true] at *
    omega

/-- The magnitude of a rounded value lies between any two magnitudes between which the exact value lies. -/
theorem F64.round_magnitude (s : Bool) {num den m b : Nat} (hd : 0 < den) (hm : m < 2047 * 2 ^ 52)
    (hle : num ≤ F64.magnitudeOfBits m * den) (hge : F64.magnitudeOfBits b * den ≤ num) :
    ∃ e f, F64.round s num den = .fin s e f ∧ F64.magnitude e f ≤ F64.magnitudeOfBits m ∧
      F64.magnitudeOfBits b ≤ F64.magnitude e f := by
  have hb := F64.roundBits_le hd hle
  obtain ⟨e, f, he, hbits⟩ := F64.ofMagnitudeBits_fin s (lt_of_le_of_lt hb hm)
  refine ⟨e, f, he, ?_, ?_⟩
  · rw [F64.magnitude_eq, hbits]; exact F64.magnitudeOfBits_le.2 hb
  · rw [F64.magnitude_eq, hbits]; exact F64.magnitudeOfBits_le.2 (F64.le_roundBits hd hge)

/-- The rounded value of a quotient that is not negative lies between any two data between which it lies. -/
theorem F64.round_between_nonneg {num den : Nat} (hd : 0 < den) {lo hi : F64}
    (hlo : lo.isFinite = true) (hhi : hi.isFinite = true)
    (h1 : lo.units * den ≤ num) (h2 : (num : Int) ≤ hi.units * den) :
    ∃ e f, (∀ s, F64.round s num den = .fin s e f) ∧
      lo.units ≤ F64.magnitude e f ∧ (F64.magnitude e f : Int) ≤ hi.units := by
  have hdz : (0 : Int) < den := by exact_mod_cast hd
  have hh0 : 0 ≤ hi.units := by
    by_contra hc
    have : (0 : Int) ≤ num := by positivity
    nlinarith
  obtain ⟨m, hm, hmu⟩ := F64.exists_bits_of_nonneg hhi hh0
  have hz : F64.magnitudeOfBits 0 = 0 := F64.magnitudeOfBits_small (by norm_num)
  have hlow : ∃ b, lo.units ≤ (F64.magnitudeOfBits b : Int) ∧ F64.magnitudeOfBits b * den ≤ num := by
    by_cases hl : 0 ≤ lo.units
    · obtain ⟨b, -, hbu⟩ := F64.exists_bits_of_nonneg hlo hl
      exact ⟨b, le_of_eq hbu.symm, by rw [← hbu] at h1; exact_mod_cast h1⟩
    · exact ⟨0, by rw [hz]; push_cast; omega, by rw [hz]; simp⟩
  obtain ⟨b, hb1, hb2⟩ := hlow
  have hle : num ≤ F64.magnitudeOfBits m * den := by rw [← hmu] at h2; exact_mod_cast h2
  have hmag : ∀ s, ∃ e f, F64.round s num den = .fin s e f ∧ F64.bits63 e f = F64.roundBits num den :=
    fun s => F64.ofMagnitudeBits_fin s (lt_of_le_of_lt (F64.roundBits_le hd hle) hm)
  obtain ⟨e, f, he, hu, hv⟩ := F64.round_magnitude false hd hm hle hb2
  refine ⟨e, f, fun s => ?_, ?_, ?_⟩
  · obtain ⟨e1, f1, h1', hb1'⟩ := hmag s
    obtain ⟨e2, f2, h2', hb2'⟩ := hmag false
    rw [he] at h2'
    obtain ⟨rfl, rfl⟩ : e = e2 ∧ f = f2 := by injection h2' with _ a b; exact ⟨a, b⟩
    have : F64.magnitude e1 f1 = F64.magnitude e f := by
      rw [F64.magnitude_eq, F64.magnitude_eq, hb1', hb2']
    obtain ⟨rfl, rfl⟩ := F64.magnitude_inj this
    exact h1'
  · omega
  · rw [← hmu]; exact_mod_cast hu

/-- The rounded value lies between any two data between which the exact value lies. -/
theorem F64.round_between (s : Bool) {num den : Nat} (hd : 0 < den) {lo hi : F64}
    (hlo : lo.isFinite = true) (hhi : hi.isFinite = true)
    (h1 : lo.units * den ≤ F64.signed s num) (h2 : F64.signed s num ≤ hi.units * den) :
    ∃ e f, F64.round s num den = .fin s e f ∧
      lo.units ≤ (F64.fin s e f).units ∧ (F64.fin s e f).units ≤ hi.units := by
  cases s
  · obtain ⟨e, f, he, ha, hb⟩ := F64.round_between_nonneg hd hlo hhi h1 h2
    exact ⟨e, f, he false, ha, hb⟩
  · have e1 : F64.signed true num = -(num : Int) := rfl
    rw [e1] at h1 h2
    obtain ⟨e, f, he, ha, hb⟩ := F64.round_between_nonneg (num := num) hd (lo := hi.neg) (hi := lo.neg)
      (by rwa [F64.neg_isFinite]) (by rwa [F64.neg_isFinite])
      (by rw [F64.neg_units]; linarith) (by rw [F64.neg_units]; linarith)
    rw [F64.neg_units] at ha hb
    refine ⟨e, f, he true, ?_, ?_⟩
    · show lo.units ≤ -(F64.magnitude e f : Int); omega
    · show -(F64.magnitude e f : Int) ≤ hi.units; omega

theorem F64.ofUnits_between (b : Bool) {u : Int} {lo hi : F64} (hlo : lo.isFinite = true) (hhi : hi.isFinite = true)
    (h1 : lo.units ≤ u) (h2 : u ≤ hi.units) :
    (F64.ofUnits b u).isFinite = true ∧ lo.units ≤ (F64.ofUnits b u).units ∧
      (F64.ofUnits b u).units ≤ hi.units := by
  unfold F64.ofUnits
  by_cases hu : u = 0
  · rw [if_pos hu, F64.units_fin, F64.magnitude_zero]
    cases b <;> simp [F64.signed, F64.isFinite] <;> omega
  · rw [if_neg hu]
    obtain ⟨e, f, he, ha, hb⟩ := F64.round_between (decide (u < 0)) (num := u.natAbs) (den := 1) (by norm_num)
      hlo hhi (by rw [F64.signed_natAbs]; simpa using h1) (by rw [F64.signed_natAbs]; simpa using h2)
    rw [he]; exact ⟨rfl, ha, hb⟩

/-! ## The operations on units -/

theorem F64.add_eq {x y : F64} (hx : x.isFinite = true) (hy : y.isFinite = true) :
    x.add y = F64.ofUnits (x.sign && y.sign) (x.units + y.units) := by
  obtain ⟨s, e, f, rfl⟩ := F64.finite_cases hx
  obtain ⟨t, e', f', rfl⟩ := F64.finite_cases hy
  rfl

/-! ## The operations on values -/

theorem F64.scale_pos : (0 : ℚ) < (F64.one1074 : ℚ) := by
  have := F64.one1074_pos
  exact_mod_cast this

theorem F64.units_le_iff {x y : F64} : x.units ≤ y.units ↔ x.toRat ≤ y.toRat := by
  unfold F64.toRat
  rw [div_le_div_iff_of_pos_right F64.scale_pos]
  exact_mod_cast Iff.rfl

theorem F64.units_lt_iff {x y : F64} : x.units < y.units ↔ x.toRat < y.toRat := by
  unfold F64.toRat
  rw [div_lt_div_iff_of_pos_right F64.scale_pos]
  exact_mod_cast Iff.rfl

theorem F64.units_eq_iff {x y : F64} : x.units = y.units ↔ x.toRat = y.toRat := by
  rw [le_antisymm_iff, F64.units_le_iff, F64.units_le_iff, ← le_antisymm_iff]

theorem F64.units_eq_toRat (x : F64) : (x.units : ℚ) = x.toRat * (F64.one1074 : ℚ) := by
  unfold F64.toRat; rw [div_mul_cancel₀ _ (ne_of_gt F64.scale_pos)]

theorem F64.toRat_neg (x : F64) : x.neg.toRat = -x.toRat := by
  unfold F64.toRat; rw [F64.neg_units]; push_cast; ring

/-- Two finite data of one non-zero value are the same datum. -/
theorem F64.eq_of_toRat {x y : F64} (hx : x.isFinite = true) (hy : y.isFinite = true)
    (h : x.toRat = y.toRat) (h0 : x.toRat ≠ 0) : x = y := by
  have hu := F64.units_eq_iff.2 h
  have hz : x.units ≠ 0 := by
    intro hz; apply h0; unfold F64.toRat; rw [hz]; simp
  obtain ⟨s, e, f, rfl⟩ := F64.finite_cases hx
  obtain ⟨t, e', f', rfl⟩ := F64.finite_cases hy
  rw [F64.units_fin, F64.units_fin] at hu
  rw [F64.units_fin] at hz
  have hst : s = t := by
    cases s <;> cases t <;> simp [F64.signed] at hu hz ⊢ <;> omega
  subst hst
  have hm : F64.magnitude e f = F64.magnitude e' f' := by
    cases s <;> simp [F64.signed] at hu <;> omega
  obtain ⟨rfl, rfl⟩ := F64.magnitude_inj hm
  rfl

theorem F64.add_between {x y lo hi : F64} (hx : x.isFinite = true) (hy : y.isFinite = true)
    (hlo : lo.isFinite = true) (hhi : hi.isFinite = true)
    (h1 : lo.toRat ≤ x.toRat + y.toRat) (h2 : x.toRat + y.toRat ≤ hi.toRat) :
    (x.add y).isFinite = true ∧ lo.toRat ≤ (x.add y).toRat ∧ (x.add y).toRat ≤ hi.toRat := by
  have e : x.toRat + y.toRat = ((x.units + y.units : Int) : ℚ) / (F64.one1074 : ℚ) := by
    unfold F64.toRat; push_cast; ring
  rw [e] at h1 h2
  unfold F64.toRat at h1 h2
  rw [div_le_div_iff_of_pos_right F64.scale_pos] at h1 h2
  rw [F64.add_eq hx hy, ← F64.units_le_iff, ← F64.units_le_iff]
  exact F64.ofUnits_between _ hlo hhi (by exact_mod_cast h1) (by exact_mod_cast h2)

theorem F64.sub_between {x y lo hi : F64} (hx : x.isFinite = true) (hy : y.isFinite = true)
    (hlo : lo.isFinite = true) (hhi : hi.isFinite = true)
    (h1 : lo.toRat ≤ x.toRat - y.toRat) (h2 : x.toRat - y.toRat ≤ hi.toRat) :
    (x.sub y).isFinite = true ∧ lo.toRat ≤ (x.sub y).toRat ∧ (x.sub y).toRat ≤ hi.toRat := by
  have := F64.toRat_neg y
  exact F64.add_between hx (by rwa [F64.neg_isFinite]) hlo hhi (by rw [this]; linarith) (by rw [this]; linarith)

theorem F64.mul_between {x y lo hi : F64} (hx : x.isFinite = true) (hy : y.isFinite = true)
    (hlo : lo.isFinite = true) (hhi : hi.isFinite = true)
    (h1 : lo.toRat ≤ x.toRat * y.toRat) (h2 : x.toRat * y.toRat ≤ hi.toRat) :
    (x.mul y).isFinite = true ∧ lo.toRat ≤ (x.mul y).toRat ∧ (x.mul y).toRat ≤ hi.toRat := by
  obtain ⟨s, e, f, rfl⟩ := F64.finite_cases hx
  obtain ⟨t, e', f', rfl⟩ := F64.finite_cases hy
  have hp := F64.scale_pos
  have key : ((F64.signed (s != t) (F64.magnitude e f * F64.magnitude e' f') : Int) : ℚ)
      = (F64.fin s e f).toRat * (F64.fin t e' f').toRat * (F64.one1074 : ℚ) * (F64.one1074 : ℚ) := by
    rw [← F64.signed_mul, ← F64.units_fin, ← F64.units_fin]
    push_cast
    rw [F64.units_eq_toRat, F64.units_eq_toRat]; ring
  obtain ⟨e2, f2, he, ha, hb⟩ := F64.round_between (s != t)
    (num := F64.magnitude e f * F64.magnitude e' f') (den := F64.one1074) (by exact_mod_cast F64.one1074_pos) hlo hhi
    (by
      have : (lo.units : ℚ) * (F64.one1074 : Nat) ≤
          ((F64.signed (s != t) (F64.magnitude e f * F64.magnitude e' f') : Int) : ℚ) := by
        rw [key, F64.units_eq_toRat]
        have := mul_le_mul_of_nonneg_right (mul_le_mul_of_nonneg_right h1 hp.le) hp.le
        linarith
      exact_mod_cast this)
    (by
      have : ((F64.signed (s != t) (F64.magnitude e f * F64.magnitude e' f') : Int) : ℚ) ≤
          (hi.units : ℚ) * (F64.one1074 : Nat) := by
        rw [key, F64.units_eq_toRat]
        have := mul_le_mul_of_nonneg_right (mul_le_mul_of_nonneg_right h2 hp.le) hp.le
        linarith
      exact_mod_cast this)
  have hm : (F64.fin s e f).mul (F64.fin t e' f') = F64.fin (s != t) e2 f2 := he
  rw [hm]
  exact ⟨rfl, F64.units_le_iff.1 ha, F64.units_le_iff.1 hb⟩

/-- The quotient by a positive datum. -/
theorem F64.div_between {x y lo hi : F64} (hx : x.isFinite = true) (hy : y.isFinite = true) (hy0 : 0 < y.toRat)
    (hlo : lo.isFinite = true) (hhi : hi.isFinite = true)
    (h1 : lo.toRat ≤ x.toRat / y.toRat) (h2 : x.toRat / y.toRat ≤ hi.toRat) :
    (x.div y).isFinite = true ∧ lo.toRat ≤ (x.div y).toRat ∧ (x.div y).toRat ≤ hi.toRat := by
  obtain ⟨s, e, f, rfl⟩ := F64.finite_cases hx
  obtain ⟨t, e', f', rfl⟩ := F64.finite_cases hy
  have hp := F64.scale_pos
  have hyu : 0 < (F64.fin t e' f').units := by
    have : (0 : ℚ) < ((F64.fin t e' f').units : ℚ) := by rw [F64.units_eq_toRat]; positivity
    exact_mod_cast this
  have ht : t = false := by
    cases t
    · rfl
    · rw [F64.units_fin] at hyu; simp [F64.signed] at hyu; omega
  subst ht
  have hmag : ((F64.fin false e' f').units : Int) = (F64.magnitude e' f' : Nat) := rfl
  have hm0 : 0 < F64.magnitude e' f' := by omega
  have hmq : ((F64.magnitude e' f' : Nat) : ℚ) = (F64.fin false e' f').toRat * (F64.one1074 : ℚ) := by
    rw [← F64.units_eq_toRat, hmag]; push_cast; rfl
  have key : ((F64.signed (s != false) (F64.magnitude e f * F64.one1074) : Int) : ℚ)
      = (F64.fin s e f).toRat * (F64.one1074 : ℚ) * (F64.one1074 : ℚ) := by
    rw [← F64.signed_mul, ← F64.units_fin]
    push_cast
    rw [F64.units_eq_toRat]
    simp only [F64.signed, Bool.false_eq_true, if_false]
    push_cast; rfl
  rw [le_div_iff₀ hy0] at h1
  rw [div_le_iff₀ hy0] at h2
  obtain ⟨e2, f2, he, ha, hb⟩ := F64.round_between (s != false)
    (num := F64.magnitude e f * F64.one1074) (den := F64.magnitude e' f') hm0 hlo hhi
    (by
      have : (lo.units : ℚ) * ((F64.magnitude e' f' : Nat) : ℚ) ≤
          ((F64.signed (s != false) (F64.magnitude e f * F64.one1074) : Int) : ℚ) := by
        rw [key, hmq, F64.units_eq_toRat]
        have := mul_le_mul_of_nonneg_right (mul_le_mul_of_nonneg_right h1 hp.le) hp.le
        linarith
      exact_mod_cast this)
    (by
      have : ((F64.signed (s != false) (F64.magnitude e f * F64.one1074) : Int) : ℚ) ≤
          (hi.units : ℚ) * ((F64.magnitude e' f' : Nat) : ℚ) := by
        rw [key, hmq, F64.units_eq_toRat]
        have := mul_le_mul_of_nonneg_right (mul_le_mul_of_nonneg_right h2 hp.le) hp.le
        linarith
      exact_mod_cast this)
  have hm : (F64.fin s e f).div (F64.fin false e' f') = F64.fin (s != false) e2 f2 := by
    unfold F64.div
    simp only
    rw [if_neg (by omega), he]
  rw [hm]
  exact ⟨rfl, F64.units_le_iff.1 ha, F64.units_le_iff.1 hb⟩

/-! ## Exact results -/

theorem F64.add_exact {x y z : F64} (hx : x.isFinite = true) (hy : y.isFinite = true) (hz : z.isFinite = true)
    (h : x.toRat + y.toRat = z.toRat) : (x.add y).isFinite = true ∧ (x.add y).toRat = z.toRat := by
  obtain ⟨a, b, c⟩ := F64.add_between hx hy hz hz (le_of_eq h.symm) (le_of_eq h)
  exact ⟨a, le_antisymm c b⟩

theorem F64.sub_exact {x y z : F64} (hx : x.isFinite = true) (hy : y.isFinite = true) (hz : z.isFinite = true)
    (h : x.toRat - y.toRat = z.toRat) : (x.sub y).isFinite = true ∧ (x.sub y).toRat = z.toRat := by
  obtain ⟨a, b, c⟩ := F64.sub_between hx hy hz hz (le_of_eq h.symm) (le_of_eq h)
  exact ⟨a, le_antisymm c b⟩

theorem F64.mul_exact {x y z : F64} (hx : x.isFinite = true) (hy : y.isFinite = true) (hz : z.isFinite = true)
    (h : x.toRat * y.toRat = z.toRat) : (x.mul y).isFinite = true ∧ (x.mul y).toRat = z.toRat := by
  obtain ⟨a, b, c⟩ := F64.mul_between hx hy hz hz (le_of_eq h.symm) (le_of_eq h)
  exact ⟨a, le_antisymm c b⟩

theorem F64.div_exact {x y z : F64} (hx : x.isFinite = true) (hy : y.isFinite = true) (hy0 : 0 < y.toRat)
    (hz : z.isFinite = true) (h : x.toRat / y.toRat = z.toRat) :
    (x.div y).isFinite = true ∧ (x.div y).toRat = z.toRat := by
  obtain ⟨a, b, c⟩ := F64.div_between hx hy hy0 hz hz (le_of_eq h.symm) (le_of_eq h)
  exact ⟨a, le_antisymm c b⟩

/-! ## Which values are representable -/

/-- A whole number of at most 53 bits times a power of two in range is the magnitude of a datum. -/
theorem F64.exists_magnitude {r k : Nat} (hr : r ≤ 2 ^ 53) (hk : k ≤ 2044) :
    ∃ e f, F64.magnitude e f = r * 2 ^ k := by
  induction k generalizing r with
  | zero =>
    obtain ⟨e, f, -, hb⟩ := F64.ofMagnitudeBits_fin false (m := r) (by omega)
    exact ⟨e, f, by rw [F64.magnitude_eq, hb, F64.magnitudeOfBits_small hr]; simp⟩
  | succ k ih =>
    rcases Nat.lt_or_ge r (2 ^ 52) with h | h
    · obtain ⟨e, f, hm⟩ := ih (r := 2 * r) (by omega) (by omega)
      exact ⟨e, f, by rw [hm, pow_succ]; ring⟩
    · obtain ⟨e, f, -, hb⟩ := F64.ofMagnitudeBits_fin false (m := (k + 1) * 2 ^ 52 + r) (by omega)
      exact ⟨e, f, by rw [F64.magnitude_eq, hb, F64.magnitudeOfBits_normal _ _ h hr]⟩

/-- The value r * 2^k / 2^1074 of either sign is the value of a datum. -/
theorem F64.exists_toRat (s : Bool) {r k : Nat} (hr : r ≤ 2 ^ 53) (hk : k ≤ 2044) :
    ∃ e f, (F64.fin s e f).toRat = (if s then -1 else 1) * (r * 2 ^ k / (F64.one1074 : ℚ)) := by
  obtain ⟨e, f, hm⟩ := F64.exists_magnitude hr hk
  refine ⟨e, f, ?_⟩
  unfold F64.toRat
  rw [F64.units_fin, hm]
  cases s
  · simp [F64.signed]
  · simp [F64.signed]; ring

/-- Every integer of magnitude at most 2^53 is the value of a datum. -/
theorem F64.exists_int {i : Int} (h : i.natAbs ≤ 2 ^ 53) : ∃ x : F64, x.isFinite = true ∧ x.toRat = i := by
  obtain ⟨e, f, hm⟩ := F64.exists_magnitude (r := i.natAbs) (k := 1074) h (by norm_num)
  refine ⟨.fin (decide (i < 0)) e f, rfl, ?_⟩
  have hu : (F64.fin (decide (i < 0)) e f).units = i * (F64.one1074 : Int) := by
    rw [F64.units_fin, hm, F64.one1074_eq]
    have := F64.signed_natAbs i
    generalize (2 : Nat) ^ 1074 = p
    unfold F64.signed at *
    by_cases hi : i < 0
    · rw [decide_eq_true hi] at *
      simp only [if_true] at *
      push_cast; rw [abs_of_neg hi]; ring
    · rw [decide_eq_false hi] at *
      simp only [Bool.false_eq_true, if_false] at *
      push_cast; rw [abs_of_nonneg (not_lt.1 hi)]
  unfold F64.toRat
  rw [hu]; push_cast
  exact mul_div_cancel_right₀ _ (ne_of_gt F64.scale_pos)

/-- `float(i)` is exact up to 2^53 in magnitude (R17). -/
theorem F64.ofInt_exact {i : Int} (h : i.natAbs ≤ 2 ^ 53) :
    (F64.ofInt i).isFinite = true ∧ (F64.ofInt i).toRat = i := by
  obtain ⟨x, hx, hv⟩ := F64.exists_int h
  have hu : x.units = i * F64.one1074 := by
    have : (x.units : ℚ) = ((i * F64.one1074 : Int) : ℚ) := by
      rw [F64.units_eq_toRat, hv]; push_cast; rfl
    exact_mod_cast this
  obtain ⟨a, b, c⟩ := F64.ofUnits_between false hx hx (u := i * F64.one1074) (le_of_eq hu) (le_of_eq hu.symm)
  refine ⟨a, ?_⟩
  rw [← hv]
  exact le_antisymm (F64.units_le_iff.1 c) (F64.units_le_iff.1 b)

/-! ## Comparison, floor and truncation -/

theorem F64.lt_iff {x y : F64} (hx : x.isFinite = true) (hy : y.isFinite = true) :
    x.lt y = true ↔ x.toRat < y.toRat := by
  rw [← F64.units_lt_iff]
  obtain ⟨s, e, f, rfl⟩ := F64.finite_cases hx
  obtain ⟨t, e', f', rfl⟩ := F64.finite_cases hy
  simp [F64.lt]

theorem F64.eq_iff {x y : F64} (hx : x.isFinite = true) (hy : y.isFinite = true) :
    x.eq y = true ↔ x.toRat = y.toRat := by
  rw [← F64.units_eq_iff]
  obtain ⟨s, e, f, rfl⟩ := F64.finite_cases hx
  obtain ⟨t, e', f', rfl⟩ := F64.finite_cases hy
  simp [F64.eq]

theorem F64.le_iff {x y : F64} (hx : x.isFinite = true) (hy : y.isFinite = true) :
    x.le y = true ↔ x.toRat ≤ y.toRat := by
  unfold F64.le
  rw [Bool.or_eq_true, F64.lt_iff hx hy, F64.eq_iff hx hy]
  exact le_iff_lt_or_eq.symm

theorem F64.floor_spec (x : F64) : (x.floor : ℚ) ≤ x.toRat ∧ x.toRat < x.floor + 1 := by
  have hp := F64.one1074_pos
  have h1 := Int.emod_add_mul_ediv x.units F64.one1074
  have h2 := Int.emod_nonneg x.units (ne_of_gt hp)
  have h3 := Int.emod_lt_of_pos x.units hp
  have hq := F64.scale_pos
  unfold F64.toRat
  rw [le_div_iff₀ hq, div_lt_iff₀ hq]
  have e1 : (F64.floor x : Int) * F64.one1074 ≤ x.units := by unfold F64.floor; nlinarith
  have e2 : x.units < (F64.floor x + 1) * F64.one1074 := by unfold F64.floor; nlinarith
  constructor
  · exact_mod_cast e1
  · exact_mod_cast e2

theorem F64.floor_eq {x : F64} {k : Int} (h1 : (k : ℚ) ≤ x.toRat) (h2 : x.toRat < k + 1) : x.floor = k := by
  obtain ⟨a, b⟩ := F64.floor_spec x
  have c1 : (x.floor : ℚ) < k + 1 := lt_of_le_of_lt a h2
  have c2 : (k : ℚ) < x.floor + 1 := lt_of_le_of_lt h1 b
  have c1' : x.floor < k + 1 := by exact_mod_cast c1
  have c2' : k < x.floor + 1 := by exact_mod_cast c2
  omega

/-- Truncation toward zero: the floor of a value that is not negative. -/
theorem F64.trunc_nonneg {x : F64} (h : 0 ≤ x.toRat) : x.trunc = x.floor := by
  have hu : 0 ≤ x.units := by
    have : (0 : ℚ) ≤ (x.units : ℚ) := by rw [F64.units_eq_toRat]; exact mul_nonneg h F64.scale_pos.le
    exact_mod_cast this
  unfold F64.trunc F64.floor
  exact Int.tdiv_eq_ediv_of_nonneg hu

/-- Truncation is odd. -/
theorem F64.trunc_neg (x : F64) : x.neg.trunc = -x.trunc := by
  unfold F64.trunc
  rw [F64.neg_units, Int.neg_tdiv]

/-! ## The constants -/

theorem F64.toRat_of_magnitude {e : Fin 2047} {f : BitVec 52} {r k : Nat} (h : F64.magnitude e f = r * 2 ^ k)
    (hk : k ≤ 1074) : (F64.fin false e f).toRat = r / 2 ^ (1074 - k) := by
  have e1 : (F64.one1074 : ℚ) = 2 ^ (1074 - k) * 2 ^ k := by
    rw [← pow_add, F64.one1074_eq, Nat.sub_add_cancel hk]; exact Nat.cast_pow 2 1074
  have hk0 : (2 : ℚ) ^ k ≠ 0 := by positivity
  unfold F64.toRat
  rw [F64.units_fin, h, e1]
  simp only [F64.signed, Bool.false_eq_true, if_false]
  push_cast
  rw [mul_div_mul_right _ _ hk0]

theorem F64.toRat_zero : F64.zero.toRat = 0 := by
  unfold F64.toRat F64.zero; rw [F64.units_fin, F64.magnitude_zero]; simp [F64.signed]

theorem F64.toRat_one : F64.one.toRat = 1 := by
  have h : F64.magnitude 1023 0 = 1 * 2 ^ 1074 := by
    have e : (1023 : Fin 2047).val = 1023 := rfl
    unfold F64.magnitude F64.significand
    rw [e, if_neg (by norm_num), show (0 : BitVec 52).toNat = 0 from rfl, Nat.add_zero, ← pow_add]
    norm_num
  unfold F64.one; rw [F64.toRat_of_magnitude h (by norm_num)]; norm_num

theorem F64.toRat_half : F64.half.toRat = 1 / 2 := by
  have h : F64.magnitude 1022 0 = 1 * 2 ^ 1073 := by
    have e : (1022 : Fin 2047).val = 1022 := rfl
    unfold F64.magnitude F64.significand
    rw [e, if_neg (by norm_num), show (0 : BitVec 52).toNat = 0 from rfl, Nat.add_zero, ← pow_add]
    norm_num
  unfold F64.half; rw [F64.toRat_of_magnitude h (by norm_num)]; norm_num

theorem F64.toRat_threeHalves : F64.threeHalves.toRat = 3 / 2 := by
  have h : F64.magnitude 1023 0x8000000000000 = 3 * 2 ^ 1073 := by
    have e : (1023 : Fin 2047).val = 1023 := rfl
    unfold F64.magnitude F64.significand
    rw [e, if_neg (by norm_num), show (0x8000000000000 : BitVec 52).toNat = 2 ^ 51 from rfl]
    have : (2 : Nat) ^ 52 + 2 ^ 51 = 3 * 2 ^ 51 := by norm_num
    rw [this, Nat.mul_assoc, ← pow_add]
  unfold F64.threeHalves; rw [F64.toRat_of_magnitude h (by norm_num)]; norm_num

theorem F64.toRat_fullScale : F64.fullScale.toRat = 8388607 := by
  have h : F64.magnitude 1045 0xFFFFFC0000000 = 8388607 * 2 ^ 1074 := by
    have e : (1045 : Fin 2047).val = 1045 := rfl
    unfold F64.magnitude F64.significand
    rw [e, if_neg (by norm_num), show (0xFFFFFC0000000 : BitVec 52).toNat = 8388607 * 2 ^ 30 - 2 ^ 52 from rfl]
    have : (2 : Nat) ^ 52 + (8388607 * 2 ^ 30 - 2 ^ 52) = 8388607 * 2 ^ 30 := by norm_num
    rw [this, Nat.mul_assoc, ← pow_add]
  unfold F64.fullScale; rw [F64.toRat_of_magnitude h (by norm_num)]; norm_num

@[simp] theorem F64.zero_isFinite : F64.zero.isFinite = true := rfl
@[simp] theorem F64.one_isFinite : F64.one.isFinite = true := rfl
@[simp] theorem F64.half_isFinite : F64.half.isFinite = true := rfl
@[simp] theorem F64.threeHalves_isFinite : F64.threeHalves.isFinite = true := rfl
@[simp] theorem F64.fullScale_isFinite : F64.fullScale.isFinite = true := rfl

end Sys2Proof
end

