-- ==== Sys2Proof/Laws/IeeeError.lean ====
section
/-!
SUPPORT. How far a rounded value lies from the exact one: never past the middle between two neighbours, so within half
a unit in the last place.
-/

namespace Sys2Proof

/-! ## The middle between two neighbours -/

theorem F64.roundHalfEven_le_of_lt_mid {num den x : Nat} (hd : 0 < den) (h : 2 * num < (2 * x + 1) * den) :
    F64.roundHalfEven num den ≤ x := by
  have h1 := Nat.div_add_mod num den
  have h2 := Nat.mod_lt num hd
  unfold F64.roundHalfEven
  generalize num % den = r at *
  generalize num / den = q at *
  subst h1
  split
  · rename_i hc
    have : den ≤ 2 * r := by omega
    by_contra hx
    have hx' : x ≤ q := by omega
    nlinarith
  · by_contra hx
    have hx' : x + 1 ≤ q := by omega
    nlinarith

theorem F64.le_roundHalfEven_of_mid_lt {num den x : Nat} (hd : 0 < den) (h : (2 * x + 1) * den < 2 * num) :
    x + 1 ≤ F64.roundHalfEven num den := by
  have h1 := Nat.div_add_mod num den
  have h2 := Nat.mod_lt num hd
  unfold F64.roundHalfEven
  generalize num % den = r at *
  generalize num / den = q at *
  subst h1
  split
  · by_contra hx
    have hx' : q + 1 ≤ x := by omega
    nlinarith
  · by_contra hx
    have hx' : q ≤ x := by omega
    have : 2 * r ≤ den := by omega
    nlinarith

/-- Neighbouring patterns: one unit apart below 2^53, a power of two apart above. -/
theorem F64.bits_cases_gap (m : Nat) :
    (m < 2 ^ 53 ∧ F64.magnitudeOfBits m = m ∧ F64.magnitudeOfBits (m + 1) = m + 1) ∨
    ∃ j r, 1 ≤ j ∧ m = j * 2 ^ 52 + r ∧ 2 ^ 52 ≤ r ∧ r < 2 ^ 53 ∧
      F64.magnitudeOfBits m = r * 2 ^ j ∧ F64.magnitudeOfBits (m + 1) = (r + 1) * 2 ^ j := by
  rcases Nat.lt_or_ge m (2 ^ 53) with h | h
  · exact .inl ⟨h, F64.magnitudeOfBits_small (by omega), F64.magnitudeOfBits_small (by omega)⟩
  · rcases F64.bits_cases m with h' | ⟨j, r, rfl, h1, h2⟩
    · omega
    · refine .inr ⟨j, r, by omega, rfl, h1, h2, F64.magnitudeOfBits_normal j r h1 (by omega), ?_⟩
      rw [Nat.add_assoc, F64.magnitudeOfBits_normal j (r + 1) (by omega) (by omega)]

/-- Below the middle of two neighbours, not above the lower one. -/
theorem F64.roundBits_le_of_lt_mid {num den m : Nat} (hd : 0 < den)
    (h : 2 * num < (F64.magnitudeOfBits m + F64.magnitudeOfBits (m + 1)) * den) : F64.roundBits num den ≤ m := by
  have hq0 : num / den * den ≤ num := Nat.div_mul_le_self num den
  have hq1 : num < (num / den + 1) * den := by
    have := Nat.lt_div_mul_add hd (a := num); nlinarith
  unfold F64.roundBits
  by_cases hk : F64.droppedBits (num / den) = 0
  · have h53 := F64.droppedBits_zero hk
    rw [hk]; simp only [pow_zero, Nat.mul_one, Nat.zero_mul, Nat.zero_add]
    rcases F64.bits_cases_gap m with ⟨hm, e1, e2⟩ | ⟨j, r, hj, hm, h1, h2, e1, e2⟩
    · rw [e1, e2] at h
      exact F64.roundHalfEven_le_of_lt_mid hd (by nlinarith)
    · have := F64.roundHalfEven_le_succ num den
      omega
  · obtain ⟨hlo, hhi⟩ := F64.droppedBits_pos hk
    generalize F64.droppedBits (num / den) = k at *
    have hk1 : 1 ≤ k := by omega
    have hD : 0 < den * 2 ^ k := by positivity
    have hk2 : 2 ≤ 2 ^ k := by
      calc 2 = 2 ^ 1 := rfl
        _ ≤ 2 ^ k := Nat.pow_le_pow_right (by omega) hk1
    generalize num / den = q at *
    rcases F64.bits_cases_gap m with ⟨hm, e1, e2⟩ | ⟨j, r, hj, hm, h1, h2, e1, e2⟩
    · rw [e1, e2] at h
      have : q ≤ m := by
        by_contra hc
        have : m + 1 ≤ q := by omega
        nlinarith
      nlinarith
    · rw [e1, e2] at h
      have hql : 2 * q < (2 * r + 1) * 2 ^ j := by
        by_contra hc
        have hc' : (2 * r + 1) * 2 ^ j ≤ 2 * q := by omega
        nlinarith
      rcases Nat.lt_trichotomy j k with hjk | rfl | hjk
      · exfalso
        have hp : 2 ^ (j + 1) ≤ 2 ^ k := Nat.pow_le_pow_right (by omega) hjk
        rw [pow_succ] at hp
        have : 0 < 2 ^ j := by positivity
        nlinarith
      · have : F64.roundHalfEven num (den * 2 ^ j) ≤ r := F64.roundHalfEven_le_of_lt_mid hD (by nlinarith)
        omega
      · have : F64.roundHalfEven num (den * 2 ^ k) ≤ 2 ^ 53 := F64.roundHalfEven_le hD (by nlinarith)
        have : (k + 1) * 2 ^ 52 ≤ j * 2 ^ 52 := Nat.mul_le_mul_right _ hjk
        omega

/-- Above the middle of two neighbours, not below the upper one. -/
theorem F64.le_roundBits_of_mid_lt {num den m : Nat} (hd : 0 < den)
    (h : (F64.magnitudeOfBits m + F64.magnitudeOfBits (m + 1)) * den < 2 * num) : m + 1 ≤ F64.roundBits num den := by
  have hq1 : num < (num / den + 1) * den := by
    have := Nat.lt_div_mul_add hd (a := num); nlinarith
  unfold F64.roundBits
  by_cases hk : F64.droppedBits (num / den) = 0
  · have h53 := F64.droppedBits_zero hk
    rw [hk]; simp only [pow_zero, Nat.mul_one, Nat.zero_mul, Nat.zero_add]
    rcases F64.bits_cases_gap m with ⟨hm, e1, e2⟩ | ⟨j, r, hj, hm, h1, h2, e1, e2⟩
    · rw [e1, e2] at h
      exact F64.le_roundHalfEven_of_mid_lt hd (by nlinarith)
    · exfalso
      rw [e1, e2] at h
      have hk2 : 2 ≤ 2 ^ j := by
        calc 2 = 2 ^ 1 := rfl
          _ ≤ 2 ^ j := Nat.pow_le_pow_right (by omega) hj
      have : num < 2 ^ 53 * den := by nlinarith
      nlinarith [Nat.mul_le_mul_right den (Nat.mul_le_mul h1 hk2)]
  · obtain ⟨hlo, hhi⟩ := F64.droppedBits_pos hk
    have hR : num / (den * 2 ^ F64.droppedBits (num / den)) ≤
        F64.roundHalfEven num (den * 2 ^ F64.droppedBits (num / den)) := F64.roundHalfEven_ge _ _
    rw [← Nat.div_div_eq_div_mul] at hR
    generalize hkk : F64.droppedBits (num / den) = k at *
    have hP : 0 < 2 ^ k := by positivity
    have hQ : 2 ^ 52 ≤ num / den / 2 ^ k := (Nat.le_div_iff_mul_le hP).2 hlo
    generalize num / den = q at *
    rcases F64.bits_cases_gap m with ⟨hm, e1, e2⟩ | ⟨j, r, hj, hm, h1, h2, e1, e2⟩
    · have : 1 * 2 ^ 52 ≤ k * 2 ^ 52 := Nat.mul_le_mul_right _ (by omega)
      omega
    · rw [e1, e2] at h
      rcases Nat.lt_trichotomy j k with hjk | rfl | hjk
      · have : (j + 1) * 2 ^ 52 ≤ k * 2 ^ 52 := Nat.mul_le_mul_right _ hjk
        omega
      · have : r + 1 ≤ F64.roundHalfEven num (den * 2 ^ j) := F64.le_roundHalfEven_of_mid_lt (by positivity) (by nlinarith)
        omega
      · exfalso
        have hp : 2 ^ (k + 1) ≤ 2 ^ j := Nat.pow_le_pow_right (by omega) hjk
        rw [pow_succ] at hp
        have hq2 : q + 1 ≤ 2 ^ 53 * 2 ^ k := hhi
        have : num < 2 ^ 53 * 2 ^ k * den := by nlinarith
        nlinarith [Nat.mul_le_mul_right den (Nat.mul_le_mul h1 hp)]

/-! ## The error of one rounding -/

/-- The rounded magnitude differs from the exact quotient by at most half a unit in the last place: half a unit of
2^-1074, or 2^-53 of itself. -/
theorem F64.roundBits_error {num den : Nat} (hd : 0 < den) :
    (2 ^ 54 * num : Int) ≤ ((2 ^ 54 + 2) * F64.magnitudeOfBits (F64.roundBits num den) + 2 ^ 53) * den ∧
    ((2 ^ 54 - 2) * F64.magnitudeOfBits (F64.roundBits num den) - 2 ^ 53 : Int) * den ≤ 2 ^ 54 * num := by
  have hdz : (0 : Int) < den := by exact_mod_cast hd
  constructor
  · have hup : ¬ (F64.magnitudeOfBits (F64.roundBits num den) + F64.magnitudeOfBits (F64.roundBits num den + 1)) * den
        < 2 * num := fun hc => by have := F64.le_roundBits_of_mid_lt hd hc; omega
    generalize F64.roundBits num den = m at *
    have hup' : (2 * num : Int) ≤ ((F64.magnitudeOfBits m : Int) + F64.magnitudeOfBits (m + 1)) * den := by
      exact_mod_cast not_lt.1 hup
    rcases F64.bits_cases_gap m with ⟨hm, e1, e2⟩ | ⟨j, r, hj, hm, h1, h2, e1, e2⟩
    · rw [e1, e2] at hup'; rw [e1]; push_cast at *; nlinarith
    · rw [e1, e2] at hup'; rw [e1]
      push_cast at *
      have hp : (0 : Int) < 2 ^ j := by positivity
      have h1' : (2 ^ 52 : Int) ≤ r := by exact_mod_cast h1
      have : (2 ^ 52 : Int) * (2 ^ j * den) ≤ r * (2 ^ j * den) := mul_le_mul_of_nonneg_right h1' (by positivity)
      nlinarith
  · rcases Nat.eq_zero_or_pos (F64.roundBits num den) with h0 | h0
    · rw [h0, F64.magnitudeOfBits_small (by norm_num)]
      have : (0 : Int) ≤ num := by positivity
      push_cast; nlinarith
    · obtain ⟨m, hm⟩ : ∃ m, F64.roundBits num den = m + 1 := ⟨_, (Nat.succ_pred_eq_of_pos h0).symm⟩
      have hlo : ¬ 2 * num < (F64.magnitudeOfBits m + F64.magnitudeOfBits (m + 1)) * den :=
        fun hc => by have := F64.roundBits_le_of_lt_mid hd hc; omega
      rw [hm]
      have hlo' : ((F64.magnitudeOfBits m : Int) + F64.magnitudeOfBits (m + 1)) * den ≤ 2 * num := by
        exact_mod_cast not_lt.1 hlo
      rcases F64.bits_cases_gap m with ⟨hm', e1, e2⟩ | ⟨j, r, hj, hm', h1, h2, e1, e2⟩
      · rw [e1, e2] at hlo'; rw [e2]; push_cast at *; nlinarith
      · rw [e1, e2] at hlo'; rw [e2]
        push_cast at *
        have hp : (0 : Int) < 2 ^ j := by positivity
        have h1' : (2 ^ 52 : Int) ≤ r := by exact_mod_cast h1
        have : (2 ^ 52 : Int) * (2 ^ j * den) ≤ r * (2 ^ j * den) := mul_le_mul_of_nonneg_right h1' (by positivity)
        nlinarith

/-- A whole number of units is rounded with an error of at most 2^-53 of the result (none below 2^53 units). -/
theorem F64.roundBits_error_units (num : Nat) :
    (2 ^ 53 * num : Int) ≤ (2 ^ 53 + 1) * F64.magnitudeOfBits (F64.roundBits num 1) ∧
    ((2 ^ 53 - 1) * F64.magnitudeOfBits (F64.roundBits num 1) : Int) ≤ 2 ^ 53 * num := by
  constructor
  · have hup : ¬ (F64.magnitudeOfBits (F64.roundBits num 1) + F64.magnitudeOfBits (F64.roundBits num 1 + 1)) * 1
        < 2 * num := fun hc => by have := F64.le_roundBits_of_mid_lt (by norm_num) hc; omega
    generalize F64.roundBits num 1 = m at *
    rcases F64.bits_cases_gap m with ⟨hm, e1, e2⟩ | ⟨j, r, hj, hm, h1, h2, e1, e2⟩
    · rw [e1, e2] at hup; rw [e1]
      have : num ≤ m := by omega
      have : (num : Int) ≤ m := by exact_mod_cast this
      nlinarith
    · rw [e1, e2] at hup; rw [e1]
      have hup' : (2 * num : Int) ≤ (r : Int) * 2 ^ j + (r + 1) * 2 ^ j := by
        have := not_lt.1 hup
        rw [Nat.mul_one] at this
        exact_mod_cast this
      push_cast
      have hp : (0 : Int) < 2 ^ j := by positivity
      have h1' : (2 ^ 52 : Int) ≤ r := by exact_mod_cast h1
      have : (2 ^ 52 : Int) * 2 ^ j ≤ r * 2 ^ j := mul_le_mul_of_nonneg_right h1' hp.le
      nlinarith
  · rcases Nat.eq_zero_or_pos (F64.roundBits num 1) with h0 | h0
    · rw [h0, F64.magnitudeOfBits_small (by norm_num)]
      have : (0 : Int) ≤ num := by positivity
      push_cast; nlinarith
    · obtain ⟨m, hm⟩ : ∃ m, F64.roundBits num 1 = m + 1 := ⟨_, (Nat.succ_pred_eq_of_pos h0).symm⟩
      have hlo : ¬ 2 * num < (F64.magnitudeOfBits m + F64.magnitudeOfBits (m + 1)) * 1 :=
        fun hc => by have := F64.roundBits_le_of_lt_mid (by norm_num) hc; omega
      rw [hm]
      rcases F64.bits_cases_gap m with ⟨hm', e1, e2⟩ | ⟨j, r, hj, hm', h1, h2, e1, e2⟩
      · rw [e1, e2] at hlo; rw [e2]
        have : m + 1 ≤ num := by omega
        have : ((m + 1 : Nat) : Int) ≤ num := by exact_mod_cast this
        push_cast at *
        nlinarith
      · rw [e1, e2] at hlo; rw [e2]
        have hlo' : (r : Int) * 2 ^ j + (r + 1) * 2 ^ j ≤ 2 * num := by
          have := not_lt.1 hlo
          rw [Nat.mul_one] at this
          exact_mod_cast this
        push_cast
        have hp : (0 : Int) < 2 ^ j := by positivity
        have h1' : (2 ^ 52 : Int) ≤ r := by exact_mod_cast h1
        have : (2 ^ 52 : Int) * 2 ^ j ≤ r * 2 ^ j := mul_le_mul_of_nonneg_right h1' hp.le
        nlinarith

/-! ## The errors of the operations, as rationals -/

/-- A finite rounded datum has the magnitude that was rounded to. -/
theorem F64.magnitude_of_round {s : Bool} {num den : Nat} (h : (F64.round s num den).isFinite = true) :
    ∃ e f, F64.round s num den = .fin s e f ∧ F64.magnitude e f = F64.magnitudeOfBits (F64.roundBits num den) := by
  unfold F64.round at *
  rcases Nat.lt_or_ge (F64.roundBits num den) (2047 * 2 ^ 52) with hm | hm
  · obtain ⟨e, f, he, hb⟩ := F64.ofMagnitudeBits_fin s hm
    exact ⟨e, f, he, by rw [F64.magnitude_eq, hb]⟩
  · rw [F64.ofMagnitudeBits_inf s hm] at h
    simp [F64.isFinite] at h

theorem F64.ofUnits_error {b : Bool} {u : Int} (h : (F64.ofUnits b u).isFinite = true) :
    2 ^ 53 * |(F64.ofUnits b u).units - u| ≤ |(F64.ofUnits b u).units| := by
  unfold F64.ofUnits at *
  by_cases hu : u = 0
  · rw [if_pos hu, F64.units_fin, F64.magnitude_zero, hu]
    cases b <;> simp [F64.signed]
  · rw [if_neg hu] at *
    obtain ⟨e, f, he, hm⟩ := F64.magnitude_of_round h
    obtain ⟨h1, h2⟩ := F64.roundBits_error_units u.natAbs
    rw [← hm] at h1 h2
    rw [he, F64.units_fin]
    generalize F64.magnitude e f = M at *
    by_cases hneg : u < 0
    · have hab : ((u.natAbs : Nat) : Int) = -u := by omega
      rw [hab] at h1 h2
      rw [decide_eq_true hneg]
      simp only [F64.signed, if_true]
      rw [abs_neg, abs_of_nonneg (by positivity : (0 : Int) ≤ M)]
      rcases abs_cases (-(M : Int) - u) with ⟨h, -⟩ | ⟨h, -⟩ <;> rw [h] <;> nlinarith
    · have hab : ((u.natAbs : Nat) : Int) = u := by omega
      rw [hab] at h1 h2
      rw [decide_eq_false hneg]
      simp only [F64.signed, Bool.false_eq_true, if_false]
      rw [abs_of_nonneg (by positivity : (0 : Int) ≤ M)]
      rcases abs_cases ((M : Int) - u) with ⟨h, -⟩ | ⟨h, -⟩ <;> rw [h] <;> nlinarith

/-- A finite sum is off by at most 2^-53 of itself. -/
theorem F64.add_error {x y : F64} (hx : x.isFinite = true) (hy : y.isFinite = true)
    (h : (x.add y).isFinite = true) :
    |(x.add y).toRat - (x.toRat + y.toRat)| ≤ |(x.add y).toRat| / 2 ^ 53 := by
  rw [F64.add_eq hx hy] at *
  have he := F64.ofUnits_error h
  have hp := F64.scale_pos
  generalize F64.ofUnits (x.sign && y.sign) (x.units + y.units) = z at *
  have e1 : z.toRat - (x.toRat + y.toRat) = ((z.units - (x.units + y.units) : Int) : ℚ) / (F64.one1074 : ℚ) := by
    unfold F64.toRat; push_cast; ring
  have e2 : |z.toRat| = ((|z.units| : Int) : ℚ) / (F64.one1074 : ℚ) := by
    unfold F64.toRat; rw [abs_div, abs_of_pos hp]; push_cast; rfl
  rw [e1, e2, abs_div, abs_of_pos hp, div_div, div_le_div_iff₀ hp (by positivity)]
  have he' : (2 ^ 53 : ℚ) * |((z.units - (x.units + y.units) : Int) : ℚ)| ≤ ((|z.units| : Int) : ℚ) := by
    exact_mod_cast he
  nlinarith

theorem F64.sub_error {x y : F64} (hx : x.isFinite = true) (hy : y.isFinite = true)
    (h : (x.sub y).isFinite = true) :
    |(x.sub y).toRat - (x.toRat - y.toRat)| ≤ |(x.sub y).toRat| / 2 ^ 53 := by
  have := F64.add_error hx (y := y.neg) (by rwa [F64.neg_isFinite]) h
  rw [F64.toRat_neg] at this
  rw [← sub_eq_add_neg] at this
  exact this

/-- A finite product is off by at most 2^-53 of itself and half a unit of 2^-1074. -/
theorem F64.mul_error {x y : F64} (hx : x.isFinite = true) (hy : y.isFinite = true)
    (h : (x.mul y).isFinite = true) :
    |(x.mul y).toRat - x.toRat * y.toRat| ≤ |(x.mul y).toRat| / 2 ^ 53 + 1 / (2 * (F64.one1074 : ℚ)) := by
  obtain ⟨s, e, f, rfl⟩ := F64.finite_cases hx
  obtain ⟨t, e', f', rfl⟩ := F64.finite_cases hy
  have hp := F64.scale_pos
  have hm : (F64.fin s e f).mul (F64.fin t e' f')
      = F64.round (s != t) (F64.magnitude e f * F64.magnitude e' f') F64.one1074 := rfl
  rw [hm] at h ⊢
  obtain ⟨e2, f2, he, hmag⟩ := F64.magnitude_of_round h
  obtain ⟨h1, h2⟩ := F64.roundBits_error (num := F64.magnitude e f * F64.magnitude e' f') (den := F64.one1074)
    (by exact_mod_cast F64.one1074_pos)
  rw [← hmag] at h1 h2
  rw [he]
  have hv : (F64.fin s e f).toRat * (F64.fin t e' f').toRat
      = ((F64.signed (s != t) (F64.magnitude e f * F64.magnitude e' f') : Int) : ℚ) / (F64.one1074 : ℚ)
        / (F64.one1074 : ℚ) := by
    unfold F64.toRat
    rw [F64.units_fin, F64.units_fin, ← F64.signed_mul]; push_cast; field_simp
  have hr : (F64.fin (s != t) e2 f2).toRat
      = ((F64.signed (s != t) (F64.magnitude e2 f2) : Int) : ℚ) / (F64.one1074 : ℚ) := by
    unfold F64.toRat; rw [F64.units_fin]
  rw [hv, hr]
  generalize F64.magnitude e f * F64.magnitude e' f' = n at *
  generalize F64.magnitude e2 f2 = M at *
  generalize F64.one1074 = S at *
  have key : ∀ σ : ℚ, (σ = 1 ∨ σ = -1) →
      |σ * M / S - σ * n / S / S| ≤ |σ * M / S| / 2 ^ 53 + 1 / (2 * (S : ℚ)) := by
    intro σ hσ
    have hs : |σ| = 1 := by rcases hσ with rfl | rfl <;> norm_num
    have e1 : σ * M / S - σ * n / S / S = σ * ((M * S - n) / (S * S)) := by field_simp
    have e2 : |σ * M / S| = M / S := by
      rw [abs_div, abs_mul, hs, one_mul, abs_of_nonneg (by positivity : (0 : ℚ) ≤ M), abs_of_pos hp]
    have h1' : (2 ^ 54 * n : ℚ) ≤ ((2 ^ 54 + 2) * M + 2 ^ 53) * S := by exact_mod_cast h1
    have h2' : ((2 ^ 54 - 2) * M - 2 ^ 53 : ℚ) * S ≤ 2 ^ 54 * n := by exact_mod_cast h2
    rw [e1, e2, abs_mul, hs, one_mul, abs_div, abs_of_pos (by positivity : (0 : ℚ) < S * S),
      div_le_iff₀ (by positivity)]
    have e3 : (M / S / 2 ^ 53 + 1 / (2 * S) : ℚ) * (S * S) = (M / 2 ^ 53 + 1 / 2) * S := by field_simp
    rw [e3, abs_le]
    constructor <;> nlinarith
  cases hst : (s != t)
  · have := key 1 (.inl rfl)
    simpa [F64.signed] using this
  · have := key (-1) (.inr rfl)
    simpa [F64.signed] using this

/-! ## Sums near a datum -/

/-- The datum whose pattern is the next one up. -/
theorem F64.add_le_of_lt_mid {x y : F64} (hx : x.isFinite = true) (hy : y.isFinite = true) {e : Fin 2047}
    {f : BitVec 52} (h0 : 0 ≤ x.units + y.units)
    (h : 2 * (x.units + y.units) < F64.magnitude e f + F64.magnitudeOfBits (F64.bits63 e f + 1)) :
    (x.add y).isFinite = true ∧ (x.add y).toRat ≤ (F64.fin false e f).toRat := by
  rw [F64.add_eq hx hy, ← F64.units_le_iff]
  generalize x.units + y.units = u at *
  unfold F64.ofUnits
  by_cases hu : u = 0
  · rw [if_pos hu, F64.units_fin, F64.units_fin, F64.magnitude_zero]
    refine ⟨rfl, ?_⟩
    cases (x.sign && y.sign) <;> simp [F64.signed]
  · rw [if_neg hu, decide_eq_false (by omega)]
    have hb : F64.roundBits u.natAbs 1 ≤ F64.bits63 e f := by
      apply F64.roundBits_le_of_lt_mid (by norm_num)
      rw [← F64.magnitude_eq]
      have : (2 * u.natAbs : Int) < F64.magnitude e f + F64.magnitudeOfBits (F64.bits63 e f + 1) := by omega
      rw [Nat.mul_one]
      exact_mod_cast this
    obtain ⟨e2, f2, he, hb2⟩ := F64.ofMagnitudeBits_fin false (lt_of_le_of_lt hb (F64.bits63_lt e f))
    unfold F64.round
    rw [he]
    refine ⟨rfl, ?_⟩
    rw [F64.units_fin, F64.units_fin]
    simp only [F64.signed, Bool.false_eq_true, if_false]
    rw [F64.magnitude_eq, F64.magnitude_eq, hb2]
    exact_mod_cast F64.magnitudeOfBits_le.2 hb

/-- A sum a little above a power of two comes back to it: the next datum is 2^-52 of it away. -/
theorem F64.add_le_powTwo {x y : F64} (hx : x.isFinite = true) (hy : y.isFinite = true) {e : Fin 2047}
    (he : 1 ≤ e.val) (h0 : 0 ≤ x.toRat + y.toRat)
    (h : x.toRat + y.toRat < (F64.fin false e 0).toRat * (1 + 1 / 2 ^ 53)) :
    (x.add y).isFinite = true ∧ (x.add y).toRat ≤ (F64.fin false e 0).toRat := by
  have hp := F64.scale_pos
  have hm : F64.magnitude e 0 = 2 ^ 52 * 2 ^ (e.val - 1) := by
    unfold F64.magnitude F64.significand
    rw [if_neg (by omega)]; simp
  have hb : F64.bits63 e 0 + 1 = (e.val - 1) * 2 ^ 52 + (2 ^ 52 + 1) := by
    have : (0 : BitVec 52).toNat = 0 := rfl
    unfold F64.bits63; rw [this]; omega
  have hn : F64.magnitudeOfBits (F64.bits63 e 0 + 1) = (2 ^ 52 + 1) * 2 ^ (e.val - 1) := by
    rw [hb, F64.magnitudeOfBits_normal _ _ (by norm_num) (by norm_num)]
  have hu : (F64.fin false e 0).toRat * (F64.one1074 : ℚ) = 2 ^ 52 * 2 ^ (e.val - 1) := by
    rw [← F64.units_eq_toRat, F64.units_fin, hm]
    simp only [F64.signed, Bool.false_eq_true, if_false]
    push_cast; ring
  apply F64.add_le_of_lt_mid hx hy
  · have : (0 : ℚ) ≤ ((x.units + y.units : Int) : ℚ) := by
      push_cast; rw [F64.units_eq_toRat, F64.units_eq_toRat, ← add_mul]; positivity
    exact_mod_cast this
  · rw [hm, hn]
    have : ((2 * (x.units + y.units) : Int) : ℚ) <
        ((2 ^ 52 * 2 ^ (e.val - 1) + (2 ^ 52 + 1) * 2 ^ (e.val - 1) : Nat) : ℚ) := by
      push_cast
      rw [F64.units_eq_toRat, F64.units_eq_toRat, ← add_mul]
      have h2 := mul_lt_mul_of_pos_right h hp
      have h3 : (F64.fin false e 0).toRat * (1 + 1 / 2 ^ 53) * (F64.one1074 : ℚ)
          = (2 ^ 52 * 2 ^ (e.val - 1)) * (1 + 1 / 2 ^ 53) := by rw [← hu]; ring
      rw [h3] at h2
      have h4 : ((2 : ℚ) ^ 52 * 2 ^ (e.val - 1)) * (1 + 1 / 2 ^ 53) * 2
          = 2 ^ 52 * 2 ^ (e.val - 1) + (2 ^ 52 + 1) * 2 ^ (e.val - 1) := by ring
      linarith
    exact_mod_cast this

end Sys2Proof
end

