-- ==== Sys2Proof/Laws/Memory.lean ====
section
/-!
SUPPORT. The laws of a ring's storage: a read after a write, and the canonical form that every write keeps.
-/

namespace Sys2Proof.Machine

/-- The first slot listed, if any, lies above `i`. -/
def headAbove (i : Nat) : Memory → Prop
  | [] => True
  | (j, _) :: _ => i < j

theorem memoryWf_cons {i : Nat} {u : Pair} {m : Memory} :
    memoryWf ((i, u) :: m) = true ↔ u ≠ silence ∧ headAbove i m ∧ memoryWf m = true := by
  cases m with
  | nil => simp [memoryWf, headAbove]
  | cons c rest =>
    obtain ⟨j, v⟩ := c
    simp [memoryWf, headAbove, and_assoc]

/-- In a canonical storage a slot below the first one listed holds its reset content. -/
theorem memRead_of_headAbove {i : Nat} {m : Memory} (h : memoryWf m = true) (ha : headAbove i m) :
    memRead m i = silence := by
  induction m with
  | nil => rfl
  | cons c rest ih =>
    obtain ⟨j, v⟩ := c
    rw [memoryWf_cons] at h
    obtain ⟨-, h2, h3⟩ := h
    have hij : i < j := ha
    rw [memRead, if_neg (by omega)]
    refine ih h3 ?_
    cases rest with
    | nil => trivial
    | cons d _ => exact lt_trans hij h2

theorem consCell_wf {i : Nat} {v : Pair} {m : Memory} (h : memoryWf m = true) (ha : headAbove i m) :
    memoryWf (consCell i v m) = true := by
  unfold consCell
  split
  · exact h
  · rename_i hv; exact memoryWf_cons.2 ⟨hv, ha, h⟩

theorem consCell_headAbove {k i : Nat} {v : Pair} {m : Memory} (hk : k < i) (ha : headAbove k m) :
    headAbove k (consCell i v m) := by
  unfold consCell
  split
  · exact ha
  · exact hk

theorem headAbove_mono {i j : Nat} (h : i ≤ j) : ∀ {m : Memory}, headAbove j m → headAbove i m
  | [], _ => trivial
  | (_, _) :: _, ha => lt_of_le_of_lt h ha

theorem memWrite_headAbove {k i : Nat} {v : Pair} {m : Memory} (hw : memoryWf m = true) (hk : k < i)
    (ha : headAbove k m) : headAbove k (memWrite m i v) := by
  cases m with
  | nil => exact consCell_headAbove hk trivial
  | cons c rest =>
    obtain ⟨j, u⟩ := c
    have hr : headAbove j rest := (memoryWf_cons.1 hw).2.1
    have hkj : k < j := ha
    unfold memWrite
    split
    · exact consCell_headAbove hk ha
    · split
      · exact consCell_headAbove hk (headAbove_mono (le_of_lt hkj) hr)
      · exact hkj

/-- Every write keeps the canonical form. -/
theorem memWrite_wf {m : Memory} (h : memoryWf m = true) (i : Nat) (v : Pair) : memoryWf (memWrite m i v) = true := by
  induction m with
  | nil => exact consCell_wf h trivial
  | cons c rest ih =>
    obtain ⟨j, u⟩ := c
    obtain ⟨h1, h2, h3⟩ := memoryWf_cons.1 h
    unfold memWrite
    split
    · rename_i hlt; exact consCell_wf h hlt
    · split
      · rename_i _ heq; subst heq; exact consCell_wf h3 h2
      · exact memoryWf_cons.2 ⟨h1, memWrite_headAbove h3 (by omega) h2, ih h3⟩

theorem memRead_consCell {i : Nat} {v : Pair} {m : Memory} (h : memoryWf m = true) (ha : headAbove i m) (k : Nat) :
    memRead (consCell i v m) k = if k = i then v else memRead m k := by
  unfold consCell
  by_cases hv : v = silence
  · rw [if_pos hv]
    split
    · rename_i hk; subst hk; rw [hv]; exact memRead_of_headAbove h ha
    · rfl
  · rw [if_neg hv, memRead]

/-- A read after a write: the value written in the slot written, and every other slot as before. -/
theorem memRead_memWrite {m : Memory} (h : memoryWf m = true) (i : Nat) (v : Pair) (k : Nat) :
    memRead (memWrite m i v) k = if k = i then v else memRead m k := by
  induction m with
  | nil => exact memRead_consCell h trivial k
  | cons c rest ih =>
    obtain ⟨j, u⟩ := c
    obtain ⟨h1, h2, h3⟩ := memoryWf_cons.1 h
    unfold memWrite
    split
    · rename_i hlt; exact memRead_consCell h hlt k
    · split
      · rename_i _ heq; subst heq
        rw [memRead_consCell h3 h2, memRead]
        split <;> rfl
      · rename_i hne1 hne2
        rw [memRead, memRead, ih h3]
        by_cases hkj : k = j
        · rw [if_pos hkj, if_pos hkj, if_neg (by omega)]
        · rw [if_neg hkj, if_neg hkj]

theorem memoryWithin_iff {n : Nat} {m : Memory} : memoryWithin n m = true ↔ ∀ cell ∈ m, cell.1 < n := by
  simp [memoryWithin, List.all_eq_true]

theorem consCell_within {n i : Nat} {v : Pair} {m : Memory} (hi : i < n) (h : memoryWithin n m = true) :
    memoryWithin n (consCell i v m) = true := by
  unfold consCell
  split
  · exact h
  · rw [memoryWithin_iff] at *
    intro cell hc
    rcases List.mem_cons.1 hc with rfl | hc
    · exact hi
    · exact h cell hc

/-- A write to one of the slots keeps the storage inside its slots. -/
theorem memWrite_within {n i : Nat} {v : Pair} {m : Memory} (hi : i < n) (h : memoryWithin n m = true) :
    memoryWithin n (memWrite m i v) = true := by
  induction m with
  | nil => exact consCell_within hi h
  | cons c rest ih =>
    obtain ⟨j, u⟩ := c
    have h' := memoryWithin_iff.1 h
    have hr : memoryWithin n rest = true := memoryWithin_iff.2 (fun c hc => h' c (List.mem_cons_of_mem _ hc))
    unfold memWrite
    split
    · exact consCell_within hi h
    · split
      · exact consCell_within hi hr
      · rw [memoryWithin_iff]
        intro cell hc
        rcases List.mem_cons.1 hc with rfl | hc
        · exact h' (j, u) List.mem_cons_self
        · exact memoryWithin_iff.1 (ih hr) cell hc

/-- Two canonical storages that read alike everywhere are the same list: equal memories are equal data. -/
theorem memory_ext {m m' : Memory} (h : memoryWf m = true) (h' : memoryWf m' = true)
    (hr : ∀ i, memRead m i = memRead m' i) : m = m' := by
  induction m generalizing m' with
  | nil =>
    cases m' with
    | nil => rfl
    | cons c rest =>
      obtain ⟨j, v⟩ := c
      have := hr j
      simp only [memRead, if_true] at this
      exact absurd this.symm (memoryWf_cons.1 h').1
  | cons c rest ih =>
    obtain ⟨i, u⟩ := c
    obtain ⟨h1, h2, h3⟩ := memoryWf_cons.1 h
    cases m' with
    | nil =>
      have := hr i
      simp only [memRead, if_true] at this
      exact absurd this h1
    | cons d rest' =>
      obtain ⟨j, v⟩ := d
      obtain ⟨h1', h2', h3'⟩ := memoryWf_cons.1 h'
      rcases Nat.lt_trichotomy i j with hij | rfl | hij
      · have := hr i
        rw [memRead_of_headAbove h' hij] at this
        simp only [memRead, if_true] at this
        exact absurd this h1
      · have e := hr i
        simp only [memRead, if_true] at e
        subst e
        congr 1
        refine ih h3 h3' (fun k => ?_)
        by_cases hk : k = i
        · subst hk; rw [memRead_of_headAbove h3 h2, memRead_of_headAbove h3' h2']
        · have := hr k
          simpa only [memRead, if_neg hk] using this
      · have := hr j
        rw [memRead_of_headAbove h hij] at this
        simp only [memRead, if_true] at this
        exact absurd this.symm h1'

end Sys2Proof.Machine
end

