-- ==== Sys2Proof/Laws/State.lean ====
section
/-!
SUPPORT. One lemma per field per update of the state, true by rfl, so that no later proof unfolds a record update.
-/

namespace Sys2Proof

/-! ## The instances of a per-channel register -/

@[simp] theorem PerChannel.get_set_same {α : Type} (p : PerChannel α) (c : Chan) (a : α) : (p.set c a).get c = a := by
  cases c <;> rfl

theorem PerChannel.get_set_other {α : Type} (p : PerChannel α) {c d : Chan} (a : α) (h : d ≠ c) :
    (p.set c a).get d = p.get d := by
  cases c <;> cases d <;> first | rfl | exact absurd rfl h

@[simp] theorem PerChannel.set_get {α : Type} (p : PerChannel α) (c : Chan) : p.set c (p.get c) = p := by
  cases c <;> rfl

theorem PerChannel.ext_get {α : Type} {p q : PerChannel α} (h : ∀ c, p.get c = q.get c) : p = q := by
  have h1 := h .c1
  have h2 := h .c2
  have h3 := h .c3
  cases p; cases q
  simp only [PerChannel.get] at h1 h2 h3
  subst h1 h2 h3; rfl

namespace Machine

/-! ## State.setChan -/

@[simp] theorem State.setChan_cfg (s : State) (c : Chan) (x : Channel) : (s.setChan c x).cfg = s.cfg := rfl
@[simp] theorem State.setChan_mgain (s : State) (c : Chan) (x : Channel) : (s.setChan c x).mgain = s.mgain := rfl
@[simp] theorem State.setChan_pullcnt (s : State) (c : Chan) (x : Channel) : (s.setChan c x).pullcnt = s.pullcnt := rfl
@[simp] theorem State.setChan_cmd (s : State) (c : Chan) (x : Channel) : (s.setChan c x).cmd = s.cmd := rfl
@[simp] theorem State.setChan_rsp (s : State) (c : Chan) (x : Channel) : (s.setChan c x).rsp = s.rsp := rfl
@[simp] theorem State.setChan_draws (s : State) (c : Chan) (x : Channel) : (s.setChan c x).draws = s.draws := rfl

@[simp] theorem State.setChan_chan_same (s : State) (c : Chan) (x : Channel) : (s.setChan c x).chan c = x :=
  PerChannel.get_set_same _ _ _

theorem State.setChan_chan_other (s : State) {c d : Chan} (x : Channel) (h : d ≠ c) :
    (s.setChan c x).chan d = s.chan d :=
  PerChannel.get_set_other _ _ h

/-! ## State.send -/

@[simp] theorem State.send_cfg (s : State) (w : Word) : (s.send w).cfg = s.cfg := rfl
@[simp] theorem State.send_chans (s : State) (w : Word) : (s.send w).chans = s.chans := rfl
@[simp] theorem State.send_chan (s : State) (w : Word) (c : Chan) : (s.send w).chan c = s.chan c := rfl
@[simp] theorem State.send_mgain (s : State) (w : Word) : (s.send w).mgain = s.mgain := rfl
@[simp] theorem State.send_pullcnt (s : State) (w : Word) : (s.send w).pullcnt = s.pullcnt := rfl
@[simp] theorem State.send_cmd (s : State) (w : Word) : (s.send w).cmd = s.cmd := rfl
@[simp] theorem State.send_rsp (s : State) (w : Word) : (s.send w).rsp = s.rsp ++ [w] := rfl
@[simp] theorem State.send_draws (s : State) (w : Word) : (s.send w).draws = s.draws := rfl

/-! ## State.resetEvent -/

@[simp] theorem State.resetEvent_cfg (s : State) (i : List Input) : (s.resetEvent i).cfg = s.cfg := rfl
@[simp] theorem State.resetEvent_mgain (s : State) (i : List Input) : (s.resetEvent i).mgain = F64.one := rfl
@[simp] theorem State.resetEvent_pullcnt (s : State) (i : List Input) : (s.resetEvent i).pullcnt = 0 := rfl
@[simp] theorem State.resetEvent_cmd (s : State) (i : List Input) : (s.resetEvent i).cmd = i := rfl
@[simp] theorem State.resetEvent_rsp (s : State) (i : List Input) : (s.resetEvent i).rsp = s.rsp := rfl
@[simp] theorem State.resetEvent_draws (s : State) (i : List Input) : (s.resetEvent i).draws = s.draws := rfl
@[simp] theorem State.resetEvent_chan (s : State) (i : List Input) (c : Chan) :
    (s.resetEvent i).chan c = Channel.reset := by cases c <;> rfl

/-! ## State.withInput -/

@[simp] theorem State.withInput_cfg (s : State) (xs : List Input) : (s.withInput xs).cfg = s.cfg := rfl
@[simp] theorem State.withInput_chans (s : State) (xs : List Input) : (s.withInput xs).chans = s.chans := rfl
@[simp] theorem State.withInput_chan (s : State) (xs : List Input) (c : Chan) : (s.withInput xs).chan c = s.chan c := rfl
@[simp] theorem State.withInput_mgain (s : State) (xs : List Input) : (s.withInput xs).mgain = s.mgain := rfl
@[simp] theorem State.withInput_pullcnt (s : State) (xs : List Input) : (s.withInput xs).pullcnt = s.pullcnt := rfl
@[simp] theorem State.withInput_cmd (s : State) (xs : List Input) : (s.withInput xs).cmd = xs := rfl
@[simp] theorem State.withInput_rsp (s : State) (xs : List Input) : (s.withInput xs).rsp = s.rsp := rfl
@[simp] theorem State.withInput_draws (s : State) (xs : List Input) : (s.withInput xs).draws = s.draws := rfl
@[simp] theorem State.withInput_withInput (s : State) (xs ys : List Input) :
    (s.withInput xs).withInput ys = s.withInput ys := rfl
@[simp] theorem State.withInput_self (s : State) : s.withInput s.cmd = s := rfl

/-! ## State.deliver -/

@[simp] theorem State.deliver_cfg (s : State) (xs : List Input) : (s.deliver xs).cfg = s.cfg := rfl
@[simp] theorem State.deliver_chans (s : State) (xs : List Input) : (s.deliver xs).chans = s.chans := rfl
@[simp] theorem State.deliver_cmd (s : State) (xs : List Input) : (s.deliver xs).cmd = s.cmd ++ xs := rfl
@[simp] theorem State.deliver_rsp (s : State) (xs : List Input) : (s.deliver xs).rsp = s.rsp := rfl

@[simp] theorem State.resetWith_chan (cfg : Cfg) (c : Chan) : (State.resetWith cfg).chan c = Channel.reset := by
  cases c <;> rfl

end Machine

end Sys2Proof
end

