-- ==== Sys2Proof/Laws/Dates.lean ====
section
/-!
SUPPORT. The laws of dates and samples: a date plus 1.0 is the next date, up to 2^53 where it stays; a stored sample is
finite and in the range of 40_ring_buffer R122; and what RB.PUSH and RB.CLEAR keep of a ring.
-/

namespace Sys2Proof

/-! ## Integers as FLOATs -/

theorem F64.ofInt_zero : F64.ofInt 0 = F64.zero := by
  unfold F64.ofInt F64.ofUnits; rw [Int.zero_mul, if_pos rfl]; rfl

theorem F64.ofInt_one : F64.ofInt 1 = F64.one := by
  obtain ⟨h1, h2⟩ := F64.ofInt_exact (i := 1) (by norm_num)
  exact F64.eq_of_toRat h1 rfl (by rw [h2, F64.toRat_one]; norm_num) (by rw [h2]; norm_num)

/-- An integer of magnitude up to 2^53 plus 1.0 is the next integer, if that is not zero. -/
theorem F64.ofInt_add_one {k : Nat} (h : k < 2 ^ 53) : (F64.ofInt k).add F64.one = F64.ofInt (k + 1 : Nat) := by
  obtain ⟨h1, h2⟩ := F64.ofInt_exact (i := k) (by simpa using h.le)
  obtain ⟨h3, h4⟩ := F64.ofInt_exact (i := (k + 1 : Nat)) (by omega)
  obtain ⟨h5, h6⟩ := F64.add_exact h1 F64.one_isFinite h3
    (by rw [h2, h4, F64.toRat_one]; push_cast; ring)
  refine F64.eq_of_toRat h5 h3 h6 ?_
  rw [h6, h4]
  push_cast
  positivity

/-- At 2^53 the sum rounds back (R125). -/
theorem F64.ofInt_limit_add_one : (F64.ofInt (2 ^ 53 : Nat)).add F64.one = F64.ofInt (2 ^ 53 : Nat) := by
  decide +kernel

theorem F64.ofInt_inj {a b : Nat} (ha : a ≤ 2 ^ 53) (hb : b ≤ 2 ^ 53) (h : F64.ofInt a = F64.ofInt b) : a = b := by
  have h1 := (F64.ofInt_exact (i := a) (by simpa using ha)).2
  have h2 := (F64.ofInt_exact (i := b) (by simpa using hb)).2
  rw [h, h2] at h1
  exact_mod_cast h1.symm

namespace Machine

/-! ## Dates -/

theorem IsDate.zero : IsDate F64.zero := ⟨0, by norm_num, by rw [Nat.cast_zero, F64.ofInt_zero]⟩

theorem IsDate.spec {x : F64} (h : IsDate x) :
    x.isFinite = true ∧ ∃ k : Nat, k ≤ 2 ^ 53 ∧ x.toRat = k ∧ x = F64.ofInt k := by
  obtain ⟨k, hk, rfl⟩ := h
  obtain ⟨h1, h2⟩ := F64.ofInt_exact (i := k) (by simpa using hk)
  exact ⟨h1, k, hk, by simpa using h2, rfl⟩

/-- A date plus 1.0 is a date. -/
theorem IsDate.add_one {x : F64} (h : IsDate x) : IsDate (x.add F64.one) := by
  obtain ⟨k, hk, rfl⟩ := h
  rcases Nat.lt_or_ge k (2 ^ 53) with hlt | hge
  · exact ⟨k + 1, hlt, F64.ofInt_add_one hlt⟩
  · obtain rfl : k = 2 ^ 53 := le_antisymm hk hge
    exact ⟨2 ^ 53, le_refl _, F64.ofInt_limit_add_one⟩

/-! ## Samples -/

theorem sampleOf_bounds (w : Word) : -8388608 ≤ sampleOf w ∧ sampleOf w ≤ 8388607 := by
  unfold sampleOf
  generalize w.extractLsb' 0 24 = v
  have h1 := BitVec.le_toInt v
  have h2 := BitVec.toInt_lt (x := v)
  constructor <;> omega

/-- A normalised sample is finite and lies in [-2, 1]; from -1 up for every sample but the least. -/
theorem norm24_bounds (w : Word) :
    (norm24 w).isFinite = true ∧ -2 ≤ (norm24 w).toRat ∧ (norm24 w).toRat ≤ 1 ∧
      (sampleOf w ≠ -8388608 → -1 ≤ (norm24 w).toRat) := by
  obtain ⟨hl, hu⟩ := sampleOf_bounds w
  obtain ⟨hf, hv⟩ := F64.ofInt_exact (i := sampleOf w) (by omega)
  have hlq : (-8388608 : ℚ) ≤ (sampleOf w : ℚ) := by exact_mod_cast hl
  have huq : (sampleOf w : ℚ) ≤ 8388607 := by exact_mod_cast hu
  have hFS := F64.toRat_fullScale
  have hone := F64.toRat_one
  have hFS0 : (0 : ℚ) < F64.fullScale.toRat := by rw [hFS]; norm_num
  obtain ⟨h2f, h2v⟩ := F64.ofInt_exact (i := -2) (by norm_num)
  obtain ⟨h1f, h1v⟩ := F64.ofInt_exact (i := -1) (by norm_num)
  have up : (F64.ofInt (sampleOf w)).toRat / F64.fullScale.toRat ≤ F64.one.toRat := by
    rw [hv, hFS, hone, div_le_one (by norm_num)]; exact huq
  obtain ⟨a, b, c⟩ := F64.div_between (lo := F64.ofInt (-2)) hf F64.fullScale_isFinite hFS0 h2f F64.one_isFinite
    (by rw [hv, hFS, h2v, le_div_iff₀ (by norm_num)]; push_cast; linarith) up
  refine ⟨a, by rw [h2v] at b; exact_mod_cast b, by rw [hone] at c; exact c, fun hne => ?_⟩
  have hl' : -8388607 ≤ sampleOf w := by omega
  have hlq' : (-8388607 : ℚ) ≤ (sampleOf w : ℚ) := by exact_mod_cast hl'
  obtain ⟨-, b', -⟩ := F64.div_between (lo := F64.ofInt (-1)) hf F64.fullScale_isFinite hFS0 h1f F64.one_isFinite
    (by rw [hv, hFS, h1v, le_div_iff₀ (by norm_num)]; push_cast; linarith) up
  rw [h1v] at b'
  exact_mod_cast b'

theorem norm24_zero : norm24 0 = F64.zero := by decide +kernel

theorem silence_isSample : IsSample silence.l ∧ IsSample silence.r :=
  ⟨⟨0, norm24_zero.symm⟩, ⟨0, norm24_zero.symm⟩⟩

theorem IsSample.finite {x : F64} (h : IsSample x) : x.isFinite = true ∧ -2 ≤ x.toRat ∧ x.toRat ≤ 1 := by
  obtain ⟨w, rfl⟩ := h
  obtain ⟨a, b, c, -⟩ := norm24_bounds w
  exact ⟨a, b, c⟩

/-! ## What the ring's operations keep -/

theorem RingInv.reset {cfg : Cfg} (h : 0 < cfg.n) : RingInv cfg Ring.reset where
  canonical := rfl
  within := rfl
  samples _ := silence_isSample
  cursor := h
  date := IsDate.zero

/-- RB.PUSH keeps the invariant of a ring. -/
theorem RingInv.push {cfg : Cfg} {r : Ring} (h : RingInv cfg r) (p : WordPair) : RingInv cfg (ringPush cfg r p) where
  canonical := memWrite_wf h.canonical _ _
  within := memWrite_within h.cursor h.within
  samples i := by
    show IsSample (memRead (memWrite r.mem r.cursor (normPair p)) i).l ∧ _
    rw [show (ringPush cfg r p).mem = memWrite r.mem r.cursor (normPair p) from rfl,
      memRead_memWrite h.canonical]
    split
    · exact ⟨⟨p.l, rfl⟩, ⟨p.r, rfl⟩⟩
    · exact h.samples i
  cursor := Nat.mod_lt _ (lt_of_le_of_lt (Nat.zero_le _) h.cursor)
  date := h.date.add_one

/-- RB.CLEAR keeps the invariant of a ring. -/
theorem RingInv.clear {cfg : Cfg} {r : Ring} (h : RingInv cfg r) : RingInv cfg (ringClear r) where
  canonical := h.canonical
  within := h.within
  samples := h.samples
  cursor := lt_of_le_of_lt (Nat.zero_le _) h.cursor
  date := IsDate.zero

end Machine

end Sys2Proof
end

