-- ==== Sys2Proof/Laws/Detect.lean ====
section
/-!
SUPPORT. The laws of the rate detector: what CLASSIFY can answer, what a legal configuration bounds, and everything
DETECT can do to a channel.
-/

namespace Sys2Proof.Machine

/-! ## CLASSIFY -/

theorem inBand_iff {cfg : Cfg} {c : Chan} {n hz : Nat} :
    inBand cfg c n hz = true ↔ bandLow cfg c hz ≤ (n : Int) ∧ (n : Int) ≤ bandHigh cfg c hz := by
  unfold inBand; rw [Bool.and_eq_true, decide_eq_true_iff, decide_eq_true_iff]

theorem firstMatch_some {cfg : Cfg} {c : Chan} {n : Nat} {rs : List (Rate × Nat)} {rho : Rate × Nat}
    (h : firstMatch cfg c n rs = some rho) : rho ∈ rs ∧ inBand cfg c n rho.2 = true := by
  induction rs with
  | nil => cases h
  | cons a rest ih =>
    rw [firstMatch] at h
    split at h
    · rename_i hb; cases h; exact ⟨List.mem_cons_self, hb⟩
    · obtain ⟨h1, h2⟩ := ih h; exact ⟨List.mem_cons_of_mem _ h1, h2⟩

theorem firstMatch_none {cfg : Cfg} {c : Chan} {n : Nat} {rs : List (Rate × Nat)} :
    firstMatch cfg c n rs = none ↔ ∀ rho ∈ rs, inBand cfg c n rho.2 = false := by
  induction rs with
  | nil => simp [firstMatch]
  | cons a rest ih =>
    rw [firstMatch]
    cases hb : inBand cfg c n a.2 <;> simp [hb, ih]

/-- In a list of pairwise disjoint bands, the first band that holds n is the only one. -/
theorem firstMatch_unique {cfg : Cfg} {c : Chan} {n : Nat} {rs : List (Rate × Nat)}
    (hd : allDisjoint cfg c rs = true) {rho : Rate × Nat} (hm : rho ∈ rs) (hb : inBand cfg c n rho.2 = true) :
    firstMatch cfg c n rs = some rho := by
  induction rs with
  | nil => cases hm
  | cons a rest ih =>
    rw [allDisjoint, Bool.and_eq_true, List.all_eq_true] at hd
    rw [firstMatch]
    rcases List.mem_cons.1 hm with rfl | hr
    · rw [if_pos hb]
    · have hdis := hd.1 rho hr
      have ha : inBand cfg c n a.2 = false := by
        rw [← Bool.not_eq_true, inBand_iff]
        rw [inBand_iff] at hb
        unfold bandsDisjoint at hdis
        rw [Bool.or_eq_true, decide_eq_true_iff, decide_eq_true_iff] at hdis
        omega
      rw [if_neg (by rw [ha]; exact Bool.false_ne_true)]
      exact ih hd.2 hr

/-- The list's rates are those of `rateHz`, each with its own frequency. -/
theorem mem_ratesList {cfg : Cfg} {r : Rate} {hz : Nat} : (r, hz) ∈ ratesList cfg ↔ rateHz cfg r = some hz := by
  unfold ratesList rateHz
  cases r <;> cases hm : cfg.midRate <;> simp [eq_comm]

theorem rate_ne_nosync {cfg : Cfg} {r : Rate} {hz : Nat} (h : rateHz cfg r = some hz) : r ≠ .nosync := by
  rintro rfl; cases h

theorem classify_some {cfg : Cfg} {c : Chan} {n : Nat} {rho : Rate × Nat} (h : classify cfg c n = some rho) :
    rateHz cfg rho.1 = some rho.2 ∧ inBand cfg c n rho.2 = true := by
  obtain ⟨h1, h2⟩ := firstMatch_some h
  exact ⟨mem_ratesList.1 h1, h2⟩

/-! ## What legality gives -/

theorem legalConfig_iff {cfg : Cfg} : legalConfig cfg = true ↔
    legalSizes cfg = true ∧ legalFilter cfg = true ∧ legalMidRate cfg = true ∧ ∀ c, legalChannel cfg c = true := by
  unfold legalConfig
  simp only [Bool.and_eq_true]
  constructor
  · rintro ⟨h1, h2, h3, h4, h5, h6⟩
    exact ⟨h1, h2, h3, fun c => by cases c <;> assumption⟩
  · rintro ⟨h1, h2, h3, h4⟩
    exact ⟨h1, h2, h3, h4 _, h4 _, h4 _⟩

theorem legal_sizes {cfg : Cfg} (h : legalConfig cfg = true) :
    2 ≤ cfg.n ∧ 1 ≤ cfg.bOut ∧ 1 ≤ cfg.w ∧ 1 ≤ cfg.persist := by
  have := (legalConfig_iff.1 h).1
  unfold legalSizes at this
  exact of_decide_eq_true this

theorem legal_burst {cfg : Cfg} (h : legalConfig cfg = true) (c : Chan) :
    1 ≤ cfg.bIn.get c ∧ 2 * cfg.bIn.get c < cfg.n := by
  have := (legalConfig_iff.1 h).2.2.2 c
  unfold legalChannel legalBurst at this
  simp only [Bool.and_eq_true, decide_eq_true_iff] at this
  exact this.1

theorem legal_bands {cfg : Cfg} (h : legalConfig cfg = true) (c : Chan) :
    allDisjoint cfg c (ratesList cfg) = true ∧
      ∀ r hz, rateHz cfg r = some hz → 1 ≤ bandLow cfg c hz ∧ bandHigh cfg c hz < 2 ^ 32 - 1 := by
  have := (legalConfig_iff.1 h).2.2.2 c
  unfold legalChannel legalBands at this
  rw [Bool.and_eq_true, Bool.and_eq_true, List.all_eq_true] at this
  obtain ⟨-, h1, h2⟩ := this
  exact ⟨h1, fun r hz hr => of_decide_eq_true (h2 (r, hz) (mem_ratesList.2 hr))⟩

theorem legal_filter {cfg : Cfg} (h : legalConfig cfg = true) :
    cfg.kp.isFinite = true ∧ F64.zero.lt cfg.kp = true ∧ F64.zero.lt cfg.alpha = true ∧ cfg.alpha.lt F64.one = true := by
  have := (legalConfig_iff.1 h).2.1
  unfold legalFilter at this
  simpa only [Bool.and_eq_true] using this

/-- The coefficient of the moving average is a finite value between 0 and 1. -/
theorem legal_alpha {cfg : Cfg} (h : legalConfig cfg = true) :
    cfg.alpha.isFinite = true ∧ 0 < cfg.alpha.toRat ∧ cfg.alpha.toRat < 1 := by
  obtain ⟨-, -, h1, h2⟩ := legal_filter h
  have hf : cfg.alpha.isFinite = true := by
    cases ha : cfg.alpha with
    | nan => rw [ha] at h1; simp [F64.lt, F64.zero] at h1
    | inf s => rw [ha] at h1 h2; cases s <;> simp [F64.lt, F64.zero, F64.one] at h1 h2
    | fin s e f => rfl
  rw [F64.lt_iff F64.zero_isFinite hf, F64.toRat_zero] at h1
  rw [F64.lt_iff hf F64.one_isFinite, F64.toRat_one] at h2
  exact ⟨hf, h1, h2⟩

/-- A rate of a legal configuration lies between 1 Hz and 2^48 Hz. -/
theorem legal_hz {cfg : Cfg} (h : legalConfig cfg = true) {r : Rate} {hz : Nat} (hr : rateHz cfg r = some hz) :
    1 ≤ hz ∧ hz < 2 ^ 48 := by
  obtain ⟨h1, h2⟩ := (legal_bands h .c1).2 r hz hr
  have hw := (legal_sizes h).2.2.1
  unfold bandLow at h1
  unfold bandHigh at h2
  unfold expectCount at h1 h2
  constructor
  · by_contra hlt
    obtain rfl : hz = 0 := by omega
    norm_num at h1
    omega
  · have hle : hz ≤ cfg.w * hz := Nat.le_mul_of_pos_left _ hw
    omega

/-- A channel that counted nothing matches nothing (R153 (b)). -/
theorem classify_zero {cfg : Cfg} (h : legalConfig cfg = true) (c : Chan) : classify cfg c 0 = none := by
  unfold classify
  rw [firstMatch_none]
  rintro ⟨r, hz⟩ hm
  have h1 := ((legal_bands h c).2 r hz (mem_ratesList.1 hm)).1
  rw [← Bool.not_eq_true, inBand_iff]
  intro hb
  have := hb.1
  simp only [Nat.cast_zero] at this
  omega

/-! ## The nominal factor -/

/-- A power of two as a FLOAT. -/
theorem toRat_powTwo {e : Fin 2047} (he : 1 ≤ e.val) (h : e.val ≤ 1075) :
    (F64.fin false e 0).toRat = 2 ^ 52 / 2 ^ (1075 - e.val) := by
  have hm : F64.magnitude e 0 = 2 ^ 52 * 2 ^ (e.val - 1) := by
    unfold F64.magnitude F64.significand
    rw [if_neg (by omega)]; simp
  rw [F64.toRat_of_magnitude hm (by omega)]
  rw [show 1074 - (e.val - 1) = 1075 - e.val by omega]
  norm_num

/-- The nominal factor of a legal rate is finite and lies between 2^-16 and 2^33. -/
theorem nominalFactor_bounds {hz : Nat} (h1 : 1 ≤ hz) (h2 : hz < 2 ^ 48) :
    (nominalFactor hz).isFinite = true ∧ 1 / 2 ^ 16 ≤ (nominalFactor hz).toRat ∧
      (nominalFactor hz).toRat ≤ 2 ^ 33 := by
  obtain ⟨a, b⟩ := F64.ofInt_exact (i := hz) (by omega)
  obtain ⟨c, d⟩ := F64.ofInt_exact (i := 48000) (by norm_num)
  obtain ⟨e, f⟩ := F64.ofInt_exact (i := 2 ^ 33) (by norm_num)
  have hlo : (F64.fin false 1007 0).toRat = 1 / 2 ^ 16 := by
    rw [toRat_powTwo (e := 1007) (by decide) (by decide)]
    rw [show (1007 : Fin 2047).val = 1007 from rfl]; norm_num
  have hq1 : (1 : ℚ) ≤ hz := by exact_mod_cast h1
  have hq2 : (hz : ℚ) < 2 ^ 48 := by exact_mod_cast h2
  have hd : F64.fout.toRat = 48000 := by unfold F64.fout; rw [d]; norm_num
  obtain ⟨x, y, z⟩ := F64.div_between (x := F64.ofInt hz) (y := F64.fout) (lo := F64.fin false 1007 0)
    (hi := F64.ofInt (2 ^ 33)) a c (by rw [hd]; norm_num) rfl e
    (by rw [hlo, hd, b, le_div_iff₀ (by norm_num)]; push_cast; linarith)
    (by rw [f, hd, b, div_le_iff₀ (by norm_num)]; push_cast; linarith)
  refine ⟨x, by rw [← hlo]; exact y, ?_⟩
  rw [f] at z
  exact_mod_cast z

theorem nominalFactor_spec {cfg : Cfg} (h : legalConfig cfg = true) {r : Rate} {hz : Nat}
    (hr : rateHz cfg r = some hz) :
    (nominalFactor hz).isFinite = true ∧ 1 / 2 ^ 16 ≤ (nominalFactor hz).toRat ∧
      (nominalFactor hz).toRat ≤ 2 ^ 33 := by
  obtain ⟨h1, h2⟩ := legal_hz h hr
  exact nominalFactor_bounds h1 h2

theorem driftCeiling_value : driftCeiling.toRat = 2 ^ 64 := by
  have hm : F64.magnitude 1087 0 = 2 ^ 64 * 2 ^ 1074 := by
    unfold F64.magnitude F64.significand
    rw [show (1087 : Fin 2047).val = 1087 from rfl, if_neg (by norm_num), show (0 : BitVec 52).toNat = 0 from rfl,
      Nat.add_zero, ← pow_add, ← pow_add]
  unfold driftCeiling
  rw [F64.toRat_of_magnitude hm (by norm_num)]
  norm_num

/-- A channel that has just locked meets the invariant of a synchronised channel. -/
theorem SyncedInv.fresh {cfg : Cfg} (h : legalConfig cfg = true) {ch : Channel} {hz : Nat}
    (hr : rateHz cfg ch.rate = some hz) (hn : ch.nominal = nominalFactor hz) (hd : ch.drift = nominalFactor hz) :
    SyncedInv cfg ch := by
  obtain ⟨a, b, c⟩ := nominalFactor_spec h hr
  refine ⟨⟨hz, hr, hn⟩, by rw [hd]; exact a, ?_, ?_⟩
  · rw [hd, F64.lt_iff F64.zero_isFinite a, F64.toRat_zero]
    exact lt_of_lt_of_le (by positivity) b
  · rw [hd, F64.le_iff a rfl, driftCeiling_value]
    exact le_trans c (by norm_num)

/-! ## DETECT -/

/-- Everything DETECT can do to a channel. -/
theorem detect_cases (cfg : Cfg) (c : Chan) (ch : Channel) :
    (classify cfg c ch.incount.toNat = none ∧ detect cfg c ch = { enterNoSync ch with incount := 0 }) ∨
    (∃ hz, classify cfg c ch.incount.toNat = some (ch.rate, hz) ∧
      detect cfg c ch = { ch with cand := .nosync, candcnt := 0, incount := 0 }) ∨
    (∃ m hz k, classify cfg c ch.incount.toNat = some (m, hz) ∧ m ≠ ch.rate ∧
      k = (if m = ch.cand then ch.candcnt + 1 else 1) ∧
      ((k < cfg.persist ∧ detect cfg c ch = { ch with cand := m, candcnt := k, incount := 0 }) ∨
       (cfg.persist ≤ k ∧ detect cfg c ch = { freshLock m (nominalFactor hz) ch with incount := 0 }))) := by
  unfold detect detectDecision
  cases hcl : classify cfg c ch.incount.toNat with
  | none => exact .inl ⟨rfl, rfl⟩
  | some rho =>
    obtain ⟨m, hz⟩ := rho
    right
    by_cases hm : m = ch.rate
    · subst hm
      refine .inl ⟨hz, rfl, ?_⟩
      simp only [if_true]
      rfl
    · refine .inr ⟨m, hz, _, rfl, hm, rfl, ?_⟩
      have hcc : countCandidate m ch = { ch with cand := m, candcnt := if m = ch.cand then ch.candcnt + 1 else 1 } := by
        unfold countCandidate
        by_cases hc : m = ch.cand
        · rw [if_pos hc, if_pos hc, hc]
        · rw [if_neg hc, if_neg hc]
      simp only [hm, if_false]
      unfold detectNewRate
      rw [hcc]
      by_cases hp : (if m = ch.cand then ch.candcnt + 1 else 1) ≥ cfg.persist
      · refine .inr ⟨hp, ?_⟩
        rw [if_pos hp]
        rfl
      · refine .inl ⟨by omega, ?_⟩
        rw [if_neg hp]

/-- DETECT keeps the invariant of a channel. -/
theorem ChannelInv.detect {cfg : Cfg} (hl : legalConfig cfg = true) {ch : Channel} (h : ChannelInv cfg ch) (c : Chan) :
    ChannelInv cfg (Machine.detect cfg c ch) := by
  have hp := (legal_sizes hl).2.2.2
  rcases detect_cases cfg c ch with ⟨-, he⟩ | ⟨hz, -, he⟩ | ⟨m, hz, k, hcl, hm, hk, hc⟩
  · rw [he]
    exact ⟨h.ring.clear, IsDate.zero, fun _ => rfl, fun hn => absurd rfl hn, ⟨fun _ => rfl, fun _ => rfl⟩,
      hp⟩
  · rw [he]
    exact ⟨h.ring, h.outdate, h.unsynced, fun hr => ⟨(h.synced hr).nominal, (h.synced hr).finite,
      (h.synced hr).positive, (h.synced hr).bounded⟩, ⟨fun _ => rfl, fun _ => rfl⟩, hp⟩
  · obtain ⟨hr, -⟩ := classify_some hcl
    have hmn := rate_ne_nosync hr
    have hk0 : k ≠ 0 := by rw [hk]; split <;> omega
    rcases hc with ⟨hlt, he⟩ | ⟨-, he⟩
    · rw [he]
      exact ⟨h.ring, h.outdate, h.unsynced, fun hr => ⟨(h.synced hr).nominal, (h.synced hr).finite,
        (h.synced hr).positive, (h.synced hr).bounded⟩, ⟨fun hc => absurd hc hmn, fun hc => absurd hc hk0⟩, hlt⟩
    · rw [he]
      exact ⟨h.ring.clear, IsDate.zero, fun hn => absurd hn hmn, fun _ => SyncedInv.fresh hl hr rfl rfl,
        ⟨fun _ => rfl, fun _ => rfl⟩, hp⟩

/-- What DETECT never touches (R162). -/
theorem detect_frame (cfg : Cfg) (c : Chan) (ch : Channel) :
    (detect cfg c ch).gain = ch.gain ∧ (detect cfg c ch).ring.mem = ch.ring.mem ∧ (detect cfg c ch).incount = 0 := by
  rcases detect_cases cfg c ch with ⟨-, he⟩ | ⟨hz, -, he⟩ | ⟨m, hz, k, hcl, hm, hk, ⟨-, he⟩ | ⟨-, he⟩⟩ <;>
    rw [he] <;> exact ⟨rfl, rfl, rfl⟩

end Sys2Proof.Machine
end

