-- ==== Sys2Proof/Laws/DriftFilter.lean ====
section
/-!
SUPPORT. The laws of the drift filter: the read date of a synchronised channel is finite, the clamp never leaves its
bounds, the moving average stays above 0 and below the ceiling, so DRIFT.ADJ keeps a synchronised channel
synchronised (43_drift_filter R171, R175, R178).
-/

namespace Sys2Proof.Machine

/-! ## Bounds by powers of two -/

theorem ofInt_two_pow {k : Nat} (h : k ≤ 53) : (F64.ofInt (2 ^ k)).isFinite = true ∧ (F64.ofInt (2 ^ k)).toRat = 2 ^ k := by
  obtain ⟨a, b⟩ := F64.ofInt_exact (i := 2 ^ k) (by
    rw [Int.natAbs_pow]; exact Nat.pow_le_pow_right (by norm_num) h)
  exact ⟨a, by rw [b]; push_cast; rfl⟩

/-- A FLOAT of value 2^k, for k up to 900, and its negative: the bounds of the estimates. -/
theorem exists_two_pow (k : Nat) (h : k ≤ 900) :
    ∃ hi lo : F64, hi.isFinite = true ∧ lo.isFinite = true ∧ hi.toRat = 2 ^ k ∧ lo.toRat = -2 ^ k := by
  obtain ⟨e, f, hm⟩ := F64.exists_magnitude (r := 1) (k := 1074 + k) (by norm_num) (by omega)
  have hs : F64.one1074 * 2 ^ k = F64.magnitude e f := by rw [hm, Nat.one_mul, F64.one1074_eq, pow_add]
  have hv : (F64.fin false e f).toRat = 2 ^ k := by
    have hp := F64.scale_pos
    unfold F64.toRat
    rw [F64.units_fin, ← hs]
    simp only [F64.signed, Bool.false_eq_true, if_false]
    push_cast
    field_simp
  exact ⟨.fin false e f, (F64.fin false e f).neg, rfl, rfl, hv, by rw [F64.toRat_neg, hv]⟩

/-- A value of magnitude at most 1 times a power of two is a FLOAT's value again. -/
theorem exists_scaled {x : F64} (hx : x.isFinite = true) (h0 : 0 ≤ x.toRat) (h1 : x.toRat ≤ 1) {k : Nat}
    (hk : k ≤ 900) : ∃ y : F64, y.isFinite = true ∧ y.toRat = 2 ^ k * x.toRat := by
  have hz : F64.zero.units = 0 := by unfold F64.zero; rw [F64.units_fin, F64.magnitude_zero]; rfl
  have hu0 : 0 ≤ x.units := by
    rw [← hz, F64.units_le_iff, F64.toRat_zero]; exact h0
  have hu1 : x.units ≤ F64.one1074 := by
    have h := F64.units_le_iff.2 (show x.toRat ≤ F64.one.toRat by rw [F64.toRat_one]; exact h1)
    have h2 : (F64.one.units : ℚ) = (F64.one1074 : Int) := by rw [F64.units_eq_toRat, F64.toRat_one, one_mul]; rfl
    have h3 : F64.one.units = F64.one1074 := by exact_mod_cast h2
    rwa [h3] at h
  obtain ⟨m, -, hm⟩ := F64.exists_bits_of_nonneg hx hu0
  have key : ∃ e f, F64.magnitude e f = F64.magnitudeOfBits m * 2 ^ k := by
    rcases F64.bits_cases m with hs | ⟨j, r, hj, hr1, hr2⟩
    · rw [F64.magnitudeOfBits_small (by omega)]
      exact F64.exists_magnitude (by omega) (by omega)
    · have hjm : F64.magnitudeOfBits m = r * 2 ^ j := by rw [hj, F64.magnitudeOfBits_normal _ _ hr1 hr2.le]
      have hjl : j ≤ 1074 := by
        by_contra hlt
        have h2 : F64.magnitudeOfBits m ≤ 2 ^ 1074 := by
          rw [← F64.one1074_eq]; exact_mod_cast hm ▸ hu1
        have h3 : 2 ^ 1074 < 2 ^ j := Nat.pow_lt_pow_right (by norm_num) (by omega)
        have h4 : 2 ^ j ≤ r * 2 ^ j := Nat.le_mul_of_pos_left _ (by omega)
        rw [hjm] at h2
        exact absurd (lt_of_lt_of_le h3 h4) (not_lt.2 h2)
      rw [hjm, Nat.mul_assoc, ← pow_add]
      exact F64.exists_magnitude (by omega) (by omega)
  obtain ⟨e, f, he⟩ := key
  refine ⟨.fin false e f, rfl, ?_⟩
  unfold F64.toRat
  rw [F64.units_fin, he, ← hm]
  simp only [F64.signed, Bool.false_eq_true, if_false]
  push_cast
  ring

/-- The greatest FLOAT below 1.0 is 1 - 2^-53. -/
theorem le_of_lt_one {x : F64} (hx : x.isFinite = true) (h0 : 0 ≤ x.toRat) (h1 : x.toRat < 1) :
    x.toRat ≤ 1 - 1 / 2 ^ 53 := by
  have hz : F64.zero.units = 0 := by unfold F64.zero; rw [F64.units_fin, F64.magnitude_zero]; rfl
  have hu0 : 0 ≤ x.units := by
    rw [← hz, F64.units_le_iff, F64.toRat_zero]; exact h0
  have hlt : x.units < F64.magnitude 1023 0 := by
    have h := F64.units_lt_iff.2 (show x.toRat < F64.one.toRat by rw [F64.toRat_one]; exact h1)
    unfold F64.one at h; rw [F64.units_fin] at h; exact h
  obtain ⟨m, -, hm⟩ := F64.exists_bits_of_nonneg hx hu0
  rw [← hm, F64.magnitude_eq] at hlt
  have hml := F64.magnitudeOfBits_strictMono.lt_iff_lt.1 (Int.ofNat_lt.1 hlt)
  have hb : F64.bits63 1023 0 = 1021 * 2 ^ 52 + (2 ^ 53 - 1) + 1 := by decide
  have hle : m ≤ 1021 * 2 ^ 52 + (2 ^ 53 - 1) := by omega
  have hmag := F64.magnitudeOfBits_le.2 hle
  rw [F64.magnitudeOfBits_normal _ _ (by norm_num) (by norm_num)] at hmag
  have hs : F64.one1074 = 2 ^ 53 * 2 ^ 1021 := by rw [F64.one1074_eq, ← pow_add]
  have hp : 0 < (2 : Nat) ^ 1021 := Nat.pow_pos (by norm_num)
  unfold F64.toRat
  rw [← hm, hs]
  generalize (2 : Nat) ^ 1021 = P at *
  have hq : ((F64.magnitudeOfBits m : Nat) : ℚ) ≤ ((2 ^ 53 - 1 : Nat) : ℚ) * P := by exact_mod_cast hmag
  have hPq : (0 : ℚ) < P := by exact_mod_cast hp
  rw [Int.cast_natCast, div_le_iff₀ (by positivity)]
  push_cast at hq ⊢
  norm_num at hq ⊢
  linarith

theorem mul_bound {x y : F64} (hx : x.isFinite = true) (hy : y.isFinite = true) {k : Nat} (hk : k ≤ 900)
    (h : |x.toRat * y.toRat| ≤ 2 ^ k) : (x.mul y).isFinite = true ∧ |(x.mul y).toRat| ≤ 2 ^ k := by
  obtain ⟨hi, lo, a, b, c, d⟩ := exists_two_pow k hk
  rw [abs_le] at h
  obtain ⟨p, q, r⟩ := F64.mul_between hx hy b a (by rw [d]; exact h.1) (by rw [c]; exact h.2)
  exact ⟨p, abs_le.2 ⟨by rw [← d]; exact q, by rw [← c]; exact r⟩⟩

theorem sub_bound {x y : F64} (hx : x.isFinite = true) (hy : y.isFinite = true) {k : Nat} (hk : k ≤ 900)
    (h : |x.toRat - y.toRat| ≤ 2 ^ k) : (x.sub y).isFinite = true ∧ |(x.sub y).toRat| ≤ 2 ^ k := by
  obtain ⟨hi, lo, a, b, c, d⟩ := exists_two_pow k hk
  rw [abs_le] at h
  obtain ⟨p, q, r⟩ := F64.sub_between hx hy b a (by rw [d]; exact h.1) (by rw [c]; exact h.2)
  exact ⟨p, abs_le.2 ⟨by rw [← d]; exact q, by rw [← c]; exact r⟩⟩

theorem add_bound {x y : F64} (hx : x.isFinite = true) (hy : y.isFinite = true) {k : Nat} (hk : k ≤ 900)
    (h : |x.toRat + y.toRat| ≤ 2 ^ k) : (x.add y).isFinite = true ∧ |(x.add y).toRat| ≤ 2 ^ k := by
  obtain ⟨hi, lo, a, b, c, d⟩ := exists_two_pow k hk
  rw [abs_le] at h
  obtain ⟨p, q, r⟩ := F64.add_between hx hy b a (by rw [d]; exact h.1) (by rw [c]; exact h.2)
  exact ⟨p, abs_le.2 ⟨by rw [← d]; exact q, by rw [← c]; exact r⟩⟩

theorem div_bound {x y : F64} (hx : x.isFinite = true) (hy : y.isFinite = true) (hy0 : 0 < y.toRat) {k : Nat}
    (hk : k ≤ 900) (h : |x.toRat / y.toRat| ≤ 2 ^ k) : (x.div y).isFinite = true ∧ |(x.div y).toRat| ≤ 2 ^ k := by
  obtain ⟨hi, lo, a, b, c, d⟩ := exists_two_pow k hk
  rw [abs_le] at h
  obtain ⟨p, q, r⟩ := F64.div_between hx hy hy0 b a (by rw [d]; exact h.1) (by rw [c]; exact h.2)
  exact ⟨p, abs_le.2 ⟨by rw [← d]; exact q, by rw [← c]; exact r⟩⟩

/-! ## The read date and the error -/

/-- The target age is B_IN[c] exactly, from 1 up (R172: no division by zero). -/
theorem targetAge_spec {cfg : Cfg} (hl : legalConfig cfg = true) (hn : cfg.n < 2 ^ 53) (c : Chan) :
    (targetAge cfg c).isFinite = true ∧ (targetAge cfg c).toRat = cfg.bIn.get c ∧ 1 ≤ (targetAge cfg c).toRat ∧
      (targetAge cfg c).toRat ≤ 2 ^ 53 := by
  obtain ⟨h1, h2⟩ := legal_burst hl c
  obtain ⟨a, b⟩ := F64.ofInt_exact (i := cfg.bIn.get c) (by omega)
  have h3 : (1 : ℚ) ≤ cfg.bIn.get c := by exact_mod_cast h1
  have h4 : (cfg.bIn.get c : ℚ) ≤ 2 ^ 53 := by
    have : cfg.bIn.get c ≤ 2 ^ 53 := by omega
    exact_mod_cast this
  have hb : (targetAge cfg c).toRat = cfg.bIn.get c := by unfold targetAge; rw [b]; rfl
  exact ⟨a, hb, by rw [hb]; exact h3, by rw [hb]; exact h4⟩

theorem IsDate.bounds {x : F64} (h : IsDate x) : x.isFinite = true ∧ 0 ≤ x.toRat ∧ x.toRat ≤ 2 ^ 53 := by
  obtain ⟨a, k, hk, hv, -⟩ := h.spec
  refine ⟨a, by rw [hv]; positivity, ?_⟩
  rw [hv]; exact_mod_cast hk

theorem SyncedInv.bounds {cfg : Cfg} {ch : Channel} (h : SyncedInv cfg ch) :
    ch.drift.isFinite = true ∧ 0 < ch.drift.toRat ∧ ch.drift.toRat ≤ 2 ^ 64 := by
  have hp := h.positive
  have hb := h.bounded
  rw [F64.lt_iff F64.zero_isFinite h.finite, F64.toRat_zero] at hp
  rw [F64.le_iff h.finite rfl, driftCeiling_value] at hb
  exact ⟨h.finite, hp, hb⟩

/-- The read date of a synchronised channel is finite (R171). -/
theorem readDate_finite {cfg : Cfg} (hl : legalConfig cfg = true) (hn : cfg.n < 2 ^ 53) {ch : Channel}
    (ho : IsDate ch.outdate) (hs : SyncedInv cfg ch) (c : Chan) :
    (readDate cfg c ch).isFinite = true ∧ |(readDate cfg c ch).toRat| ≤ 2 ^ 118 := by
  obtain ⟨a, b, d⟩ := ho.bounds
  obtain ⟨e, f, g⟩ := hs.bounds
  obtain ⟨t1, -, t2, t3⟩ := targetAge_spec hl hn c
  have hprod : ch.outdate.toRat * ch.drift.toRat ≤ 2 ^ 53 * 2 ^ 64 := mul_le_mul d g f.le (by positivity)
  have hprod0 : 0 ≤ ch.outdate.toRat * ch.drift.toRat := mul_nonneg b f.le
  obtain ⟨p, q⟩ := mul_bound a e (k := 117) (by norm_num) (abs_le.2 ⟨by linarith [pow_pos (show (0 : ℚ) < 2 by norm_num) 117],
    by linarith [show (2 : ℚ) ^ 53 * 2 ^ 64 = 2 ^ 117 by norm_num]⟩)
  rw [abs_le] at q
  unfold readDate
  refine sub_bound p t1 (by norm_num) (abs_le.2 ⟨?_, ?_⟩) <;> norm_num at * <;> linarith [q.1, q.2]

/-- The error of the loop is finite. -/
theorem driftError_finite {cfg : Cfg} (hl : legalConfig cfg = true) (hn : cfg.n < 2 ^ 53) {ch : Channel}
    (hd : IsDate ch.ring.date) (c : Chan) {r : F64} (hr : r.isFinite = true) (hr2 : |r.toRat| ≤ 2 ^ 118) :
    (driftError cfg c ch r).isFinite = true := by
  obtain ⟨a, b, d⟩ := hd.bounds
  obtain ⟨t1, -, t2, t3⟩ := targetAge_spec hl hn c
  rw [abs_le] at hr2
  obtain ⟨p, q⟩ := sub_bound a hr (k := 119) (by norm_num)
    (abs_le.2 ⟨by norm_num at *; linarith [hr2.1, hr2.2], by norm_num at *; linarith [hr2.1, hr2.2]⟩)
  rw [abs_le] at q
  obtain ⟨u, v⟩ := sub_bound p t1 (k := 120) (by norm_num)
    (abs_le.2 ⟨by norm_num at *; linarith [q.1, q.2], by norm_num at *; linarith [q.1, q.2]⟩)
  unfold driftError
  refine (div_bound u t1 (by linarith) (k := 120) (by norm_num) ?_).1
  rw [abs_div]
  refine (div_le_self (abs_nonneg _) ?_).trans v
  rw [abs_of_nonneg (by linarith)]; exact t2

/-! ## The clamp -/

theorem mul_not_nan {x y : F64} (hx : x.isFinite = true) (hy : y.isFinite = true) : (x.mul y).isNaN = false := by
  obtain ⟨s, e, f, rfl⟩ := F64.finite_cases hx
  obtain ⟨t, e', f', rfl⟩ := F64.finite_cases hy
  show (F64.round _ _ _).isNaN = false
  unfold F64.round F64.ofMagnitudeBits
  split <;> rfl

theorem add_not_nan {x y : F64} (hx : x.isFinite = true) (hy : y.isNaN = false) : (x.add y).isNaN = false := by
  obtain ⟨s, e, f, rfl⟩ := F64.finite_cases hx
  cases y with
  | nan => cases hy
  | inf t => rfl
  | fin t e' f' =>
    show (F64.ofUnits _ _).isNaN = false
    unfold F64.ofUnits
    split
    · rfl
    · unfold F64.round F64.ofMagnitudeBits
      split <;> rfl

theorem mul_not_nan' {x y : F64} (hx : x.isFinite = true) (hx0 : 0 < x.toRat) (hy : y.isNaN = false) :
    (x.mul y).isNaN = false := by
  cases y with
  | nan => cases hy
  | inf t =>
    obtain ⟨s, e, f, rfl⟩ := F64.finite_cases hx
    have hm : F64.magnitude e f ≠ 0 := by
      intro h0
      unfold F64.toRat at hx0
      rw [F64.units_fin, h0] at hx0
      cases s <;> simp [F64.signed] at hx0
    show (if F64.magnitude e f = 0 then F64.nan else .inf _).isNaN = false
    rw [if_neg hm]; rfl
  | fin t e' f' => exact mul_not_nan hx rfl

/-- Unless it is a NaN, a clamped value is finite and within the bounds (R175). -/
theorem clampTo_between {lo hi x : F64} (hlo : lo.isFinite = true) (hhi : hi.isFinite = true)
    (hle : lo.toRat ≤ hi.toRat) (hx : x.isNaN = false) :
    (clampTo lo hi x).isFinite = true ∧ lo.toRat ≤ (clampTo lo hi x).toRat ∧ (clampTo lo hi x).toRat ≤ hi.toRat := by
  have key : ∀ y : F64, y.isFinite = true → lo.toRat ≤ y.toRat →
      (if y.gt hi then hi else y).isFinite = true ∧ lo.toRat ≤ (if y.gt hi then hi else y).toRat ∧
        (if y.gt hi then hi else y).toRat ≤ hi.toRat := by
    intro y hy hly
    unfold F64.gt
    by_cases h : hi.lt y = true
    · rw [if_pos h]; exact ⟨hhi, hle, le_refl _⟩
    · rw [if_neg h]
      rw [F64.lt_iff hhi hy] at h
      exact ⟨hy, hly, not_lt.1 h⟩
  unfold clampTo
  cases x with
  | nan => cases hx
  | inf s =>
    obtain ⟨s1, e1, f1, rfl⟩ := F64.finite_cases hlo
    obtain ⟨s2, e2, f2, rfl⟩ := F64.finite_cases hhi
    cases s
    · have h1 : (F64.inf false).lt (.fin s1 e1 f1) = false := rfl
      have h2 : (F64.inf false).gt (.fin s2 e2 f2) = true := rfl
      simp only [h1, Bool.false_eq_true, if_false, h2, if_true]
      exact ⟨rfl, hle, le_refl _⟩
    · have h1 : (F64.inf true).lt (.fin s1 e1 f1) = true := rfl
      simp only [h1, if_true]
      exact key _ hlo (le_refl _)
  | fin s e f =>
    by_cases h : (F64.fin s e f).lt lo = true
    · simp only [h, if_true]
      exact key _ hlo (le_refl _)
    · have h' := h
      rw [F64.lt_iff rfl hlo] at h'
      simp only [h]
      exact key _ rfl (not_lt.1 h')

/-- The correction of a synchronised channel is no NaN. -/
theorem correction_not_nan {cfg : Cfg} (hl : legalConfig cfg = true) (c : Chan) {ch : Channel} {r : F64}
    (hn : ch.nominal.isFinite = true) (hn0 : 0 < ch.nominal.toRat) (he : (driftError cfg c ch r).isFinite = true) :
    (correction cfg c ch r).isNaN = false :=
  mul_not_nan' hn hn0 (add_not_nan F64.one_isFinite (mul_not_nan he (legal_filter hl).1))

/-- The bounds of the clamp lie around the nominal factor: from 2^-17 to 2^34. -/
theorem clampToNominal_between {nominal x : F64} (hn : nominal.isFinite = true) (h1 : 1 / 2 ^ 16 ≤ nominal.toRat)
    (h2 : nominal.toRat ≤ 2 ^ 33) (hx : x.isNaN = false) :
    (clampToNominal nominal x).isFinite = true ∧ 1 / 2 ^ 17 ≤ (clampToNominal nominal x).toRat ∧
      (clampToNominal nominal x).toRat ≤ 2 ^ 34 := by
  have hlo : (F64.fin false 1006 0).toRat = 1 / 2 ^ 17 := by
    rw [toRat_powTwo (e := 1006) (by decide) (by decide), show (1006 : Fin 2047).val = 1006 from rfl]; norm_num
  obtain ⟨a, b⟩ := ofInt_two_pow (k := 34) (by norm_num)
  obtain ⟨l1, l2, l3⟩ := F64.mul_between (lo := .fin false 1006 0) (hi := nominal) hn F64.half_isFinite rfl hn
    (by rw [hlo, F64.toRat_half]; norm_num at *; linarith) (by rw [F64.toRat_half]; norm_num at *; linarith)
  obtain ⟨u1, u2, u3⟩ := F64.mul_between (lo := nominal) (hi := F64.ofInt (2 ^ 34)) hn F64.threeHalves_isFinite hn a
    (by rw [F64.toRat_threeHalves]; norm_num at *; linarith) (by rw [b, F64.toRat_threeHalves]; norm_num at *; linarith)
  obtain ⟨c1, c2, c3⟩ := clampTo_between l1 u1 (le_trans l3 u2) hx
  exact ⟨c1, by rw [← hlo]; exact le_trans l2 c2, by rw [← b]; exact le_trans c3 u3⟩

/-! ## The moving average -/

/-- 1.0 - ALPHA is finite, between 0 and 1, and not far below the exact difference. -/
theorem oneSubAlpha_spec {cfg : Cfg} (hl : legalConfig cfg = true) :
    (F64.one.sub cfg.alpha).isFinite = true ∧ 0 ≤ (F64.one.sub cfg.alpha).toRat ∧
      (F64.one.sub cfg.alpha).toRat ≤ 1 ∧
      cfg.alpha.toRat ≤ 1 - (F64.one.sub cfg.alpha).toRat + (F64.one.sub cfg.alpha).toRat / 2 ^ 53 := by
  obtain ⟨a, b, c⟩ := legal_alpha hl
  have h1 := F64.toRat_one
  have h0 := F64.toRat_zero
  obtain ⟨p, q, r⟩ := F64.sub_between (lo := F64.zero) (hi := F64.one) F64.one_isFinite a F64.zero_isFinite
    F64.one_isFinite (by rw [h0, h1]; linarith) (by rw [h1]; linarith)
  rw [h0] at q
  have he := F64.sub_error F64.one_isFinite a p
  rw [abs_of_nonneg q, abs_le, h1] at he
  refine ⟨p, q, by rw [h1] at r; exact r, ?_⟩
  linarith [he.2]

/-- With a coefficient below 2^-106, 1.0 - ALPHA is 1.0. -/
theorem oneSubAlpha_small {cfg : Cfg} (hl : legalConfig cfg = true) (h : cfg.alpha.toRat < 1 / 2 ^ 106) :
    (F64.one.sub cfg.alpha).toRat = 1 := by
  obtain ⟨p, q, r, s⟩ := oneSubAlpha_spec hl
  obtain ⟨a, b, c⟩ := legal_alpha hl
  have h1 := F64.toRat_one
  by_contra hne
  have hle := le_of_lt_one p q (lt_of_le_of_ne r hne)
  have he := F64.sub_error F64.one_isFinite a p
  rw [abs_of_nonneg q, abs_le, h1] at he
  have := he.1
  norm_num at *
  linarith

/-- The moving average of a positive value below the ceiling and a correction of a usual size is such a value. -/
theorem movingAverage_spec {cfg : Cfg} (hl : legalConfig cfg = true) {old corr : F64} (ho : old.isFinite = true)
    (ho1 : 0 < old.toRat) (ho2 : old.toRat ≤ 2 ^ 64) (hc : corr.isFinite = true) (hc1 : 1 / 2 ^ 17 ≤ corr.toRat)
    (hc2 : corr.toRat ≤ 2 ^ 34) :
    (movingAverage cfg old corr).isFinite = true ∧ 0 < (movingAverage cfg old corr).toRat ∧
      (movingAverage cfg old corr).toRat ≤ 2 ^ 64 := by
  obtain ⟨b1, b2, b3, b4⟩ := oneSubAlpha_spec hl
  obtain ⟨a1, a2, a3⟩ := legal_alpha hl
  have hz := F64.toRat_zero
  have hcp : 0 < corr.toRat := lt_of_lt_of_le (by positivity) hc1
  have hceil := driftCeiling_value
  obtain ⟨P, hPf, hPv⟩ := exists_scaled b1 b2 b3 (k := 64) (by norm_num)
  obtain ⟨Q, hQf, hQv⟩ := exists_scaled a1 a2.le a3.le (k := 34) (by norm_num)
  -- old * (1.0 - ALPHA)
  obtain ⟨p1, p2, p3⟩ := F64.mul_between (x := old) (y := F64.one.sub cfg.alpha) (lo := F64.zero) (hi := P) ho b1
    F64.zero_isFinite hPf (by rw [hz]; exact mul_nonneg ho1.le b2)
    (by rw [hPv]; exact mul_le_mul_of_nonneg_right ho2 b2)
  rw [hz] at p2
  rw [hPv] at p3
  -- corr * ALPHA
  obtain ⟨q1, q2, q3⟩ := F64.mul_between (x := corr) (y := cfg.alpha) (lo := F64.zero) (hi := Q) hc a1
    F64.zero_isFinite hQf (by rw [hz]; exact mul_nonneg hcp.le a2.le)
    (by rw [hQv]; exact mul_le_mul_of_nonneg_right hc2 a2.le)
  rw [hz] at q2
  rw [hQv] at q3
  unfold movingAverage
  obtain ⟨s1, s2⟩ := F64.add_le_powTwo (x := old.mul (F64.one.sub cfg.alpha)) (y := corr.mul cfg.alpha) (e := 1087)
    p1 q1 (by decide) (by linarith) (by
      have : (F64.fin false 1087 0).toRat = 2 ^ 64 := hceil
      rw [this]; norm_num at *; linarith)
  refine ⟨s1, ?_, by have : (F64.fin false 1087 0).toRat = 2 ^ 64 := hceil
                     rw [this] at s2; exact s2⟩
  -- positivity
  obtain ⟨T, -, hTf, -, hTv, -⟩ := exists_two_pow 65 (by norm_num)
  have hsum : (old.mul (F64.one.sub cfg.alpha)).toRat + (corr.mul cfg.alpha).toRat ≤ T.toRat := by
    rw [hTv]; norm_num at *; linarith
  by_cases hsmall : cfg.alpha.toRat < 1 / 2 ^ 106
  · have hb := oneSubAlpha_small hl hsmall
    have hex := F64.mul_exact ho b1 ho (by rw [hb, mul_one])
    obtain ⟨-, s, -⟩ := F64.add_between (lo := old) p1 q1 ho hTf (by rw [hex.2]; linarith) hsum
    linarith
  · have hlow : (F64.fin false 900 0).toRat = 1 / 2 ^ 123 := by
      rw [toRat_powTwo (e := 900) (by decide) (by decide), show (900 : Fin 2047).val = 900 from rfl]; norm_num
    have hm : 1 / 2 ^ 123 ≤ corr.toRat * cfg.alpha.toRat := by
      calc (1 : ℚ) / 2 ^ 123 = 1 / 2 ^ 17 * (1 / 2 ^ 106) := by norm_num
        _ ≤ corr.toRat * cfg.alpha.toRat := mul_le_mul hc1 (not_lt.1 hsmall) (by positivity) hcp.le
    obtain ⟨-, q2', -⟩ := F64.mul_between (x := corr) (y := cfg.alpha) (lo := .fin false 900 0) (hi := Q) hc a1 rfl hQf
      (by rw [hlow]; exact hm) (by rw [hQv]; exact mul_le_mul_of_nonneg_right hc2 a2.le)
    obtain ⟨-, s, -⟩ := F64.add_between (lo := .fin false 900 0) p1 q1 rfl hTf (by linarith) hsum
    rw [hlow] at s
    exact lt_of_lt_of_le (by positivity) s

/-- DRIFT.ADJ at the channel's own read date keeps a synchronised channel synchronised (R178). -/
theorem SyncedInv.driftAdjust {cfg : Cfg} (hl : legalConfig cfg = true) (hn : cfg.n < 2 ^ 53) {ch : Channel}
    (hd : IsDate ch.ring.date) (ho : IsDate ch.outdate) (hs : SyncedInv cfg ch) (c : Chan) :
    SyncedInv cfg (Machine.driftAdjust cfg c (readDate cfg c ch) ch) := by
  obtain ⟨hz, hr, hnom⟩ := hs.nominal
  obtain ⟨n1, n2, n3⟩ := nominalFactor_spec hl hr
  obtain ⟨d1, d2, d3⟩ := hs.bounds
  obtain ⟨r1, r2⟩ := readDate_finite hl hn ho hs c
  have he := driftError_finite hl hn hd c r1 r2
  have hnan : (correction cfg c ch (readDate cfg c ch)).isNaN = false :=
    correction_not_nan hl c (by rw [hnom]; exact n1)
      (by rw [hnom]; exact lt_of_lt_of_le (by positivity) n2) he
  obtain ⟨c1, c2, c3⟩ := clampToNominal_between (nominal := ch.nominal) (by rw [hnom]; exact n1) (by rw [hnom]; exact n2)
    (by rw [hnom]; exact n3) hnan
  obtain ⟨m1, m2, m3⟩ := movingAverage_spec hl d1 d2 d3 c1 c2 c3
  refine ⟨⟨hz, hr, hnom⟩, m1, ?_, ?_⟩
  · exact (F64.lt_iff F64.zero_isFinite m1).2 (by rw [F64.toRat_zero]; exact m2)
  · exact (F64.le_iff m1 rfl).2 (by rw [driftCeiling_value]; exact m3)

end Sys2Proof.Machine
end

