-- ==== Sys2Proof/Laws/IeeeExact.lean ====
section
/-!
SUPPORT. The operations that round nothing: integers, products by 1.0 and by a zero, sums with a zero, a power of two
times a significand; the sign of a zero; and the bounds of a truncation.
-/

namespace Sys2Proof

/-! ## Zeros -/

/-- A finite datum of value 0 is one of the two zeros. -/
theorem F64.zero_cases {x : F64} (hx : x.isFinite = true) (h : x.toRat = 0) : x = .fin false 0 0 ∨ x = .fin true 0 0 := by
  obtain ⟨s, e, f, rfl⟩ := F64.finite_cases hx
  unfold F64.toRat at h
  rw [F64.units_fin] at h
  have hm : F64.magnitude e f = F64.magnitude 0 0 := by
    rw [F64.magnitude_zero]
    by_contra hne
    rw [div_eq_zero_iff] at h
    rcases h with h | h
    · cases s <;> simp [F64.signed] at h <;> exact hne h
    · exact absurd h (ne_of_gt F64.scale_pos)
  obtain ⟨rfl, rfl⟩ := F64.magnitude_inj hm
  cases s
  · exact .inl rfl
  · exact .inr rfl

theorem F64.finite_of_eq_zero {z : F64} (h : z.eq F64.zero = true) : z.isFinite = true := by
  cases z with
  | nan => cases h
  | inf s => cases h
  | fin s e f => rfl

theorem F64.toRat_of_eq_zero {z : F64} (h : z.eq F64.zero = true) : z.toRat = 0 := by
  rw [F64.eq_iff (F64.finite_of_eq_zero h) F64.zero_isFinite, F64.toRat_zero] at h
  exact h

/-- A finite datum times a zero is a zero. -/
theorem F64.mul_zero_right {x z : F64} (hx : x.isFinite = true) (hz : z.isFinite = true) (h0 : z.toRat = 0) :
    (x.mul z).isFinite = true ∧ (x.mul z).toRat = 0 := by
  have := F64.mul_exact (z := F64.zero) hx hz F64.zero_isFinite (by rw [h0, F64.toRat_zero, mul_zero])
  exact ⟨this.1, by rw [this.2, F64.toRat_zero]⟩

/-- A zero times a finite datum is a zero. -/
theorem F64.mul_zero_left {x z : F64} (hx : x.isFinite = true) (hz : z.isFinite = true) (h0 : z.toRat = 0) :
    (z.mul x).isFinite = true ∧ (z.mul x).toRat = 0 := by
  have := F64.mul_exact (z := F64.zero) hz hx F64.zero_isFinite (by rw [h0, F64.toRat_zero, zero_mul])
  exact ⟨this.1, by rw [this.2, F64.toRat_zero]⟩

/-- Adding a zero changes nothing, unless the other operand is -0.0. -/
theorem F64.add_zero_right {x z : F64} (hx : x.isFinite = true) (hnz : x ≠ .fin true 0 0) (hz : z.isFinite = true)
    (h0 : z.toRat = 0) : x.add z = x := by
  by_cases hx0 : x.toRat = 0
  · rcases F64.zero_cases hx hx0 with rfl | rfl
    · rcases F64.zero_cases hz h0 with rfl | rfl <;> decide +kernel
    · exact absurd rfl hnz
  · obtain ⟨a, b⟩ := F64.add_exact hx hz hx (by rw [h0, add_zero])
    exact F64.eq_of_toRat a hx b (by rw [b]; exact hx0)

theorem F64.one_sub_zero : F64.one.sub F64.zero = F64.one := by decide +kernel

theorem F64.zero_add_zero : F64.zero.add F64.zero = F64.zero := by decide +kernel

/-- A product by 1.0. -/
theorem F64.mul_one_right {x : F64} (hx : x.isFinite = true) : x.mul F64.one = x := by
  by_cases h0 : x.toRat = 0
  · rcases F64.zero_cases hx h0 with rfl | rfl <;> decide +kernel
  · obtain ⟨a, b⟩ := F64.mul_exact hx F64.one_isFinite hx (by rw [F64.toRat_one, mul_one])
    exact F64.eq_of_toRat a hx b (by rw [b]; exact h0)

theorem F64.mul_nan_right (x : F64) : x.mul .nan = .nan := by cases x <;> rfl

/-- The sign of an exact zero plays no part in a sum that is not 0. -/
theorem F64.ofUnits_sign {b b' : Bool} {u : Int} (h : u ≠ 0) : F64.ofUnits b u = F64.ofUnits b' u := by
  unfold F64.ofUnits
  rw [if_neg h, if_neg h]

/-! ## Integers -/

/-- A finite datum whose value is an integer other than 0 is that integer's FLOAT. -/
theorem F64.eq_ofInt {x : F64} {k : Int} (hx : x.isFinite = true) (hk : k.natAbs ≤ 2 ^ 53) (hv : x.toRat = k)
    (h0 : k ≠ 0) : x = F64.ofInt k :=
  F64.eq_of_toRat hx (F64.ofInt_exact hk).1 (by rw [hv, (F64.ofInt_exact hk).2])
    (by rw [hv]; exact_mod_cast h0)

/-- The units of a datum whose value is an integer. -/
theorem F64.units_of_toRat {x : F64} {k : Int} (h : x.toRat = k) : x.units = k * F64.one1074 := by
  have := F64.units_eq_toRat x
  rw [h] at this
  exact_mod_cast this

/-- Differences of integers up to 2^53 in magnitude are exact, and an exact zero is +0.0. -/
theorem F64.sub_ofInt {a b : Int} (ha : a.natAbs ≤ 2 ^ 53) (hb : b.natAbs ≤ 2 ^ 53) (hc : (a - b).natAbs ≤ 2 ^ 53) :
    (F64.ofInt a).sub (F64.ofInt b) = F64.ofInt (a - b) := by
  obtain ⟨a1, a2⟩ := F64.ofInt_exact ha
  obtain ⟨b1, b2⟩ := F64.ofInt_exact hb
  obtain ⟨c1, c2⟩ := F64.ofInt_exact hc
  obtain ⟨s1, s2⟩ := F64.sub_exact a1 b1 c1 (by rw [a2, b2, c2]; push_cast; ring)
  by_cases h : a - b = 0
  · obtain rfl : a = b := by omega
    unfold F64.sub
    rw [sub_self, F64.add_eq a1 (by rw [F64.neg_isFinite]; exact a1), F64.neg_units, add_neg_cancel]
    have : ((F64.ofInt a).sign && (F64.ofInt a).neg.sign) = false := by
      cases F64.ofInt a with
      | nan => rfl
      | inf s => cases s <;> rfl
      | fin s e f => cases s <;> rfl
    rw [this]
    unfold F64.ofInt
    rw [zero_mul]
  · exact F64.eq_ofInt s1 hc (by rw [s2, c2]) h

theorem F64.floor_ofInt {k : Int} (h : k.natAbs ≤ 2 ^ 53) : (F64.ofInt k).floor = k :=
  F64.floor_eq (by rw [(F64.ofInt_exact h).2]) (by rw [(F64.ofInt_exact h).2]; linarith)

/-! ## Rounding what needs no rounding; truncation -/

/-- A significand of at most 53 bits times a power of two is a datum. -/
theorem F64.round_exact {s : Bool} {r k : Nat} (hr : r ≤ 2 ^ 53) (hk : k ≤ 2044) :
    ∃ e f, F64.round s (r * 2 ^ k) 1 = .fin s e f ∧ F64.magnitude e f = r * 2 ^ k := by
  obtain ⟨e, f, h⟩ := F64.exists_magnitude hr hk
  refine ⟨e, f, ?_, h⟩
  unfold F64.round
  rw [F64.roundBits_exact (m := F64.bits63 e f) (by norm_num) (by rw [← F64.magnitude_eq, h, Nat.mul_one])]
  exact F64.ofMagnitudeBits_bits63 s e f

/-- The truncation of a value strictly between two integers of opposite sign lies strictly between them. -/
theorem F64.trunc_bounds {y : F64} {a b : Int} (ha : 0 < a) (hb : 0 < b) (h1 : (-a : ℚ) < y.toRat)
    (h2 : y.toRat < b) : -a < y.trunc ∧ y.trunc < b := by
  rcases le_or_gt 0 y.toRat with h | h
  · rw [F64.trunc_nonneg h]
    obtain ⟨f1, f2⟩ := F64.floor_spec y
    have g1 : y.floor < b := by exact_mod_cast lt_of_le_of_lt f1 h2
    have g2 : ((-1 : Int) : ℚ) < y.floor := by push_cast; linarith
    have g2' : -1 < y.floor := by exact_mod_cast g2
    omega
  · have ht := F64.trunc_nonneg (x := y.neg) (by rw [F64.toRat_neg]; linarith)
    rw [F64.trunc_neg] at ht
    obtain ⟨f1, f2⟩ := F64.floor_spec y.neg
    rw [F64.toRat_neg] at f1 f2
    have g1 : (y.neg.floor : ℚ) < a := by linarith
    have g1' : y.neg.floor < a := by exact_mod_cast g1
    have g2 : ((-1 : Int) : ℚ) < y.neg.floor := by push_cast; linarith
    have g2' : -1 < y.neg.floor := by exact_mod_cast g2
    omega

end Sys2Proof
end

