-- ==== Sys2Proof/Laws/PullPath.lean ====
section
/-!
SUPPORT. The laws of the pull path: what a tick, and k ticks, write and what they leave alone, and that they keep the
invariant of every channel.
-/

namespace Sys2Proof.Machine

/-! ## One channel in one tick -/

/-- `synced` is "not NOSYNC" in every state of the invariant (R38). -/
theorem ChannelInv.synced_iff {cfg : Cfg} {ch : Channel} (h : ChannelInv cfg ch) :
    Machine.synced ch = true ↔ ch.rate ≠ .nosync := by
  unfold Machine.synced
  rw [Bool.not_eq_true']
  constructor
  · intro hs hr
    rw [h.unsynced hr] at hs
    exact absurd hs (by decide +kernel)
  · intro hr
    obtain ⟨a, b, -⟩ := (h.synced hr).bounds
    rw [← Bool.not_eq_true, F64.eq_iff a F64.zero_isFinite, F64.toRat_zero]
    exact ne_of_gt b

theorem tickDrift_frame (cfg : Cfg) (c : Chan) (ch : Channel) :
    tickDrift cfg c ch = { ch with drift := (tickDrift cfg c ch).drift } := by
  unfold tickDrift; split <;> rfl

/-- A tick before its window test writes DRIFT[c] and OUTDATE[c] of a channel and nothing else. -/
theorem tickChannel_eq (cfg : Cfg) (c : Chan) (ch : Channel) :
    tickChannel cfg c ch =
      { ch with drift := (tickDrift cfg c ch).drift, outdate := ch.outdate.add F64.one } := by
  unfold tickChannel advanceOutdate
  rw [tickDrift_frame]

theorem tickChannel_unsynced {cfg : Cfg} {c : Chan} {ch : Channel} (h : synced ch = false) :
    tickChannel cfg c ch = { ch with outdate := ch.outdate.add F64.one } := by
  unfold tickChannel tickDrift
  rw [h]; rfl

/-- A tick keeps the invariant of a channel. -/
theorem ChannelInv.tickChannel {cfg : Cfg} (hl : legalConfig cfg = true) (hn : cfg.n < 2 ^ 53) {ch : Channel}
    (h : ChannelInv cfg ch) (c : Chan) : ChannelInv cfg (Machine.tickChannel cfg c ch) := by
  cases hs : Machine.synced ch with
  | false =>
    rw [tickChannel_unsynced hs]
    exact ⟨h.ring, h.outdate.add_one, h.unsynced,
      fun hr => ⟨(h.synced hr).nominal, (h.synced hr).finite, (h.synced hr).positive, (h.synced hr).bounded⟩,
      h.candidate, h.pending⟩
  | true =>
    have hr := h.synced_iff.1 hs
    have hd := SyncedInv.driftAdjust hl hn h.ring.date h.outdate (h.synced hr) c
    unfold Machine.tickChannel advanceOutdate tickDrift
    rw [hs, if_pos rfl]
    exact ⟨h.ring, h.outdate.add_one, fun hz => absurd hz hr,
      fun _ => ⟨hd.nominal, hd.finite, hd.positive, hd.bounded⟩, h.candidate, h.pending⟩

theorem tickChannels_get (cfg : Cfg) (p : PerChannel Channel) (c : Chan) :
    (tickChannels cfg p).get c = tickChannel cfg c (p.get c) := by cases c <;> rfl

theorem detectAll_get (cfg : Cfg) (p : PerChannel Channel) (c : Chan) :
    (detectAll cfg p).get c = detect cfg c (p.get c) := by cases c <;> rfl

/-! ## One tick -/

theorem tickState_cfg (s : State) : (tickState s).cfg = s.cfg := by
  unfold tickState windowTest; split <;> rfl
theorem tickState_mgain (s : State) : (tickState s).mgain = s.mgain := by
  unfold tickState windowTest; split <;> rfl
theorem tickState_cmd (s : State) : (tickState s).cmd = s.cmd := by
  unfold tickState windowTest; split <;> rfl
theorem tickState_rsp (s : State) : (tickState s).rsp = s.rsp := by
  unfold tickState windowTest; split <;> rfl
theorem tickState_draws (s : State) : (tickState s).draws = (tickOutput s).2 := by
  unfold tickState windowTest; split <;> rfl
theorem tickState_pullcnt (s : State) :
    (tickState s).pullcnt = if s.pullcnt + 1 = s.cfg.w then 0 else s.pullcnt + 1 := by
  unfold tickState windowTest
  show State.pullcnt (if s.pullcnt + 1 = s.cfg.w then _ else _) = _
  by_cases h : s.pullcnt + 1 = s.cfg.w
  · rw [if_pos h, if_pos h]
  · rw [if_neg h, if_neg h]

/-- What a tick does to channel c: the drift filter and the date, and DETECT in the tick that ends a window. -/
theorem tickState_chan (s : State) (c : Chan) :
    (tickState s).chan c =
      if s.pullcnt + 1 = s.cfg.w then detect s.cfg c (tickChannel s.cfg c (s.chan c))
      else tickChannel s.cfg c (s.chan c) := by
  unfold tickState windowTest State.chan
  show PerChannel.get (State.chans (if s.pullcnt + 1 = s.cfg.w then _ else _)) c = _
  by_cases h : s.pullcnt + 1 = s.cfg.w
  · rw [if_pos h, if_pos h]
    show (detectAll s.cfg (tickChannels s.cfg s.chans)).get c = _
    rw [detectAll_get, tickChannels_get]
  · rw [if_neg h, if_neg h]
    exact tickChannels_get _ _ _

theorem tickAndSend_rsp (s : State) :
    (tickAndSend s).rsp = s.rsp ++ [(tickOutput s).1.l, (tickOutput s).1.r] := by
  unfold tickAndSend
  rw [State.send_rsp, State.send_rsp, tickState_rsp, List.append_assoc]
  rfl

/-- The input changes nothing that a tick computes. -/
theorem tickOutput_withInput (s : State) (xs : List Input) : tickOutput (s.withInput xs) = tickOutput s := rfl

theorem tickAndSend_withInput (s : State) (xs : List Input) :
    tickAndSend (s.withInput xs) = (tickAndSend s).withInput xs := by
  unfold tickAndSend tickState windowTest
  rw [tickOutput_withInput]
  show State.send (State.send (if s.pullcnt + 1 = s.cfg.w then _ else _) _) _ =
    State.withInput (State.send (State.send (if s.pullcnt + 1 = s.cfg.w then _ else _) _) _) xs
  split <;> rfl

/-- A tick keeps the invariant. -/
theorem Inv.tickAndSend {s : State} (h : Inv s) : Inv (Machine.tickAndSend s) := by
  have hcfg : (Machine.tickAndSend s).cfg = s.cfg := tickState_cfg s
  refine ⟨by rw [hcfg]; exact h.legal, by rw [hcfg]; exact h.capacity, fun c => ?_, ?_⟩
  · rw [hcfg]
    show ChannelInv s.cfg ((tickState s).chan c)
    rw [tickState_chan]
    have ht := (h.chans c).tickChannel h.legal h.capacity c
    split
    · exact ht.detect h.legal c
    · exact ht
  · rw [hcfg]
    show (tickState s).pullcnt < s.cfg.w
    rw [tickState_pullcnt]
    have := (legal_sizes h.legal).2.2.1
    have := h.pullcnt
    split <;> omega

/-! ## Several ticks -/

theorem ticks_cfg (k : Nat) (s : State) : (ticks k s).cfg = s.cfg := by
  induction k generalizing s with
  | zero => rfl
  | succ k ih => rw [ticks, ih]; exact tickState_cfg s

theorem ticks_mgain (k : Nat) (s : State) : (ticks k s).mgain = s.mgain := by
  induction k generalizing s with
  | zero => rfl
  | succ k ih => rw [ticks, ih]; exact tickState_mgain s

theorem ticks_cmd (k : Nat) (s : State) : (ticks k s).cmd = s.cmd := by
  induction k generalizing s with
  | zero => rfl
  | succ k ih => rw [ticks, ih]; exact tickState_cmd s

theorem ticks_succ (k : Nat) (s : State) : ticks (k + 1) s = tickAndSend (ticks k s) := by
  induction k generalizing s with
  | zero => rfl
  | succ k ih => rw [ticks, ih, ticks]

theorem ticks_withInput (k : Nat) (s : State) (xs : List Input) :
    ticks k (s.withInput xs) = (ticks k s).withInput xs := by
  induction k generalizing s with
  | zero => rfl
  | succ k ih => rw [ticks, ticks, tickAndSend_withInput, ih]

/-- k ticks send two words each, behind what was sent before. -/
theorem ticks_rsp (k : Nat) (s : State) : ∃ ws, ws.length = 2 * k ∧ (ticks k s).rsp = s.rsp ++ ws := by
  induction k with
  | zero => exact ⟨[], rfl, (List.append_nil _).symm⟩
  | succ k ih =>
    obtain ⟨ws, h1, h2⟩ := ih
    refine ⟨ws ++ [(tickOutput (ticks k s)).1.l, (tickOutput (ticks k s)).1.r],
      by rw [List.length_append, h1, List.length_cons, List.length_cons, List.length_nil]; omega, ?_⟩
    rw [ticks_succ, tickAndSend_rsp, h2, List.append_assoc]

/-- The window counter after k ticks (R194). -/
theorem ticks_pullcnt {s : State} (h : s.pullcnt < s.cfg.w) (k : Nat) :
    (ticks k s).pullcnt = (s.pullcnt + k) % s.cfg.w := by
  induction k with
  | zero => exact (Nat.mod_eq_of_lt h).symm
  | succ k ih =>
    rw [ticks_succ]
    show (tickState (ticks k s)).pullcnt = _
    rw [tickState_pullcnt, ih, ticks_cfg, ← Nat.add_assoc, ← Nat.mod_add_mod (s.pullcnt + k) s.cfg.w 1]
    have hw : 0 < s.cfg.w := by omega
    rcases Nat.lt_or_ge ((s.pullcnt + k) % s.cfg.w + 1) s.cfg.w with hlt | hge
    · rw [if_neg (by omega), Nat.mod_eq_of_lt hlt]
    · have hm := Nat.mod_lt (s.pullcnt + k) hw
      have he : (s.pullcnt + k) % s.cfg.w + 1 = s.cfg.w := by omega
      rw [if_pos he, he, Nat.mod_self]

/-- No tick writes a slot or a gain (R194). -/
theorem tickState_frame (s : State) (c : Chan) :
    ((tickState s).chan c).ring.mem = (s.chan c).ring.mem ∧ ((tickState s).chan c).gain = (s.chan c).gain := by
  rw [tickState_chan]
  obtain ⟨h1, h2, -⟩ := detect_frame s.cfg c (tickChannel s.cfg c (s.chan c))
  rw [tickChannel_eq] at *
  split
  · exact ⟨h2, h1⟩
  · exact ⟨rfl, rfl⟩

theorem ticks_frame (k : Nat) (s : State) (c : Chan) :
    ((ticks k s).chan c).ring.mem = (s.chan c).ring.mem ∧ ((ticks k s).chan c).gain = (s.chan c).gain := by
  induction k with
  | zero => exact ⟨rfl, rfl⟩
  | succ k ih =>
    rw [ticks_succ]
    obtain ⟨h1, h2⟩ := tickState_frame (ticks k s) c
    exact ⟨h1.trans ih.1, h2.trans ih.2⟩

/-- k ticks keep the invariant. -/
theorem Inv.ticks {s : State} (h : Inv s) (k : Nat) : Inv (Machine.ticks k s) := by
  induction k generalizing s with
  | zero => exact h
  | succ k ih => exact ih h.tickAndSend

end Sys2Proof.Machine
end

