-- ==== Sys2Proof/Laws/Mix.lean ====
section
/-!
SUPPORT. The laws of the mix and of what a tick calls: a zero converts to the word 0, a non-finite master gain draws, a
channel that is not synchronised adds silence; DETECT by its count; what one tick of a channel depends on; the bounds of
the clamp.
-/

namespace Sys2Proof.Machine

/-- A zero of either sign converts to the word 0 and draws nothing (44 R186). -/
theorem cvt24_zero {y : F64} (hf : y.isFinite = true) (h0 : y.toRat = 0) (d : Nat) : cvt24 y d = (0, d) := by
  unfold cvt24
  rcases F64.zero_cases hf h0 with rfl | rfl
  · rw [show outOfInt32 (.fin false 0 0) = false from by decide +kernel,
      show F64.trunc (.fin false 0 0) = 0 from by decide +kernel]
    rfl
  · rw [show outOfInt32 (.fin true 0 0) = false from by decide +kernel,
      show F64.trunc (.fin true 0 0) = 0 from by decide +kernel]
    rfl

/-- A non-finite factor makes a non-finite product. -/
theorem mul_not_finite {acc m : F64} (hm : m.isFinite = false) : (acc.mul m).isFinite = false := by
  cases m with
  | nan => rw [F64.mul_nan_right]; rfl
  | inf t =>
    cases acc with
    | nan => rfl
    | inf s => rfl
    | fin s e f =>
      show F64.isFinite (if F64.magnitude e f = 0 then F64.nan else F64.inf _) = false
      split <;> rfl
  | fin s e f => cases hm

/-- With a non-finite master gain the scaled sum has no stated word, whatever the sum (44 R192). -/
theorem outOfInt32_of_gain {acc m : F64} (hm : m.isFinite = false) :
    outOfInt32 ((acc.mul m).mul F64.fullScale) = true := by
  have hx := mul_not_finite (acc := acc) hm
  cases h : acc.mul m with
  | nan => rfl
  | inf s => cases s <;> decide +kernel
  | fin s e f => rw [h] at hx; cases hx

/-- A channel that is not synchronised contributes +0.0 itself (44 R187). -/
theorem contribution_unsynced {cfg : Cfg} {c : Chan} {ch : Channel} (h : synced ch = false) :
    contribution cfg c ch = silence := by
  unfold contribution
  rw [h]; rfl

/-- CLASSIFY finds no rate exactly when no band holds the count (42 R154). -/
theorem classifyRate_nosync {cfg : Cfg} {c : Chan} {n : Nat} :
    classifyRate cfg c n = .nosync ↔ classify cfg c n = none := by
  unfold classifyRate
  cases h : classify cfg c n with
  | none => simp
  | some rho => simp [rate_ne_nosync (classify_some h).1]

/-- The rate CLASSIFY names stands with its frequency. -/
theorem classify_of_rate {cfg : Cfg} {c : Chan} {n : Nat} {m : Rate} {hz : Nat} (hr : rateHz cfg m = some hz)
    (h : classifyRate cfg c n = m) : classify cfg c n = some (m, hz) := by
  unfold classifyRate at h
  cases hc : classify cfg c n with
  | none => rw [hc] at h; exact absurd h.symm (rate_ne_nosync hr)
  | some rho =>
    rw [hc] at h
    obtain ⟨h1, -⟩ := classify_some hc
    obtain ⟨r, z⟩ := rho
    have h' : r = m := h
    cases h'
    rw [hr] at h1
    cases h1
    rfl

/-- DETECT without a match (42 R157). -/
theorem detect_nosync {cfg : Cfg} {c : Chan} {ch : Channel} (h : classifyRate cfg c ch.incount.toNat = .nosync) :
    detect cfg c ch = { enterNoSync ch with incount := 0 } := by
  rw [classifyRate_nosync] at h
  rcases detect_cases cfg c ch with ⟨-, he⟩ | ⟨hz, hc, -⟩ | ⟨m, hz, k, hc, -⟩
  · exact he
  · rw [h] at hc; cases hc
  · rw [h] at hc; cases hc

/-- What a tick does to a channel depends on the configuration, the window counter and that channel (60 R225). -/
theorem tickState_local {s s' : State} {c : Chan} (h1 : s.cfg = s'.cfg) (h2 : s.pullcnt = s'.pullcnt)
    (h3 : s.chan c = s'.chan c) :
    (tickState s).pullcnt = (tickState s').pullcnt ∧ (tickState s).chan c = (tickState s').chan c := by
  constructor
  · rw [tickState_pullcnt, tickState_pullcnt, h1, h2]
  · rw [tickState_chan, tickState_chan, h1, h2, h3]

/-- The bounds of the clamp: finite, in order, and the lower one at least 2^-17 (43 R175). -/
theorem clampBounds_spec {nominal : F64} (hn : nominal.isFinite = true) (h1 : 1 / 2 ^ 16 ≤ nominal.toRat)
    (h2 : nominal.toRat ≤ 2 ^ 33) :
    (nominal.mul F64.half).isFinite = true ∧ (nominal.mul F64.threeHalves).isFinite = true ∧
      1 / 2 ^ 17 ≤ (nominal.mul F64.half).toRat ∧ (nominal.mul F64.half).toRat ≤ nominal.toRat ∧
      nominal.toRat ≤ (nominal.mul F64.threeHalves).toRat ∧ (nominal.mul F64.threeHalves).toRat ≤ 2 ^ 34 := by
  have hlo : (F64.fin false 1006 0).toRat = 1 / 2 ^ 17 := by
    rw [toRat_powTwo (e := 1006) (by decide) (by decide), show (1006 : Fin 2047).val = 1006 from rfl]; norm_num
  obtain ⟨a, b⟩ := ofInt_two_pow (k := 34) (by norm_num)
  obtain ⟨l1, l2, l3⟩ := F64.mul_between (lo := .fin false 1006 0) (hi := nominal) hn F64.half_isFinite rfl hn
    (by rw [hlo, F64.toRat_half]; norm_num at *; linarith) (by rw [F64.toRat_half]; norm_num at *; linarith)
  obtain ⟨u1, u2, u3⟩ := F64.mul_between (lo := nominal) (hi := F64.ofInt (2 ^ 34)) hn F64.threeHalves_isFinite hn a
    (by rw [F64.toRat_threeHalves]; norm_num at *; linarith) (by rw [b, F64.toRat_threeHalves]; norm_num at *; linarith)
  rw [hlo] at l2
  rw [b] at u3
  exact ⟨l1, u1, l2, l3, u2, u3⟩

end Sys2Proof.Machine
end

