-- ==== Sys2Proof/Laws/Stream.lean ====
section
/-!
SUPPORT. The laws of the stream: the header of a command and its decoding, the payload of a PUSHS, the words before a
RESET event, and everything that fetching and a step can do.
-/

namespace Sys2Proof

/-! ## Headers and payloads -/

theorem decodeHeader_encodeHeader (h : Header) : decodeHeader (encodeHeader h) = .ok h := by
  cases h with
  | pushs c => cases c <;> rfl
  | pulls => rfl
  | setgain c => cases c <;> rfl
  | setgainm => rfl
  | getsr c => cases c <;> rfl

/-- The four fields as numbers (R91). -/
theorem header_fields (w : Word) : headerOp w = w.toNat / 2 ^ 28 ∧ headerRz1 w = w.toNat / 2 ^ 26 % 4 ∧
    headerCh w = w.toNat / 2 ^ 24 % 4 ∧ headerRz0 w = w.toNat % 2 ^ 24 := by
  have hw := w.isLt
  unfold headerOp headerRz1 headerCh headerRz0
  simp only [BitVec.extractLsb'_toNat, Nat.shiftRight_eq_div_pow]
  refine ⟨?_, ?_, ?_, ?_⟩ <;> norm_num <;> omega

/-- Everything that decoding a header can answer, by its fields. -/
theorem decodeHeader_cases (w : Word) :
    (headerRz1 w ≠ 0 ∧ decodeHeader w = .error .rz1) ∨
    (headerRz1 w = 0 ∧ headerRz0 w ≠ 0 ∧ decodeHeader w = .error .rz0) ∨
    (headerRz1 w = 0 ∧ headerRz0 w = 0 ∧ decodeHeader w = opcodeMap (headerOp w) (headerCh w)) := by
  unfold decodeHeader
  by_cases h1 : headerRz1 w = 0
  · by_cases h2 : headerRz0 w = 0
    · exact .inr (.inr ⟨h1, h2, by rw [if_neg (not_not.2 h1), if_neg (not_not.2 h2)]⟩)
    · exact .inr (.inl ⟨h1, h2, by rw [if_neg (not_not.2 h1), if_pos h2]⟩)
  · exact .inl ⟨h1, if_pos h1⟩

theorem channelHeader_ok {ch : Nat} {mk : Chan → Header} {h : Header} (hd : channelHeader ch mk = .ok h) :
    ∃ c : Chan, c.number = ch ∧ h = mk c := by
  match ch, hd with
  | 1, hd => cases hd; exact ⟨.c1, rfl, rfl⟩
  | 2, hd => cases hd; exact ⟨.c2, rfl, rfl⟩
  | 3, hd => cases hd; exact ⟨.c3, rfl, rfl⟩

theorem globalHeader_ok {ch : Nat} {h h' : Header} (hd : globalHeader ch h = .ok h') : ch = 0 ∧ h' = h := by
  unfold globalHeader at hd
  split at hd
  · cases hd; exact ⟨‹_›, rfl⟩
  · cases hd

/-- Only the header word of a command decodes to it. -/
theorem encodeHeader_of_decodeHeader {w : Word} {h : Header} (hd : decodeHeader w = .ok h) : encodeHeader h = w := by
  obtain ⟨f1, f2, f3, f4⟩ := header_fields w
  have hw := w.isLt
  rcases decodeHeader_cases w with ⟨-, he⟩ | ⟨-, -, he⟩ | ⟨h1, h2, he⟩
  · rw [he] at hd; cases hd
  · rw [he] at hd; cases hd
  · rw [he] at hd
    apply BitVec.eq_of_toNat_eq
    generalize headerOp w = op at *
    match op, hd with
    | 1, hd =>
      obtain ⟨c, hc, rfl⟩ := channelHeader_ok hd
      cases c <;> simp only [Chan.number] at hc <;> simp [encodeHeader, headerWord, Chan.number] <;> omega
    | 2, hd =>
      obtain ⟨hc, rfl⟩ := globalHeader_ok hd
      simp [encodeHeader, headerWord]; omega
    | 3, hd =>
      obtain ⟨c, hc, rfl⟩ := channelHeader_ok hd
      cases c <;> simp only [Chan.number] at hc <;> simp [encodeHeader, headerWord, Chan.number] <;> omega
    | 4, hd =>
      obtain ⟨hc, rfl⟩ := globalHeader_ok hd
      simp [encodeHeader, headerWord]; omega
    | 5, hd =>
      obtain ⟨c, hc, rfl⟩ := channelHeader_ok hd
      cases c <;> simp only [Chan.number] at hc <;> simp [encodeHeader, headerWord, Chan.number] <;> omega
    | 0, hd => cases hd
    | n + 6, hd => cases hd

theorem decode_ok {cfg : Cfg} {w : Word} {h : Header} (hd : decodeHeader w = .ok h) (ws : List Word) :
    decode cfg (w :: ws) = decodePayload cfg h ws := by
  show (match decodeHeader w with | .ok h => decodePayload cfg h ws | .error why => .reserved why ws) = _
  rw [hd]

theorem decode_error {cfg : Cfg} {w : Word} {why : Reserved} (hd : decodeHeader w = .error why) (ws : List Word) :
    decode cfg (w :: ws) = .reserved why ws := by
  show (match decodeHeader w with | .ok h => decodePayload cfg h ws | .error why => .reserved why ws) = _
  rw [hd]

/-- Taking the pairs of an interleaved payload gives them back, and the words behind it. -/
theorem takePairs_interleave (ps : List WordPair) (rest : List Word) :
    takePairs ps.length (interleave ps ++ rest) = some (ps, rest) := by
  induction ps with
  | nil => rfl
  | cons p ps ih =>
    show takePairs (ps.length + 1) (p.l :: p.r :: (interleave ps ++ rest)) = _
    rw [takePairs, ih]

theorem takePairs_some {k : Nat} {ws : List Word} {ps : List WordPair} {rest : List Word}
    (h : takePairs k ws = some (ps, rest)) : ps.length = k ∧ ws = interleave ps ++ rest := by
  induction k generalizing ws ps rest with
  | zero => cases h; exact ⟨rfl, rfl⟩
  | succ k ih =>
    match ws, h with
    | l :: r :: ws, h =>
      rw [takePairs] at h
      split at h
      · rename_i qs rest' hq
        cases h
        obtain ⟨h1, h2⟩ := ih hq
        exact ⟨by rw [List.length_cons, h1], by rw [h2]; rfl⟩
      · cases h

theorem takePairs_none {k : Nat} {ws : List Word} : takePairs k ws = none ↔ ws.length < 2 * k := by
  induction k generalizing ws with
  | zero => simp [takePairs]
  | succ k ih =>
    match ws with
    | [] => simp [takePairs]
    | [_] => simp only [takePairs, List.length_cons, List.length_nil, true_iff]; omega
    | l :: r :: ws =>
      rw [takePairs]
      have hi := ih (ws := ws)
      cases hq : takePairs k ws with
      | none =>
        have := hi.1 hq
        simp only [List.length_cons, true_iff]
        omega
      | some q =>
        have : ¬ ws.length < 2 * k := fun hc => by rw [hi.2 hc] at hq; cases hq
        simp only [List.length_cons, reduceCtorEq, false_iff]
        omega

theorem interleave_length (ps : List WordPair) : (interleave ps).length = 2 * ps.length := by
  induction ps with
  | nil => rfl
  | cons p ps ih => rw [interleave, List.length_cons, List.length_cons, ih, List.length_cons]; omega

/-! ## The words before a RESET event -/

namespace Machine

theorem leadingWords_placeWords (ws : List Word) (input : List Input) :
    leadingWords (placeWords ws input) = ws ++ leadingWords input := by
  unfold placeWords
  induction ws with
  | nil => rfl
  | cons w ws ih => exact congrArg (w :: ·) ih

theorem afterReset_placeWords (ws : List Word) (input : List Input) :
    afterReset (placeWords ws input) = afterReset input := by
  unfold placeWords
  induction ws with
  | nil => rfl
  | cons w ws ih => exact ih

theorem leadingWords_append_word (xs ys : List Input) (h : afterReset xs = none) :
    leadingWords (xs ++ ys) = leadingWords xs ++ leadingWords ys := by
  induction xs with
  | nil => rfl
  | cons x xs ih =>
    cases x with
    | word w => exact congrArg (w :: ·) (ih h)
    | reset => cases h

/-- The input is its leading words, and, where one has arrived, a RESET event and what follows it. -/
theorem input_eq (xs : List Input) :
    xs = placeWords (leadingWords xs) (match afterReset xs with | some rest => .reset :: rest | none => []) := by
  induction xs with
  | nil => rfl
  | cons x xs ih =>
    cases x with
    | word w => exact congrArg (Input.word w :: ·) ih
    | reset => rfl

/-! ## Fetching -/

theorem drop_placeWords (ws rest : List Word) (input : List Input) :
    (placeWords (ws ++ rest) input).drop ((ws ++ rest).length - rest.length) = placeWords rest input := by
  unfold placeWords
  rw [List.length_append, Nat.add_sub_cancel, List.map_append, List.append_assoc]
  exact List.drop_left' (List.length_map _)

/-- A whole command at the front of the input is fetched, and the input behind it is left. -/
theorem fetch_of_decode {cfg : Cfg} {ws rest : List Word} {input : List Input} {i : Instr}
    (h : decode cfg (ws ++ rest ++ leadingWords input) = .command i (rest ++ leadingWords input)) :
    fetch cfg (placeWords (ws ++ rest) input) = .command i (placeWords rest input) := by
  unfold fetch
  rw [leadingWords_placeWords, h]
  have : (ws ++ rest ++ leadingWords input).length - (rest ++ leadingWords input).length
      = (ws ++ rest).length - rest.length := by
    simp only [List.length_append]; omega
  simp only [this, drop_placeWords]

/-- Nothing arrived: the block waits. -/
theorem fetch_nil (cfg : Cfg) : fetch cfg [] = .wait := rfl

/-- A step of a legal configuration, by what was fetched. -/
theorem step_legal {s : State} (h : legalConfig s.cfg = true) : step s = perform s (fetch s.cfg s.cmd) := by
  unfold step; rw [if_pos h]

/-- The input that a command has not consumed changes nothing of what the command does. -/
theorem exec_withInput {i : Instr} {s t : State} (xs : List Input) (h : exec i s = .next t) :
    exec i (s.withInput xs) = .next (t.withInput xs) := by
  cases i with
  | pushs c ps => cases h; rfl
  | pulls => cases h; show Host.Outcome.next (ticks s.cfg.bOut _) = _; rw [ticks_withInput]
  | setgain c g => cases h; rfl
  | setgainm g => cases h; rfl
  | getsr c => cases h; rfl

theorem exec_cmd {i : Instr} {s t : State} (h : exec i s = .next t) : t.cmd = s.cmd := by
  cases i with
  | pushs c ps => cases h; rfl
  | pulls => cases h; exact ticks_cmd _ _
  | setgain c g => cases h; rfl
  | setgainm g => cases h; rfl
  | getsr c => cases h; rfl

/-- A command always has a next state (R210). -/
theorem exec_next (i : Instr) (s : State) : ∃ t, exec i s = .next t := by
  cases i <;> exact ⟨_, rfl⟩

theorem step_legal_of_next {s t : State} (h : step s = .next t) : legalConfig s.cfg = true := by
  unfold step at h
  split at h
  · assumption
  · cases h

/-- Everything that a step with a next state can do: a command, a RESET event, or the wait. -/
theorem step_cases {s t : State} (h : step s = .next t) :
    (∃ i rest, fetch s.cfg s.cmd = .command i rest ∧ exec i (s.withInput rest) = .next t) ∨
    (∃ rest, fetch s.cfg s.cmd = .reset rest ∧ t = s.resetEvent rest) ∨ (fetch s.cfg s.cmd = .wait ∧ t = s) := by
  rw [step_legal (step_legal_of_next h)] at h
  cases hf : fetch s.cfg s.cmd with
  | command i rest => rw [hf] at h; exact .inl ⟨i, rest, rfl, h⟩
  | reserved why rest => rw [hf] at h; cases h
  | reset rest => rw [hf] at h; cases h; exact .inr (.inl ⟨rest, rfl, rfl⟩)
  | wait => rw [hf] at h; cases h; exact .inr (.inr ⟨rfl, rfl⟩)

theorem run_next_of (M : Host.Core) {s t : M.State} (h : M.step s = .next t) (k : Nat) :
    Host.Core.run M (k + 1) s = Host.Core.run M k t := by
  rw [Host.Core.run, h]

/-- A run whose first step has a next state goes on from there. -/
theorem run_next {s t : State} (h : step s = .next t) (k : Nat) :
    Host.Core.run core (k + 1) s = Host.Core.run core k t := run_next_of core h k

end Machine

end Sys2Proof
end

