-- ==== Sys2Proof/Laws/PerInstr.lean ====
section
/-!
SUPPORT. Statements for every command, made per command: the length of an encoding is the length that R98 reads from the
header alone.
-/

namespace Sys2Proof.Laws.CommandLength

/-- A well-formed command is encoded in as many words as its header says (30_encoding R98). -/
def Statement (i : Instr) : Prop :=
  ∀ cfg : Cfg, i.wellFormed cfg = true → (encode i).length = commandLength cfg (encodeHeader i.header)

/-- The length of a command from its header. -/
theorem of_payload {i : Instr} {cfg : Cfg} (h : i.payload.length = payloadLength cfg i.header) :
    (encode i).length = commandLength cfg (encodeHeader i.header) := by
  unfold encode commandLength
  rw [decodeHeader_encodeHeader, List.length_cons, h, Nat.add_comm]

theorem pushs (c : Chan) (pairs : List WordPair) : Statement (.pushs c pairs) := by
  intro cfg h
  apply of_payload
  have hl : pairs.length = cfg.bIn.get c := by simpa [Instr.wellFormed] using h
  show (interleave pairs).length = 2 * cfg.bIn.get c
  rw [interleave_length, hl]

theorem pulls : Statement .pulls := fun _ _ => of_payload rfl

theorem setgain (c : Chan) (g : Word) : Statement (.setgain c g) := fun _ _ => of_payload rfl

theorem setgainm (g : Word) : Statement (.setgainm g) := fun _ _ => of_payload rfl

theorem getsr (c : Chan) : Statement (.getsr c) := fun _ _ => of_payload rfl

end Sys2Proof.Laws.CommandLength
end

