-- ==== Sys2Proof/Laws/PushPath.lean ====
section
/-!
SUPPORT. The laws of the push path: what PUSH1 and the loop of PUSHS write and what they leave alone.
-/

namespace Sys2Proof.Machine

theorem ringPush_mem (cfg : Cfg) (r : Ring) (p : WordPair) :
    (ringPush cfg r p).mem = memWrite r.mem r.cursor (normPair p) := rfl
theorem ringPush_cursor (cfg : Cfg) (r : Ring) (p : WordPair) : (ringPush cfg r p).cursor = (r.cursor + 1) % cfg.n := rfl
theorem ringPush_date (cfg : Cfg) (r : Ring) (p : WordPair) : (ringPush cfg r p).date = r.date.add F64.one := rfl

/-- A push leaves every slot but the one at the cursor. -/
theorem ringPush_read {cfg : Cfg} {r : Ring} (h : memoryWf r.mem = true) (p : WordPair) (i : Nat) :
    memRead (ringPush cfg r p).mem i = if i = r.cursor then normPair p else memRead r.mem i :=
  memRead_memWrite h _ _ _

theorem pushOne_ring (cfg : Cfg) (ch : Channel) (p : WordPair) : (pushOne cfg ch p).ring = ringPush cfg ch.ring p := rfl
theorem pushOne_incount (cfg : Cfg) (ch : Channel) (p : WordPair) : (pushOne cfg ch p).incount = countOne ch.incount := rfl

/-- What PUSHS leaves alone in its own channel (R140). -/
theorem pushAll_frame (cfg : Cfg) (ps : List WordPair) (ch : Channel) :
    (pushAll cfg ch ps).rate = ch.rate ∧ (pushAll cfg ch ps).nominal = ch.nominal ∧
    (pushAll cfg ch ps).drift = ch.drift ∧ (pushAll cfg ch ps).outdate = ch.outdate ∧
    (pushAll cfg ch ps).gain = ch.gain ∧ (pushAll cfg ch ps).cand = ch.cand ∧
    (pushAll cfg ch ps).candcnt = ch.candcnt := by
  induction ps generalizing ch with
  | nil => exact ⟨rfl, rfl, rfl, rfl, rfl, rfl, rfl⟩
  | cons p ps ih => exact ih (pushOne cfg ch p)

theorem pushAll_append (cfg : Cfg) (ch : Channel) (ps qs : List WordPair) :
    pushAll cfg ch (ps ++ qs) = pushAll cfg (pushAll cfg ch ps) qs := by
  induction ps generalizing ch with
  | nil => rfl
  | cons p ps ih => exact ih (pushOne cfg ch p)

theorem countOne_toNat (n : BitVec 32) : (countOne n).toNat = min (n.toNat + 1) (2 ^ 32 - 1) := by
  unfold countOne
  rw [BitVec.toNat_ofNat]
  exact Nat.mod_eq_of_lt (lt_of_le_of_lt (min_le_right _ _) (by norm_num))

theorem pushAll_incount (cfg : Cfg) (ps : List WordPair) (ch : Channel) :
    (pushAll cfg ch ps).incount.toNat = min (ch.incount.toNat + ps.length) (2 ^ 32 - 1) := by
  induction ps generalizing ch with
  | nil => have := ch.incount.isLt; simp only [pushAll, List.length_nil]; omega
  | cons p ps ih =>
    rw [pushAll, ih, pushOne_incount, countOne_toNat, List.length_cons]
    omega

theorem pushAll_cursor {cfg : Cfg} (ps : List WordPair) {ch : Channel} (h : ch.ring.cursor < cfg.n) :
    (pushAll cfg ch ps).ring.cursor = (ch.ring.cursor + ps.length) % cfg.n := by
  induction ps generalizing ch with
  | nil => exact (Nat.mod_eq_of_lt h).symm
  | cons p ps ih =>
    rw [pushAll, ih (by rw [pushOne_ring, ringPush_cursor]; exact Nat.mod_lt _ (by omega)), pushOne_ring,
      ringPush_cursor, List.length_cons, Nat.mod_add_mod]
    congr 1
    omega

theorem pushAll_date {cfg : Cfg} (ps : List WordPair) {ch : Channel} {k : Nat} (hd : ch.ring.date = F64.ofInt k)
    (h : k + ps.length ≤ 2 ^ 53) : (pushAll cfg ch ps).ring.date = F64.ofInt (k + ps.length : Nat) := by
  induction ps generalizing ch k with
  | nil => exact hd
  | cons p ps ih =>
    rw [List.length_cons] at h
    rw [pushAll, ih (k := k + 1) (by rw [pushOne_ring, ringPush_date, hd]; exact F64.ofInt_add_one (by omega)) (by omega),
      List.length_cons]
    congr 2
    omega

theorem pushAll_wf (cfg : Cfg) (ps : List WordPair) {ch : Channel} (h : memoryWf ch.ring.mem = true) :
    memoryWf (pushAll cfg ch ps).ring.mem = true := by
  induction ps generalizing ch with
  | nil => exact h
  | cons p ps ih => exact ih (memWrite_wf h _ _)

/-- The slots a burst no longer than the ring writes, and no others. -/
theorem pushAll_read {cfg : Cfg} (ps : List WordPair) {ch : Channel} (hw : memoryWf ch.ring.mem = true)
    (hc : ch.ring.cursor < cfg.n) (hlen : ps.length ≤ cfg.n) :
    (∀ k, (hk : k < ps.length) →
      memRead (pushAll cfg ch ps).ring.mem ((ch.ring.cursor + k) % cfg.n) = normPair ps[k]) ∧
    (∀ i, (∀ k < ps.length, i ≠ (ch.ring.cursor + k) % cfg.n) →
      memRead (pushAll cfg ch ps).ring.mem i = memRead ch.ring.mem i) := by
  induction ps generalizing ch with
  | nil => exact ⟨fun k hk => absurd hk (Nat.not_lt_zero k), fun i _ => rfl⟩
  | cons p ps ih =>
    have hn : 0 < cfg.n := by omega
    have hc' : (pushOne cfg ch p).ring.cursor < cfg.n := by
      rw [pushOne_ring, ringPush_cursor]; exact Nat.mod_lt _ hn
    rw [List.length_cons] at hlen
    obtain ⟨h1, h2⟩ := ih (ch := pushOne cfg ch p) (memWrite_wf hw _ _) hc' (by omega)
    have hcur : ∀ k, ((pushOne cfg ch p).ring.cursor + k) % cfg.n = (ch.ring.cursor + (k + 1)) % cfg.n := by
      intro k
      rw [pushOne_ring, ringPush_cursor, Nat.mod_add_mod]
      congr 1
      omega
    constructor
    · intro k hk
      cases k with
      | zero =>
        rw [pushAll, h2, pushOne_ring, ringPush_read hw, Nat.add_zero, if_pos (Nat.mod_eq_of_lt hc)]
        · rfl
        · intro k hk
          rw [hcur, Nat.add_zero]
          intro heq
          rw [Nat.mod_eq_of_lt hc] at heq
          have hk2 : k + 1 < cfg.n := by omega
          rcases Nat.lt_or_ge (ch.ring.cursor + (k + 1)) cfg.n with hlt | hge
          · rw [Nat.mod_eq_of_lt hlt] at heq; omega
          · rw [Nat.mod_eq_sub_mod hge, Nat.mod_eq_of_lt (by omega)] at heq; omega
      | succ k =>
        rw [← hcur]
        exact h1 k (by simpa using hk)
    · intro i hi
      rw [pushAll, h2 i, pushOne_ring, ringPush_read hw, if_neg]
      · have := hi 0 (by simp)
        rwa [Nat.add_zero, Nat.mod_eq_of_lt hc] at this
      · intro k hk
        rw [hcur]
        exact hi (k + 1) (by simpa using hk)

/-- PUSH1 keeps the invariant of a channel. -/
theorem ChannelInv.pushOne {cfg : Cfg} {ch : Channel} (h : ChannelInv cfg ch) (p : WordPair) :
    ChannelInv cfg (Machine.pushOne cfg ch p) :=
  ⟨h.ring.push p, h.outdate, h.unsynced,
    fun hr => ⟨(h.synced hr).nominal, (h.synced hr).finite, (h.synced hr).positive, (h.synced hr).bounded⟩,
    h.candidate, h.pending⟩

theorem ChannelInv.pushAll {cfg : Cfg} (ps : List WordPair) {ch : Channel} (h : ChannelInv cfg ch) :
    ChannelInv cfg (Machine.pushAll cfg ch ps) := by
  induction ps generalizing ch with
  | nil => exact h
  | cons p ps ih => exact ih (h.pushOne p)

end Sys2Proof.Machine
end

