-- ==== Sys2Proof/Laws/RingRead.lean ====
section
/-!
SUPPORT. The laws of RB.PULL's parts: the range guard, the fraction, the blend; what a push can store; and a ring pushed
into directly against a channel pushed into.
-/

namespace Sys2Proof.Machine

/-- NORM24 never returns -0.0 (40 R122). -/
theorem norm24_ne_negZero (w : Word) : norm24 w ≠ .fin true 0 0 := by
  intro h
  unfold norm24 at h
  obtain ⟨hl, hu⟩ := sampleOf_bounds w
  obtain ⟨hf, hv⟩ := F64.ofInt_exact (i := sampleOf w) (by omega)
  by_cases h0 : sampleOf w = 0
  · rw [h0] at h; exact absurd h (by decide +kernel)
  · have hFS := F64.toRat_fullScale
    have hz : (F64.fin true 0 0).toRat = 0 := by
      unfold F64.toRat; rw [F64.units_fin, F64.magnitude_zero]; simp [F64.signed]
    have hlo : (F64.fin false 900 0).toRat = 1 / 2 ^ 123 := by
      rw [toRat_powTwo (e := 900) (by decide) (by decide), show (900 : Fin 2047).val = 900 from rfl]; norm_num
    have hlo' : (F64.fin true 900 0).toRat = -(1 / 2 ^ 123) := by
      have := F64.toRat_neg (.fin false 900 0); rw [hlo] at this; exact this
    obtain ⟨of, ov⟩ := F64.ofInt_exact (i := 2) (by norm_num)
    obtain ⟨of', ov'⟩ := F64.ofInt_exact (i := -2) (by norm_num)
    have hFS0 : (0 : ℚ) < F64.fullScale.toRat := by rw [hFS]; norm_num
    have hlq : (-8388608 : ℚ) ≤ (sampleOf w : ℚ) := by exact_mod_cast hl
    have huq : (sampleOf w : ℚ) ≤ 8388607 := by exact_mod_cast hu
    rcases lt_or_gt_of_ne h0 with hneg | hpos
    · have hs : (sampleOf w : ℚ) ≤ -1 := by exact_mod_cast (show sampleOf w ≤ -1 by omega)
      obtain ⟨-, -, c⟩ := F64.div_between (lo := F64.ofInt (-2)) (hi := .fin true 900 0) hf F64.fullScale_isFinite hFS0
        of' rfl (by rw [hv, hFS, ov', le_div_iff₀ (by norm_num)]; push_cast; linarith)
        (by rw [hv, hFS, hlo', div_le_iff₀ (by norm_num)]; norm_num; linarith)
      rw [h, hz, hlo'] at c
      norm_num at c
    · have hs : (1 : ℚ) ≤ (sampleOf w : ℚ) := by exact_mod_cast (show 1 ≤ sampleOf w by omega)
      obtain ⟨-, c, -⟩ := F64.div_between (lo := .fin false 900 0) (hi := F64.ofInt 2) hf F64.fullScale_isFinite hFS0
        rfl of (by rw [hv, hFS, hlo, le_div_iff₀ (by norm_num)]; norm_num; linarith)
        (by rw [hv, hFS, ov, div_le_iff₀ (by norm_num)]; push_cast; linarith)
      rw [h, hz, hlo] at c
      norm_num at c

/-- The range guard (40 R126). -/
theorem inRange_iff {cfg : Cfg} {r : Ring} {d : F64} : inRange cfg r d = true ↔
    d.isFinite = true ∧ d.gt r.date = false ∧ d.lt (r.date.sub (F64.ofInt cfg.n)) = false := by
  unfold inRange
  cases d.isFinite <;> cases d.gt r.date <;> cases d.lt (r.date.sub (F64.ofInt cfg.n)) <;> simp

theorem ringPull_out {cfg : Cfg} {r : Ring} {d : F64} (h : inRange cfg r d = false) : ringPull cfg r d = silence := by
  unfold ringPull
  rw [h]; rfl

/-- The fraction of a date lies between 0 and 1, both included (40 R127). -/
theorem dateFraction_bounds {d : F64} (hd : d.isFinite = true) (hk : d.floor.natAbs ≤ 2 ^ 53) :
    (dateFraction d).isFinite = true ∧ 0 ≤ (dateFraction d).toRat ∧ (dateFraction d).toRat ≤ 1 := by
  obtain ⟨a, b⟩ := F64.ofInt_exact hk
  obtain ⟨f1, f2⟩ := F64.floor_spec d
  obtain ⟨x, y, z⟩ := F64.sub_between (lo := F64.zero) (hi := F64.one) hd a F64.zero_isFinite F64.one_isFinite
    (by rw [F64.toRat_zero, b]; linarith) (by rw [F64.toRat_one, b]; linarith)
  rw [F64.toRat_zero] at y
  rw [F64.toRat_one] at z
  exact ⟨x, y, z⟩

/-- 1.0 - f is finite and between 0 and 1 when f is. -/
theorem one_sub_bounds {f : F64} (hf : f.isFinite = true) (h0 : 0 ≤ f.toRat) (h1 : f.toRat ≤ 1) :
    (F64.one.sub f).isFinite = true ∧ 0 ≤ (F64.one.sub f).toRat ∧ (F64.one.sub f).toRat ≤ 1 := by
  obtain ⟨g1, g2, g3⟩ := F64.sub_between (x := F64.one) (y := f) (lo := F64.zero) (hi := F64.one) F64.one_isFinite hf
    F64.zero_isFinite F64.one_isFinite (by rw [F64.toRat_zero, F64.toRat_one]; linarith) (by rw [F64.toRat_one]; linarith)
  rw [F64.toRat_zero] at g2
  rw [F64.toRat_one] at g3
  exact ⟨g1, g2, g3⟩

/-- The blend of two stored samples is finite (40 R128). -/
theorem blend_finite {a b f : F64} (ha : IsSample a) (hb : IsSample b) (hf : f.isFinite = true) (h0 : 0 ≤ f.toRat)
    (h1 : f.toRat ≤ 1) : (blend a b f).isFinite = true ∧ |(blend a b f).toRat| ≤ 4 := by
  obtain ⟨a1, a2, a3⟩ := ha.finite
  obtain ⟨b1, b2, b3⟩ := hb.finite
  obtain ⟨g1, g2, g3⟩ := one_sub_bounds hf h0 h1
  have ha2 : |a.toRat| ≤ 2 := abs_le.2 ⟨a2, by linarith⟩
  have hb2 : |b.toRat| ≤ 2 := abs_le.2 ⟨b2, by linarith⟩
  obtain ⟨p1, p2⟩ := mul_bound a1 g1 (k := 1) (by norm_num)
    (by rw [abs_mul, abs_of_nonneg g2]; nlinarith [abs_nonneg a.toRat])
  obtain ⟨q1, q2⟩ := mul_bound b1 hf (k := 1) (by norm_num)
    (by rw [abs_mul, abs_of_nonneg h0]; nlinarith [abs_nonneg b.toRat])
  obtain ⟨r1, r2⟩ := add_bound p1 q1 (k := 2) (by norm_num) (by
    have := abs_add_le (a.mul (F64.one.sub f)).toRat (b.mul f).toRat
    norm_num at *; linarith)
  exact ⟨r1, by norm_num at r2; exact r2⟩

/-- Pushing pairs into a ring is what pushing them into its channel does to the ring (41 R140). -/
theorem foldl_ringPush (cfg : Cfg) (ps : List WordPair) (ch : Channel) :
    ps.foldl (ringPush cfg) ch.ring = (pushAll cfg ch ps).ring := by
  induction ps generalizing ch with
  | nil => rfl
  | cons p ps ih => exact ih (pushOne cfg ch p)

theorem RingInv.pushes {cfg : Cfg} (ps : List WordPair) {r : Ring} (h : RingInv cfg r) :
    RingInv cfg (ps.foldl (ringPush cfg) r) := by
  induction ps generalizing r with
  | nil => exact h
  | cons p ps ih => exact ih (h.push p)

end Sys2Proof.Machine
end

