-- ==== Sys2Proof/Tests/Slice0.lean ====
section
/-!
SUPPORT. Tests and witnesses. Expected values stand in the spec (95_test_vectors and the examples of the rules) or follow
by hand from its tables; none is the model's own answer. A theorem `witness_<Name>` shows a concrete state and operands
that meet the hypotheses of `Obligations.<Name>`, each clause at a boundary of its range.
-/

namespace Sys2Proof.Tests

-- One theorem after the other: checked side by side they take more memory than the sandbox gives one command.
set_option Elab.async false

open Sys2Proof.Machine

/-! ## Small states -/

/-- The register values of a channel after a window with the given count, from reset. -/
def channelAfter (cfg : Cfg) (n : BitVec 32) : Channel := detect cfg .c1 { Channel.reset with incount := n }

/-- Reset, with channel 1 as the first window left it; a count of 96 locks it to 48000 Hz under CFG_T (42 R164 (a)). -/
def stateAfter (cfg : Cfg) (n : BitVec 32) : State := (State.resetWith cfg).setChan .c1 (channelAfter cfg n)

/-- The next state of an outcome, where it has one. -/
def nextOf : Host.Outcome State Fault Refusal → Option State
  | .next t => some t
  | .fault _ => none
  | .refused _ => none

/-- CFG_T with an intermediate rate of 88200 Hz (the example column of 42 R152). -/
def cfgMid : Cfg := { Config.cfgT with midRate := some 88200 }

/-- CFG_T with PERSIST = 2 (95 2.4 (g)). -/
def cfgPersist : Cfg := { Config.cfgT with persist := 2 }

/-- CFG_T with a ring of four slots (40 R132). -/
def cfg4 : Cfg := { Config.cfgT with n := 4 }

/-- The ring of 40 R132: N = 4, six pushes of (0x00100000 * (k+1), -0x00100000 * (k+1)). -/
def ring4 : Ring := [⟨0x00100000, 0xFFF00000⟩, ⟨0x00200000, 0xFFE00000⟩, ⟨0x00300000, 0xFFD00000⟩,
  ⟨0x00400000, 0xFFC00000⟩, ⟨0x00500000, 0xFFB00000⟩, (⟨0x00600000, 0xFFA00000⟩ : WordPair)].foldl
    (ringPush cfg4) Ring.reset

/-- Two pairs of the example of 41 R142. -/
def twoPairs : List WordPair := [⟨0x00061000, 0xFFF9F000⟩, ⟨0x00062000, 0xFFF9E000⟩]

theorem cfgT_legal : legalConfig Config.cfgT = true := by decide +kernel
theorem cfgMid_legal : legalConfig cfgMid = true := by decide +kernel

theorem channelInv_reset {cfg : Cfg} (hl : legalConfig cfg = true) (n : BitVec 32) :
    ChannelInv cfg { Channel.reset with incount := n } := by
  obtain ⟨h1, -, -, h4⟩ := legal_sizes hl
  exact ⟨RingInv.reset (by omega), IsDate.zero, fun _ => rfl, fun h => absurd rfl h, ⟨fun _ => rfl, fun _ => rfl⟩, h4⟩

theorem stateAfter_inv {cfg : Cfg} (hl : legalConfig cfg = true) (hn : cfg.n < 2 ^ 53) (n : BitVec 32) :
    Inv (stateAfter cfg n) := by
  refine ⟨hl, hn, fun c => ?_, (legal_sizes hl).2.2.1⟩
  cases c
  · exact (channelInv_reset hl n).detect hl .c1
  · exact channelInv_reset hl 0
  · exact channelInv_reset hl 0

theorem ring4_inv : RingInv cfg4 ring4 := RingInv.pushes _ (RingInv.reset (by decide))

/-! ## WellFormed: an ill-formed term that the check refuses, and a well-formed one of each constructor -/

theorem test_pushs_of_one_pair_is_ill_formed :
    (Instr.pushs .c1 [⟨0, 0⟩]).wellFormed Config.cfgT = false := by decide
theorem test_pushs_of_three_pairs_is_ill_formed :
    (Instr.pushs .c3 [⟨0, 0⟩, ⟨0, 0⟩, ⟨0, 0⟩]).wellFormed Config.cfgT = false := by decide

/-! ## Decode: the words of 95 2.1, written out from 30 R91 and R94 -/

theorem test_decode_pushs :
    (∀ p ∈ [((0x11000000 : Word), Chan.c1), (0x12000000, .c2), (0x13000000, .c3)],
      decode Config.cfgT [p.1, 1, 2, 3, 4, 9] = .command (.pushs p.2 [⟨1, 2⟩, ⟨3, 4⟩]) [9] ∧
      commandLength Config.cfgT p.1 = 5) := by decide +kernel

theorem test_decode_pulls :
    decode Config.cfgT [0x20000000, 9] = .command .pulls [9] ∧ commandLength Config.cfgT 0x20000000 = 1 := by
  decide +kernel

theorem test_decode_setgain :
    (∀ p ∈ [((0x31000000 : Word), Chan.c1), (0x32000000, .c2), (0x33000000, .c3)],
      decode Config.cfgT [p.1, 0x3F000000, 9] = .command (.setgain p.2 0x3F000000) [9] ∧
      commandLength Config.cfgT p.1 = 2) := by decide +kernel

theorem test_decode_setgainm :
    decode Config.cfgT [0x40000000, 0x3E800000, 9] = .command (.setgainm 0x3E800000) [9] ∧
      commandLength Config.cfgT 0x40000000 = 2 := by decide +kernel

theorem test_decode_getsr :
    (∀ p ∈ [((0x51000000 : Word), Chan.c1), (0x52000000, .c2), (0x53000000, .c3)],
      decode Config.cfgT [p.1, 9] = .command (.getsr p.2) [9] ∧ commandLength Config.cfgT p.1 = 1) := by decide +kernel

/-- The reserved headers of 95 2.1, each with the reason of 30 R105 that the table gives. -/
theorem test_decode_reserved :
    (∀ p ∈ [((0x10000000 : Word), Reserved.channelMissing), (0x30000000, .channelMissing),
        (0x50000000, .channelMissing), (0x21000000, .channelOnGlobal), (0x43000000, .channelOnGlobal),
        (0x00000000, .op), (0x60000000, .op), (0xF0000000, .op), (0x14000000, .rz1), (0x28000000, .rz1),
        (0x11000001, .rz0), (0x20800000, .rz0)],
      decode Config.cfgT [p.1, 9] = .reserved p.2 [9] ∧ commandLength Config.cfgT p.1 = 1) := by decide +kernel

/-- The opcode table's rows, with a channel number where the row asks for one; with none they are reserved (30 R100). -/
theorem test_decode_table_words :
    decodeTableWord 32 0x12000000 = some (.pushs .c2 [⟨0, 0⟩, ⟨0, 0⟩]) ∧
    decodeTableWord 32 0x20000000 = some .pulls ∧
    decodeTableWord 64 0x3F00000033000000 = some (.setgain .c3 0x3F000000) ∧
    decodeTableWord 32 0x40000000 = some (.setgainm 0) ∧
    decodeTableWord 32 0x51000000 = some (.getsr .c1) ∧
    decodeTableWord 32 0x50000000 = none := by decide +kernel

/-! ## Steps -/

/-- The five words of 41 R142 run as the first step after reset, and their example's result. -/
theorem test_pushs_example :
    nextOf (step (State.reset.withFetchWord 160 0xFFF9E00000062000FFF9F0000006100011000000)) = some (State.reset.setChan .c1
      { Channel.reset with
        ring := { mem := [(0, ⟨F64.ofBits 0x3FA8400030800061, F64.ofBits 0xBFA8400030800061⟩),
                          (1, ⟨F64.ofBits 0x3FA8800031000062, F64.ofBits 0xBFA8800031000062⟩)],
                  cursor := 2, date := F64.ofInt 2 }
        incount := 2 }) := by decide +kernel

/-- Saturation (95 2.3): with INCOUNT at 4294967294 the first pair reaches the limit and the second stays. -/
theorem test_pushs_saturates :
    (pushAll Config.cfgT { Channel.reset with incount := 4294967294 } twoPairs).incount = 4294967295 ∧
    (pushAll Config.cfgT { Channel.reset with incount := 4294967294 } twoPairs).ring.cursor = 2 := by decide +kernel

/-- PULLS from reset (44 R193): eight zero words, every OUTDATE 4.0, PULLCNT 4, all else as at reset. -/
theorem test_pulls_from_reset :
    nextOf (step (State.reset.withFetchWord 32 0x20000000)) = some { State.reset with
      chans := ⟨{ Channel.reset with outdate := F64.ofInt 4 }, { Channel.reset with outdate := F64.ofInt 4 },
                { Channel.reset with outdate := F64.ofInt 4 }⟩
      pullcnt := 4
      rsp := [0, 0, 0, 0, 0, 0, 0, 0] } := by decide +kernel

/-- The tick that ends a window locks channel 1 and returns PULLCNT to 0 (42 R164 (a), 44 R191); it still sends zeros
(44 R192 (d)). -/
theorem test_pulls_ends_a_window :
    tickAndSend { State.reset.setChan .c1 { Channel.reset with
        ring := { Ring.reset with date := F64.ofInt 96 }, incount := 96, outdate := F64.ofInt 95 } with pullcnt := 95 } =
      { State.reset.setChan .c1 { Channel.reset with rate := .sr48000, nominal := F64.one, drift := F64.one } with
        chans := ⟨{ Channel.reset with rate := .sr48000, nominal := F64.one, drift := F64.one }, Channel.reset,
          Channel.reset⟩
        rsp := [0, 0] } := by decide +kernel

/-- SETGAIN 1, 0.5 (45 R200). -/
theorem test_setgain_example :
    nextOf (step (State.reset.withFetchWord 64 0x3F00000031000000)) =
      some (State.reset.setChan .c1 { Channel.reset with gain := F64.ofBits 0x3FE0000000000000 }) := by decide +kernel

/-- The gain operands of 95 2.1. -/
theorem test_gain_operands :
    gainOf 0x3F800000 = F64.ofBits 0x3FF0000000000000 ∧ gainOf 0xBF800000 = F64.ofBits 0xBFF0000000000000 ∧
    gainOf 0x3DCCCCCD = F64.ofBits 0x3FB99999A0000000 ∧ gainOf 0x00000001 = F64.ofBits 0x36A0000000000000 ∧
    gainOf 0x7F800000 = .inf false ∧ gainOf 0x7FC00000 = .nan := by decide +kernel

/-- SETGAINM 0.25 (45 R201). -/
theorem test_setgainm_example :
    nextOf (step (State.reset.withFetchWord 64 0x3E80000040000000)) =
      some { State.reset with mgain := F64.ofBits 0x3FD0000000000000 } := by decide +kernel

/-- GETSR 2 with RATE[2] = SR32000 sends 0x00000001 (45 R202). -/
theorem test_getsr_example :
    nextOf (step ((State.reset.setChan .c2 { Channel.reset with rate := .sr32000 }).withFetchWord 32 0x52000000)) =
      some { State.reset.setChan .c2 { Channel.reset with rate := .sr32000 } with rsp := [0x00000001] } := by
  decide +kernel

/-! ## Vectors of the shared operations -/

/-- NORM24 (95 2.2). -/
theorem test_norm24_vectors :
    norm24 0xFF800000 = F64.ofBits 0xBFF0000020000040 ∧
    norm24 0xAB123456 = F64.ofBits 0x3FC234562468AC49 ∧
    norm24 0x12FFFFFF = F64.ofBits 0xBE80000020000040 ∧
    norm24 0xFFC00000 = F64.ofBits 0xBFE0000020000040 ∧
    norm24 0x01000000 = F64.ofBits 0 ∧
    norm24 0x00061000 = F64.ofBits 0x3FA8400030800061 := by decide +kernel

/-- RB.PULL in the ring of 40 R132 (95 2.2), left lanes: both edges, the stale blend, and dates out of range. -/
theorem test_ring_pull_vectors :
    (ringPull cfg4 ring4 (F64.ofBits 0x4018000000000000)).l = F64.ofBits 0x3FD8000030000060 ∧
    (ringPull cfg4 ring4 (F64.ofBits 0x4016000000000000)).l = F64.ofBits 0x3FE2000024000048 ∧
    (ringPull cfg4 ring4 (F64.ofBits 0x4013000000000000)).l = F64.ofBits 0x3FE700002E00005C ∧
    (ringPull cfg4 ring4 (F64.ofBits 0x4002000000000000)).l = F64.ofBits 0x3FDA000034000068 ∧
    (ringPull cfg4 ring4 (F64.ofBits 0x4000000000000000)).l = F64.ofBits 0x3FD8000030000060 ∧
    (ringPull cfg4 ring4 (F64.ofBits 0x3FFFFBE76C8B4396)).l = F64.ofBits 0 ∧
    (ringPull cfg4 ring4 (F64.ofBits 0xBFF0000000000000)).l = F64.ofBits 0 ∧
    (ringPull cfg4 ring4 (F64.ofBits 0x7FF8000000000000)).l = F64.ofBits 0 := by
  decide +kernel

/-- The same after RB.CLEAR (95 2.2): negative dates, and the fraction that rounds up to 1.0 at -1e-20. -/
theorem test_ring_pull_after_clear :
    (ringPull cfg4 (ringClear ring4) (F64.ofBits 0x0000000000000000)).l = F64.ofBits 0x3FE4000028000050 ∧
    (ringPull cfg4 (ringClear ring4) (F64.ofBits 0xBFF0000000000000)).l = F64.ofBits 0x3FE0000020000040 ∧
    (ringPull cfg4 (ringClear ring4) (F64.ofBits 0xBFE0000000000000)).l = F64.ofBits 0x3FE2000024000048 ∧
    (ringPull cfg4 (ringClear ring4) (F64.ofBits 0xC010000000000000)).l = F64.ofBits 0x3FE4000028000050 ∧
    (ringPull cfg4 (ringClear ring4) (F64.ofBits 0xC012000000000000)).l = F64.ofBits 0 ∧
    (ringPull cfg4 (ringClear ring4) (F64.ofBits 0xBBC79CA10C924223)).l = F64.ofBits 0x3FE4000028000050 := by
  decide +kernel

/-- CVT24 (44 R186): 8388607.0, -8388608.9, 2147483647.5, -2147483648.5, and a draw at 2147483648.0. -/
theorem test_cvt24_vectors :
    cvt24 (F64.ofBits 0x415FFFFFC0000000) 7 = (0x007FFFFF, 7) ∧ cvt24 (F64.ofBits 0xC16000001CCCCCCD) 7 = (0xFF800000, 7) ∧
    cvt24 (F64.ofBits 0x41DFFFFFFFE00000) 7 = (0x7FFFFFFF, 7) ∧ cvt24 (F64.ofBits 0xC1E0000000100000) 7 = (0x80000000, 7) ∧
    (cvt24 (F64.ofBits 0x41E0000000000000) 7).2 = 8 := by decide +kernel

/-- DETECT (42 R164): (b) a fresh lock at 32000 Hz, (c) a loss that keeps NOMINAL, (e) a rate change. -/
theorem test_detect_vectors :
    (detect Config.cfgT .c2 { Channel.reset with incount := 64 }).nominal = F64.ofBits 0x3FE5555555555555 ∧
    detect Config.cfgT .c2 { Channel.reset with
        rate := .sr32000, nominal := F64.ofBits 0x3FE5555555555555, drift := F64.one, incount := 2
        ring := { Ring.reset with cursor := 2, date := F64.ofInt 2 } } =
      { Channel.reset with nominal := F64.ofBits 0x3FE5555555555555 } ∧
    (detect Config.cfgT .c1 { channelAfter Config.cfgT 96 with incount := 64 }).rate = .sr32000 := by decide +kernel

/-! ## Witnesses: the encoding and the stream -/

/-- One well-formed command of each constructor. -/
def oneOfEach : List Instr :=
  [.pushs .c1 twoPairs, .pulls, .setgain .c2 0x40000000, .setgainm 0x3E800000, .getsr .c3]

theorem witness_DecodeEncodeRoundTrip : ∀ i ∈ oneOfEach, i.wellFormed Config.cfgT = true := by decide

theorem witness_DecodedCommandIsItsEncoding :
    decode Config.cfgT [0x31000000, 0x3F000000, 0x20000000] = .command (.setgain .c1 0x3F000000) [0x20000000] := by
  decide +kernel

/-- Reset, with the given input waiting. -/
def waiting (input : List Input) : State := State.reset.withInput input

theorem witness_StepRunsTheDecodedCommand :
    legalConfig (waiting (placeWords [0x20000000] [])).cfg = true ∧
    decode (waiting (placeWords [0x20000000] [])).cfg [0x20000000] = .command .pulls [] ∧
    (waiting (placeWords [0x20000000] [])).cmd = placeWords [0x20000000] [] :=
  ⟨cfgT_legal, rfl, rfl⟩

theorem witness_StepRefusesReservedHeader :
    legalConfig (waiting [.word 0x60000000]).cfg = true ∧ decodeHeader 0x60000000 = .error .op ∧
    (waiting [.word 0x60000000]).cmd = .word 0x60000000 :: [] :=
  ⟨cfgT_legal, rfl, rfl⟩

/-- A PUSHS short of its last word; and no word at all. -/
theorem witness_IncompleteCommandIsNotStarted :
    (decodeHeader 0x11000000 = .ok (.pushs .c1) ∧ [1, 2, (3 : Word)].length < payloadLength Config.cfgT (.pushs .c1) ∧
      (waiting (placeWords [0x11000000, 1, 2, 3] [])).cmd = placeWords [0x11000000, 1, 2, 3] []) ∧
    legalConfig (waiting []).cfg = true ∧ (waiting []).cmd = [] :=
  ⟨⟨rfl, by decide, rfl⟩, cfgT_legal, rfl⟩

/-- A RESET between commands, and one in the middle of a SETGAIN. -/
theorem witness_ResetEventRestoresEveryRegister :
    legalConfig Config.cfgT = true ∧ decode Config.cfgT [] = .incomplete ∧
    decode Config.cfgT [0x31000000] = .incomplete ∧
    (waiting (placeWords [0x31000000] (.reset :: []))).cmd = placeWords [0x31000000] (.reset :: []) :=
  ⟨cfgT_legal, rfl, rfl, rfl⟩

theorem reserved_step : step (waiting [.word 0x60000000]) = .refused (.reservedHeader .op) :=
  step_legal (s := waiting [.word 0x60000000]) cfgT_legal

theorem witness_NoCommandCanFault : ∃ s r, legalConfig s.cfg = true ∧ step s = .refused r :=
  ⟨waiting [.word 0x60000000], _, cfgT_legal, reserved_step⟩

theorem pulls_step : step (waiting [.word 0x20000000]) = .next (ticks 4 State.reset) :=
  step_legal (s := waiting [.word 0x20000000]) cfgT_legal

theorem witness_StepKeepsConfigurationAndSentWords : ∃ s t, step s = .next t := ⟨_, _, pulls_step⟩

theorem witness_LaterInputDoesNotChangeAStep : ∃ s t, fetch s.cfg s.cmd ≠ .wait ∧ step s = .next t :=
  ⟨_, _, by decide, pulls_step⟩

theorem witness_StreamIsSequentiallyConsistent :
    legalConfig State.reset.cfg = true ∧ ∀ i ∈ oneOfEach, i.wellFormed State.reset.cfg = true :=
  ⟨cfgT_legal, by decide⟩

theorem witness_WellFormedStreamNeverStops :
    legalConfig State.reset.cfg = true ∧ ∀ i ∈ oneOfEach, i.wellFormed State.reset.cfg = true :=
  ⟨cfgT_legal, by decide⟩

/-! ## Witnesses: configuration and invariant -/

/-- A legal configuration, and one whose bands overlap (95 2.4: W = 1). -/
theorem witness_IllegalConfigurationIsRefused :
    legalConfig Config.cfgT = true ∧ legalConfig { Config.cfgT with w := 1 } = false ∧
    rateHz Config.cfgT .sr48000 = some 48000 ∧ rateHz Config.cfgT .sr96000 = some 96000 ∧
    cfgMid.midRate = some 88200 := by decide +kernel

theorem witness_ResetStateHoldsTheResetValues :
    (State.reset = State.reset ∨ ∃ cfg : Cfg, State.reset = State.resetWith cfg) ∧
    (State.resetWith cfgMid = State.reset ∨ ∃ cfg : Cfg, State.resetWith cfgMid = State.resetWith cfg) :=
  ⟨.inl rfl, .inr ⟨_, rfl⟩⟩

theorem witness_ResetStateMeetsTheInvariant : legalConfig cfgMid = true ∧ cfgMid.n < 2 ^ 53 := ⟨cfgMid_legal, by decide⟩

/-- A channel locked to 48000 Hz. -/
def locked : State := stateAfter Config.cfgT 96

theorem locked_inv : Inv locked := stateAfter_inv cfgT_legal (by decide) 96

theorem locked_rate : (locked.chan .c1).rate = .sr48000 := by decide +kernel

theorem locked_step : step (locked.withInput [.word 0x20000000]) = .next (ticks 4 locked) :=
  step_legal (s := locked.withInput [.word 0x20000000]) cfgT_legal

theorem locked_withInput_inv (xs : List Input) : Inv (locked.withInput xs) :=
  ⟨locked_inv.legal, locked_inv.capacity, locked_inv.chans, locked_inv.pullcnt⟩

theorem witness_EveryStepKeepsTheInvariant : ∃ s t, Inv s ∧ step s = .next t :=
  ⟨_, _, locked_withInput_inv _, locked_step⟩

/-! ## Witnesses: the ring and the push path -/

theorem ringReset_inv : RingInv Config.cfgT Ring.reset := RingInv.reset (by decide)

theorem witness_PushsNetEffect :
    legalConfig State.reset.cfg = true ∧ RingInv State.reset.cfg (State.reset.chan .c1).ring ∧
    (State.reset.chan .c1).ring.date = F64.ofInt (0 : Nat) ∧ 0 + twoPairs.length ≤ 2 ^ 53 ∧
    (Instr.pushs .c1 twoPairs).wellFormed State.reset.cfg = true :=
  ⟨cfgT_legal, ringReset_inv, by decide +kernel, by decide, rfl⟩

/-- Fewer pairs than slots, and more: the six of 40 R132 in four slots. -/
theorem witness_RingHoldsTheLastSamples :
    2 ≤ cfg4.n ∧ memoryWf (ringClear ring4).mem = true ∧ (ringClear ring4).cursor = 0 ∧
    (ringClear ring4).date = F64.zero ∧ twoPairs.length ≤ 2 ^ 53 ∧ (twoPairs ++ twoPairs ++ twoPairs).length ≤ 2 ^ 53 :=
  ⟨by decide, ring4_inv.canonical, rfl, rfl, by decide, by decide⟩

theorem witness_DateCountsPushesUpToTheLimit :
    ({ ring4 with date := F64.ofInt (2 ^ 53 - 1 : Nat) } : Ring).date = F64.ofInt (2 ^ 53 - 1 : Nat) ∧
    2 ^ 53 - 1 < 2 ^ 53 ∧
    ({ ring4 with date := F64.ofInt (2 ^ 53 : Nat) } : Ring).date = F64.ofInt (2 ^ 53 : Nat) := ⟨rfl, by decide, rfl⟩

/-- The ring of 40 R132 with the cases of the guard: a NaN, just above DATE = 6, just below DATE - N = 2, and both
bounds themselves. -/
theorem witness_RingPullRule :
    RingInv cfg4 ring4 ∧ cfg4.n < 2 ^ 53 ∧ 6 ≤ 2 ^ 53 ∧ ring4.date = F64.ofInt (6 : Nat) ∧
    F64.nan.isFinite = false ∧ (F64.ofBits 0x4018000000000001).gt ring4.date = true ∧
    (F64.ofBits 0x3FFFFFFFFFFFFFFF).lt (ring4.date.sub (F64.ofInt cfg4.n)) = true ∧
    inRange cfg4 ring4 (F64.ofInt 6) = true ∧ inRange cfg4 ring4 (F64.ofInt 2) = true :=
  ⟨ring4_inv, by decide, by decide, by decide +kernel, rfl, by decide +kernel, by decide +kernel, by decide +kernel,
    by decide +kernel⟩

/-- Dates 2 and 6 are the two edges of the range, 1 and 7 lie just outside. -/
theorem witness_IntegerDateReadsOneSlot :
    RingInv cfg4 ring4 ∧ cfg4.n < 2 ^ 53 ∧ ring4.date = F64.ofInt (6 : Nat) ∧
    (∀ k ∈ [(2 : Int), 6], k.natAbs ≤ 2 ^ 53 ∧ (6 : Int) - cfg4.n ≤ k ∧ k ≤ 6) ∧
    (∀ k ∈ [(1 : Int), 7], k.natAbs ≤ 2 ^ 53 ∧ (k < (6 : Int) - cfg4.n ∨ (6 : Int) < k)) :=
  ⟨ring4_inv, by decide, by decide +kernel, by decide, by decide⟩

theorem witness_BlendAtZeroAndAtOneHalf : IsSample (norm24 0x00200000) ∧ IsSample (norm24 0x00800000) :=
  ⟨⟨_, rfl⟩, ⟨_, rfl⟩⟩

theorem witness_PushThenPullReturnsTheSample :
    2 ≤ Config.cfgT.n ∧ Config.cfgT.n < 2 ^ 53 ∧ twoPairs.length < Config.cfgT.n ∧ 0 < twoPairs.length ∧
    1 < twoPairs.length := by decide

/-- The cleared ring of 95 2.2 with the dates -4, -0.5 and 0. -/
theorem witness_ClearKeepsTheStorage :
    RingInv cfg4 ring4 ∧ cfg4.n < 2 ^ 53 ∧
    (F64.ofBits 0xBFE0000000000000).isFinite = true ∧
    (F64.ofBits 0xBFE0000000000000).ge (F64.ofInt (-(cfg4.n : Int))) = true ∧
    (F64.ofBits 0xBFE0000000000000).le F64.zero = true ∧ -(cfg4.n : Int) ≤ -4 ∧ -(cfg4.n : Int) ≤ 0 :=
  ⟨ring4_inv, by decide, by decide +kernel, by decide +kernel, by decide +kernel, by decide, by decide⟩

theorem witness_PushesOfDifferentChannelsCommute :
    ∃ t u, Chan.c1 ≠ .c2 ∧ exec (.pushs .c1 twoPairs) State.reset = .next t ∧ exec (.pushs .c2 twoPairs) t = .next u :=
  ⟨_, _, by decide, rfl, rfl⟩

theorem witness_SaturatedCountMatchesNothing :
    (4294967294 : BitVec 32).toNat < 2 ^ 32 - 1 ∧ (4294967295 : BitVec 32).toNat = 2 ^ 32 - 1 ∧
    legalConfig Config.cfgT = true := ⟨by decide, by decide, cfgT_legal⟩

/-! ## Witnesses: operands -/

theorem witness_Norm24Rule :
    (0x00800000 : Word).extractLsb' 0 24 = (0xFF800000 : Word).extractLsb' 0 24 ∧
    ((0x00800001 : Word).extractLsb' 0 24).toInt ≠ -8388608 := by decide

/-- A NaN and the two bounds draw; one data step inside each bound does not. -/
theorem witness_Cvt24Rule :
    F64.nan.isNaN = true ∧ outOfInt32 (F64.ofBits 0x41E0000000000000) = true ∧
    outOfInt32 (F64.ofBits 0xC1E0000000200000) = true ∧ outOfInt32 (F64.ofBits 0x41DFFFFFFFFFFFFF) = false ∧
    outOfInt32 (F64.ofBits 0xC1E00000001FFFFF) = false := by decide +kernel

/-- An infinity, a NaN, a subnormal and a normal number. -/
theorem witness_WidenIsExact :
    ((0x7F800000 : Word).extractLsb' 23 8).toNat = 255 ∧ ((0x7F800000 : Word).extractLsb' 0 23).toNat = 0 ∧
    ((0x7FC00000 : Word).extractLsb' 23 8).toNat = 255 ∧ ((0x7FC00000 : Word).extractLsb' 0 23).toNat ≠ 0 ∧
    ((0x00000001 : Word).extractLsb' 23 8).toNat ≠ 255 ∧ ((0x80000000 : Word).extractLsb' 23 8).toNat = 0 ∧
    ((0x7F7FFFFF : Word).extractLsb' 23 8).toNat ≠ 255 := by decide

theorem witness_SetgainEffect :
    synced (locked.chan .c1) = true ∧ synced (locked.chan .c2) = false := by decide +kernel

/-- A master gain of zero with finite sums, and an infinite and a NaN one. -/
theorem witness_SetgainmEffect :
    (F64.widen 0x80000000).eq F64.zero = true ∧
    (((contribution locked.cfg .c1 (locked.chan .c1)).l.add (contribution locked.cfg .c2 (locked.chan .c2)).l).add
      (contribution locked.cfg .c3 (locked.chan .c3)).l).isFinite = true ∧
    (((contribution locked.cfg .c1 (locked.chan .c1)).r.add (contribution locked.cfg .c2 (locked.chan .c2)).r).add
      (contribution locked.cfg .c3 (locked.chan .c3)).r).isFinite = true ∧
    (F64.widen 0x7F800000).isFinite = false ∧ (F64.widen 0x7FC00000).isFinite = false := by decide +kernel

/-- The six rates, each found by a window of the count in the middle of its band (42 R152), and code 4 in a state that
meets the invariant. -/
theorem witness_GetsrEffect :
    ((stateAfter cfgMid 0).chan .c1).rate = .nosync ∧ ((stateAfter cfgMid 64).chan .c1).rate = .sr32000 ∧
    ((stateAfter cfgMid 88).chan .c1).rate = .sr44100 ∧ ((stateAfter cfgMid 96).chan .c1).rate = .sr48000 ∧
    ((stateAfter cfgMid 176).chan .c1).rate = .srmid ∧ ((stateAfter cfgMid 192).chan .c1).rate = .sr96000 ∧
    Inv (stateAfter cfgMid 176) ∧ rateWord ((stateAfter cfgMid 176).chan .c1).rate = 0x00000004 :=
  ⟨by decide +kernel, by decide +kernel, by decide +kernel, by decide +kernel, by decide +kernel, by decide +kernel,
    stateAfter_inv cfgMid_legal (by decide) 176, by decide +kernel⟩

/-! ## Witnesses: the detector -/

theorem witness_ClassifyFindsTheOneBand :
    legalConfig Config.cfgT = true ∧ rateHz Config.cfgT .sr48000 = some 48000 ∧
    classifyRate Config.cfgT .c1 98 = .sr48000 ∧ classifyRate Config.cfgT .c1 99 = .nosync :=
  ⟨cfgT_legal, rfl, by decide +kernel, by decide +kernel⟩

/-- A locked channel in the last tick of a window with the count 99, just above its band; and a tick before it. -/
theorem witness_SyncLossResetsTogether :
    (∃ s : State, s = { locked.setChan .c1 { locked.chan .c1 with incount := 99 } with pullcnt := 95 } ∧
      s.pullcnt + 1 = s.cfg.w ∧ classifyRate s.cfg .c1 (s.chan .c1).incount.toNat = .nosync) ∧
    ∃ s : State, s = { locked with pullcnt := 94 } ∧ s.pullcnt + 1 ≠ s.cfg.w :=
  ⟨⟨_, rfl, by decide, by decide +kernel⟩, _, rfl, by decide⟩

/-- With PERSIST = 2: a first match, and a second of the same rate. -/
theorem witness_FreshLockRule :
    rateHz cfgPersist .sr48000 = some 48000 ∧ classifyRate cfgPersist .c1 (96 : BitVec 32).toNat = .sr48000 ∧
    Rate.sr48000 ≠ Channel.reset.rate ∧ 1 = (if Rate.sr48000 = Channel.reset.cand then Channel.reset.candcnt + 1 else 1) ∧
    1 < cfgPersist.persist ∧
    2 = (if Rate.sr48000 = (channelAfter cfgPersist 96).cand then (channelAfter cfgPersist 96).candcnt + 1 else 1) ∧
    cfgPersist.persist ≤ 2 := by decide +kernel

theorem witness_SameRateKeepsTheChannel :
    (channelAfter Config.cfgT 96).rate ≠ .nosync ∧
    classifyRate Config.cfgT .c1 ({ channelAfter Config.cfgT 96 with incount := 98 } : Channel).incount.toNat =
      (channelAfter Config.cfgT 96).rate := by decide +kernel

/-- One window short of PERSIST, and PERSIST of them. -/
theorem witness_LockNeedsPersistWindows :
    1 ≤ cfgPersist.persist ∧ rateHz cfgPersist .sr48000 = some 48000 ∧ Rate.sr48000 ≠ Channel.reset.rate ∧
    Channel.reset.cand = .nosync ∧ Channel.reset.candcnt = 0 ∧
    (∀ n ∈ [(94 : BitVec 32), 98], classifyRate cfgPersist .c1 n.toNat = .sr48000) ∧ [(94 : BitVec 32)] ≠ [] ∧
    [(94 : BitVec 32)].length < cfgPersist.persist ∧ [(94 : BitVec 32), 98].length = cfgPersist.persist := by
  refine ⟨by decide, rfl, by decide, rfl, rfl, fun n hn => ?_, by decide, by decide, rfl⟩
  rcases List.mem_pair.1 hn with rfl | rfl <;> decide +kernel

theorem witness_DetectNeverTouches :
    Chan.c2 ≠ .c1 ∧ legalConfig Config.cfgT = true ∧
    (synced (locked.chan .c1) = true ↔ (locked.chan .c1).rate ≠ .nosync) :=
  ⟨by decide, cfgT_legal, by decide +kernel⟩

theorem witness_SyncedExactlyWhileRated : ∃ s t, Inv s ∧ step s = .next t ∧ (s.chan .c1).rate ≠ .nosync ∧
    (s.chan .c2).rate = .nosync :=
  ⟨_, _, locked_withInput_inv _, locked_step, by decide +kernel, by decide +kernel⟩

/-! ## Witnesses: the pull path -/

/-- A synchronised channel 1 and a silent channel 2, and contributions as the statement asks for them. -/
theorem witness_PullsSendsItsTicks :
    (locked.chan .c1).drift.eq F64.zero = false ∧ (locked.chan .c2).drift.eq F64.zero = true ∧
    ∃ x : Chan → Pair, ∀ c,
      ((locked.chan c).drift.eq F64.zero = true → x c = ⟨F64.zero, F64.zero⟩) ∧
      ((locked.chan c).drift.eq F64.zero = false → ∀ r,
        r = ((locked.chan c).outdate.mul (locked.chan c).drift).sub (F64.ofInt (locked.cfg.bIn.get c)) →
        x c = ⟨(ringPull locked.cfg (locked.chan c).ring r).l.mul (locked.chan c).gain,
               (ringPull locked.cfg (locked.chan c).ring r).r.mul (locked.chan c).gain⟩) := by
  refine ⟨by decide +kernel, by decide +kernel, fun c => contribution locked.cfg c (locked.chan c), fun c =>
    ⟨fun h => contribution_unsynced (by unfold synced; rw [h]; rfl), fun h r hr => ?_⟩⟩
  subst hr
  show contribution locked.cfg c (locked.chan c) = _
  unfold contribution
  rw [show synced (locked.chan c) = true by unfold synced; rw [h]; rfl]
  rfl

theorem witness_PullsInsideAWindow :
    Inv locked ∧ locked.pullcnt + locked.cfg.bOut < locked.cfg.w ∧
    (locked.chan .c1).outdate = F64.ofInt (0 : Nat) ∧ 0 + locked.cfg.bOut ≤ 2 ^ 53 ∧ synced (locked.chan .c2) = false :=
  ⟨locked_inv, by decide, by decide +kernel, by decide, by decide +kernel⟩

/-- A state other than reset: one window without a match has ended. -/
theorem witness_SilentBlockStaysSilent : Quiet (stateAfter Config.cfgT 0) :=
  ⟨stateAfter_inv cfgT_legal (by decide) 0, fun c => by cases c <;> decide +kernel,
    fun c => by cases c <;> decide +kernel, rfl⟩

/-- Finite, infinite and NaN master gains. -/
theorem witness_UnlockedTickOutputsZero :
    Inv (stateAfter Config.cfgT 99) ∧ (∀ c, ((stateAfter Config.cfgT 99).chan c).rate = .nosync) ∧
    (stateAfter Config.cfgT 99).mgain.isFinite = true ∧
    Inv { stateAfter Config.cfgT 99 with mgain := .inf true } ∧ (F64.inf true).isFinite = false ∧
    Inv { stateAfter Config.cfgT 99 with mgain := .nan } ∧ F64.nan.isFinite = false :=
  have h := stateAfter_inv cfgT_legal (by decide) 99
  ⟨h, fun c => by cases c <;> decide +kernel, rfl, ⟨h.legal, h.capacity, h.chans, h.pullcnt⟩, rfl,
    ⟨h.legal, h.capacity, h.chans, h.pullcnt⟩, rfl⟩

/-- A channel that is not synchronised, and one with another gain and another ring. -/
theorem witness_SilentChannelIsNotHeard :
    synced (locked.chan .c2) = false ∧ synced { Channel.reset with gain := .nan, ring := ring4 } = false := by
  decide +kernel

/-- Gains at both bounds. -/
theorem witness_UnitGainsDrawNothing :
    ∃ t, Inv locked ∧
      (∀ c, (locked.chan c).gain.ge (F64.ofInt (-1)) = true ∧ (locked.chan c).gain.le F64.one = true) ∧
      locked.mgain.ge (F64.ofInt (-1)) = true ∧ locked.mgain.le F64.one = true ∧
      (F64.ofInt (-1)).ge (F64.ofInt (-1)) = true ∧ exec .pulls locked = .next t :=
  ⟨_, locked_inv, fun c => by cases c <;> decide +kernel, by decide +kernel, by decide +kernel, by decide +kernel, rfl⟩

/-! ## Witnesses: the read date and the drift filter -/

theorem witness_ReadDateOfALockedChannelIsFinite : Inv locked ∧ (locked.chan .c1).rate ≠ .nosync :=
  ⟨locked_inv, by decide +kernel⟩

theorem witness_ReadDateStartsOneBurstBack :
    1 ≤ Config.cfgT.bIn.get .c1 ∧ Config.cfgT.bIn.get .c1 ≤ 2 ^ 53 ∧ (locked.chan .c1).outdate = F64.zero ∧
    (locked.chan .c1).drift.isFinite = true := by decide +kernel

/-- No pair since the lock, and as many as the bound allows: N - B_IN = 14. -/
theorem witness_FirstReadAfterLockIsOldContent :
    legalConfig Config.cfgT = true ∧ Config.cfgT.n < 2 ^ 53 ∧ RingInv Config.cfgT Ring.reset ∧
    rateHz Config.cfgT .sr32000 = some 32000 ∧
    ([] : List WordPair).length ≤ Config.cfgT.n - Config.cfgT.bIn.get .c1 ∧
    (List.replicate 14 (⟨1, 2⟩ : WordPair)).length ≤ Config.cfgT.n - Config.cfgT.bIn.get .c1 :=
  ⟨cfgT_legal, by decide, ringReset_inv, rfl, by decide, by decide⟩

/-- At the lock the correction is 1.0 (43 R181 (a)): within the bounds. -/
theorem witness_ClampHoldsTheCorrection :
    Inv locked ∧ (locked.chan .c1).rate ≠ .nosync ∧
    (correction locked.cfg .c1 (locked.chan .c1) (readDate locked.cfg .c1 (locked.chan .c1))).ge
      ((locked.chan .c1).nominal.mul F64.half) = true ∧
    (correction locked.cfg .c1 (locked.chan .c1) (readDate locked.cfg .c1 (locked.chan .c1))).le
      ((locked.chan .c1).nominal.mul F64.threeHalves) = true :=
  ⟨locked_inv, by decide +kernel, by decide +kernel, by decide +kernel⟩

theorem witness_DriftUpdateStaysInBand :
    Inv locked ∧ (locked.chan .c1).rate ≠ .nosync ∧
    (locked.chan .c1).drift.ge ((locked.chan .c1).nominal.mul F64.half) = true ∧
    (locked.chan .c1).drift.le ((locked.chan .c1).nominal.mul F64.threeHalves) = true :=
  ⟨locked_inv, by decide +kernel, by decide +kernel, by decide +kernel⟩

theorem witness_DriftExamples : ∃ d : F64 → F64 → F64 → F64, d = (fun nom date r =>
    (driftAdjust Config.cfgT .c1 r
      { Channel.reset with nominal := nom, drift := nom, ring := { Ring.reset with date := date } }).drift) := ⟨_, rfl⟩

/-- A silent and a locked channel; the corrections of 43 R181: within the bounds of the clamp, above and below them. -/
theorem witness_TickFiltersASynchronisedChannel :
    (locked.chan .c2).drift.eq F64.zero = true ∧ (locked.chan .c1).drift.eq F64.zero = false ∧
    (F64.ofBits 0x3FF0400000000000).lt (F64.one.mul F64.half) = false ∧
    (F64.ofBits 0x3FF0400000000000).gt (F64.one.mul F64.threeHalves) = false ∧
    (F64.ofBits 0x4004600000000000).gt (F64.one.mul F64.threeHalves) = true ∧
    (F64.ofBits 0x3FCA000000000000).lt (F64.one.mul F64.half) = true := by decide +kernel

/-! ## Witnesses: the whole machine -/

/-- Two states that agree on channel 1 and differ on channel 2 and in the master gain. -/
theorem witness_ChannelsAreIsolated :
    ∃ s' t t', locked.cfg = s'.cfg ∧ locked.pullcnt = s'.pullcnt ∧ locked.chan .c1 = s'.chan .c1 ∧
      locked.chan .c2 ≠ s'.chan .c2 ∧ locked.mgain ≠ s'.mgain ∧ exec .pulls locked = .next t ∧
      exec .pulls s' = .next t' :=
  ⟨{ locked.setChan .c2 { Channel.reset with ring := ring4 } with mgain := F64.half }, _, _, rfl, rfl, rfl,
    by decide +kernel, by decide +kernel, rfl, rfl⟩

/-- A step that changes a gain, and its input, which is no RESET. -/
theorem witness_RegistersChangeOnlyByTheirCommands :
    ∃ t, step (waiting (placeWords [0x31000000, 0x3F000000] [])) = .next t ∧
      (∀ rest, fetch Config.cfgT (placeWords [0x31000000, 0x3F000000] []) ≠ .reset rest) ∧
      (t.chan .c1).gain ≠ ((waiting (placeWords [0x31000000, 0x3F000000] [])).chan .c1).gain :=
  ⟨State.reset.setChan .c1 { Channel.reset with gain := gainOf 0x3F000000 },
    step_legal (s := waiting (placeWords [0x31000000, 0x3F000000] [])) cfgT_legal,
    fun rest h => (by cases h), by decide +kernel⟩

end Sys2Proof.Tests
end

/-!
PROOFS. The scope of the model (00_scope): which configurations a step takes (R13, R153, R242), what `widen` keeps of a
binary32 word (R17), that channels do not see each other (R2), and that a step runs the command at the front of the input
(R9).
-/

namespace Sys2Proof

/-! ## Decoding with more words behind -/

/-- The pairs taken from the front of a list of words do not depend on what stands behind them. -/
theorem takePairs_append {k : Nat} {ws rest : List Word} {ps : List WordPair} (h : takePairs k ws = some (ps, rest))
    (ys : List Word) : takePairs k (ws ++ ys) = some (ps, rest ++ ys) := by
  obtain ⟨rfl, rfl⟩ := takePairs_some h
  rw [List.append_assoc, takePairs_interleave]

theorem decodeOneWord_append {mk : Word → Instr} {ws rest : List Word} {i : Instr}
    (h : decodeOneWord mk ws = .command i rest) (ys : List Word) :
    decodeOneWord mk (ws ++ ys) = .command i (rest ++ ys) := by
  cases ws with
  | nil => cases h
  | cons g ws => cases h; rfl

theorem decodePayload_append {cfg : Cfg} {h : Header} {ws rest : List Word} {i : Instr}
    (hd : decodePayload cfg h ws = .command i rest) (ys : List Word) :
    decodePayload cfg h (ws ++ ys) = .command i (rest ++ ys) := by
  cases h with
  | pushs c =>
    rw [decodePayload] at hd ⊢
    cases hp : takePairs (cfg.bIn.get c) ws with
    | none => rw [hp] at hd; cases hd
    | some q => rw [hp] at hd; cases hd; rw [takePairs_append hp]
  | pulls => cases hd; rfl
  | setgain c => exact decodeOneWord_append hd ys
  | setgainm => exact decodeOneWord_append hd ys
  | getsr c => cases hd; rfl

/-- A whole command decodes to itself whatever words stand behind it (R98). -/
theorem decode_append {cfg : Cfg} {ws rest : List Word} {i : Instr} (h : decode cfg ws = .command i rest)
    (ys : List Word) : decode cfg (ws ++ ys) = .command i (rest ++ ys) := by
  cases ws with
  | nil => cases h
  | cons w ws =>
    rw [List.cons_append]
    cases hd : decodeHeader w with
    | error why => rw [decode_error hd] at h; cases h
    | ok hdr =>
      rw [decode_ok hd] at h ⊢
      exact decodePayload_append h ys

/-! ## Exact widening -/

theorem F64.units_natAbs_fin (s : Bool) (e : Fin 2047) (f : BitVec 52) :
    (F64.fin s e f).units.natAbs = F64.magnitude e f := by
  cases s
  · exact Int.natAbs_natCast _
  · exact (Int.natAbs_neg _).trans (Int.natAbs_natCast _)

/-- Rounding a significand of at most 53 bits times a power of two keeps its sign and its magnitude. -/
theorem F64.round_exact_value {s : Bool} {r k : Nat} (hr : r ≤ 2 ^ 53) (hk : k ≤ 2044) :
    (F64.round s (r * 2 ^ k) 1).isFinite = true ∧ (F64.round s (r * 2 ^ k) 1).sign = s ∧
      (F64.round s (r * 2 ^ k) 1).units.natAbs = r * 2 ^ k := by
  obtain ⟨e, f, he, hm⟩ := F64.round_exact (s := s) hr hk
  rw [he]
  exact ⟨rfl, rfl, (F64.units_natAbs_fin s e f).trans hm⟩

theorem F64.widen_special {w : Word} (h : (w.extractLsb' 23 8).toNat = 255) :
    F64.widen w = if (w.extractLsb' 0 23).toNat = 0 then .inf (w.getLsbD 31) else .nan := by
  unfold F64.widen
  exact if_pos h

theorem F64.widen_subnormal {w : Word} (h : (w.extractLsb' 23 8).toNat = 0) :
    F64.widen w = F64.round (w.getLsbD 31) ((w.extractLsb' 0 23).toNat * 2 ^ 925) 1 := by
  unfold F64.widen
  exact (if_neg (by omega)).trans (if_pos h)

theorem F64.widen_normal {w : Word} (h : (w.extractLsb' 23 8).toNat ≠ 255) (h0 : (w.extractLsb' 23 8).toNat ≠ 0) :
    F64.widen w = F64.round (w.getLsbD 31)
      ((2 ^ 23 + (w.extractLsb' 0 23).toNat) * 2 ^ ((w.extractLsb' 23 8).toNat - 1 + 925)) 1 := by
  unfold F64.widen
  exact (if_neg h).trans (if_neg h0)

/-- Settles O31: a finite binary32 has a significand of at most 24 bits and an exponent well inside the range of
binary64, so the one rounding of `widen` rounds nothing. -/
theorem widenIsExact : Obligations.WidenIsExact := by
  intro w
  have hm : (w.extractLsb' 0 23).toNat < 2 ^ 23 := BitVec.isLt _
  have he : (w.extractLsb' 23 8).toNat < 2 ^ 8 := BitVec.isLt _
  refine ⟨fun h h0 => ?_, fun h h0 => ?_, fun h => ?_⟩
  · rw [F64.widen_special h, if_pos h0]
  · rw [F64.widen_special h, if_neg h0]
  · by_cases h0 : (w.extractLsb' 23 8).toNat = 0
    · rw [if_pos h0, F64.widen_subnormal h0]
      exact F64.round_exact_value (by omega) (by omega)
    · rw [if_neg h0, F64.widen_normal h h0]
      exact F64.round_exact_value (by omega) (by omega)

namespace Machine

/-! ## Legal configurations, by the constraints of R242 -/

/-- Bands are disjoint exactly when no count lies in both: a band is never empty, so one must end before the other
begins. -/
theorem bandsDisjoint_iff {cfg : Cfg} {c : Chan} {a b : Nat} : bandsDisjoint cfg c a b = true ↔
    ∀ n : Int, ¬ (bandLow cfg c a ≤ n ∧ n ≤ bandHigh cfg c a ∧ bandLow cfg c b ≤ n ∧ n ≤ bandHigh cfg c b) := by
  have nonempty : ∀ hz, bandLow cfg c hz ≤ bandHigh cfg c hz := fun hz => by unfold bandLow bandHigh; omega
  unfold bandsDisjoint
  rw [Bool.or_eq_true, decide_eq_true_iff, decide_eq_true_iff]
  constructor
  · intro h n hn
    omega
  · intro h
    have := h (max (bandLow cfg c a) (bandLow cfg c b))
    have := nonempty a
    have := nonempty b
    omega

theorem bandsDisjoint_symm (cfg : Cfg) (c : Chan) :
    Std.Symm fun a b : Rate × Nat => bandsDisjoint cfg c a.2 b.2 = true :=
  ⟨fun _ _ h => by rwa [bandsDisjoint, Bool.or_comm]⟩

theorem allDisjoint_iff_pairwise {cfg : Cfg} {c : Chan} {rs : List (Rate × Nat)} :
    allDisjoint cfg c rs = true ↔ rs.Pairwise fun a b => bandsDisjoint cfg c a.2 b.2 = true := by
  induction rs with
  | nil => simp [allDisjoint]
  | cons a rest ih => rw [allDisjoint, Bool.and_eq_true, List.all_eq_true, ih, List.pairwise_cons]

theorem ratesList_nodup (cfg : Cfg) : (ratesList cfg).Nodup := by
  unfold ratesList
  cases cfg.midRate <;> simp

/-- The bands of the list are pairwise disjoint exactly when those of any two different rates are (R153 (a)). -/
theorem allDisjoint_ratesList_iff {cfg : Cfg} {c : Chan} : allDisjoint cfg c (ratesList cfg) = true ↔
    ∀ r r' hz hz', rateHz cfg r = some hz → rateHz cfg r' = some hz' → r ≠ r' →
      bandsDisjoint cfg c hz hz' = true := by
  rw [allDisjoint_iff_pairwise]
  constructor
  · intro h r r' hz hz' hr hr' hne
    have := bandsDisjoint_symm cfg c
    exact h.forall (mem_ratesList.2 hr) (mem_ratesList.2 hr') fun he => hne (congrArg Prod.fst he)
  · intro h
    refine (ratesList_nodup cfg).pairwise_of_forall_ne ?_
    rintro ⟨r, hz⟩ hm ⟨r', hz'⟩ hm' hne
    have hr := mem_ratesList.1 hm
    have hr' := mem_ratesList.1 hm'
    refine h r r' hz hz' hr hr' ?_
    rintro rfl
    exact hne (congrArg (Prod.mk r) (Option.some.inj (hr.symm.trans hr')))

theorem legalBands_iff {cfg : Cfg} {c : Chan} : legalBands cfg c = true ↔
    (∀ r r' hz hz', rateHz cfg r = some hz → rateHz cfg r' = some hz' → r ≠ r' →
      bandsDisjoint cfg c hz hz' = true) ∧
    ∀ r hz, rateHz cfg r = some hz → 1 ≤ bandLow cfg c hz ∧ bandHigh cfg c hz < 2 ^ 32 - 1 := by
  unfold legalBands
  rw [Bool.and_eq_true, allDisjoint_ratesList_iff, List.all_eq_true]
  simp only [Prod.forall, mem_ratesList, decide_eq_true_iff]

theorem legalBurst_iff {cfg : Cfg} {c : Chan} :
    legalBurst cfg c = true ↔ 1 ≤ cfg.bIn.get c ∧ 2 * cfg.bIn.get c < cfg.n := by
  unfold legalBurst
  rw [Bool.and_eq_true, decide_eq_true_iff, decide_eq_true_iff]

theorem legalChannel_iff {cfg : Cfg} {c : Chan} :
    legalChannel cfg c = true ↔ legalBurst cfg c = true ∧ legalBands cfg c = true := by
  unfold legalChannel
  rw [Bool.and_eq_true]

theorem legalSizes_iff {cfg : Cfg} :
    legalSizes cfg = true ↔ 2 ≤ cfg.n ∧ 1 ≤ cfg.bOut ∧ 1 ≤ cfg.w ∧ 1 ≤ cfg.persist := by
  unfold legalSizes
  rw [decide_eq_true_iff]

theorem legalFilter_iff {cfg : Cfg} : legalFilter cfg = true ↔
    cfg.kp.isFinite = true ∧ cfg.kp.gt F64.zero = true ∧ cfg.alpha.gt F64.zero = true ∧
      cfg.alpha.lt F64.one = true := by
  unfold legalFilter
  rw [Bool.and_eq_true, Bool.and_eq_true, Bool.and_eq_true]
  rfl

theorem legalMidRate_iff {cfg : Cfg} : legalMidRate cfg = true ↔
    ∀ hz, cfg.midRate = some hz → hz ≠ 32000 ∧ hz ≠ 44100 ∧ hz ≠ 48000 ∧ hz ≠ 96000 := by
  unfold legalMidRate
  cases cfg.midRate with
  | none => simp
  | some hz => simp [and_assoc]

/-- A step refuses its configuration exactly when it is illegal: no command and no header is refused for that reason. -/
theorem step_ne_illegalConfiguration_iff {s : State} :
    step s ≠ .refused .illegalConfiguration ↔ legalConfig s.cfg = true := by
  constructor
  · intro h
    by_contra hl
    exact h (if_neg hl)
  · intro hl
    rw [step_legal hl]
    cases fetch s.cfg s.cmd with
    | command i rest =>
      obtain ⟨t, ht⟩ := exec_next i (s.withInput rest)
      rw [perform, ht]
      exact nofun
    | reserved why rest => exact nofun
    | reset rest => exact nofun
    | wait => exact nofun

/-- Settles O15: a step refuses the configuration exactly when `legalConfig` is false, and `legalConfig` is the
conjunction of the constraints of R242. -/
theorem illegalConfigurationIsRefused : Obligations.IllegalConfigurationIsRefused := by
  intro s
  rw [step_ne_illegalConfiguration_iff, legalConfig_iff, legalSizes_iff, legalFilter_iff, legalMidRate_iff]
  simp only [legalChannel_iff, legalBurst_iff, legalBands_iff, bandsDisjoint_iff]
  constructor
  · rintro ⟨⟨hn, hbOut, hw, hpersist⟩, ⟨hfin, hkp, hα0, hα1⟩, hmid, hchan⟩
    exact ⟨hn, fun c => (hchan c).1, hbOut, hw, fun c => (hchan c).2.1, fun c => (hchan c).2.2, hpersist,
      ⟨hfin, hkp⟩, ⟨hα0, hα1⟩, hmid⟩
  · rintro ⟨hn, hburst, hbOut, hw, hdisjoint, hedges, hpersist, ⟨hfin, hkp⟩, ⟨hα0, hα1⟩, hmid⟩
    exact ⟨⟨hn, hbOut, hw, hpersist⟩, ⟨hfin, hkp, hα0, hα1⟩, hmid,
      fun c => ⟨hburst c, hdisjoint c, hedges c⟩⟩

/-! ## Isolation of the channels -/

/-- What is the same in two states as far as channel `c` can see: the configuration, the window counter and the channel
itself (R225). -/
structure SameFor (c : Chan) (s s' : State) : Prop where
  cfg : s.cfg = s'.cfg
  pullcnt : s.pullcnt = s'.pullcnt
  chan : s.chan c = s'.chan c

/-- Changing one channel by a rule that reads the configuration and that channel only. -/
theorem SameFor.setChan {c : Chan} {s s' : State} (h : SameFor c s s') (d : Chan) (f : Cfg → Channel → Channel) :
    SameFor c (s.setChan d (f s.cfg (s.chan d))) (s'.setChan d (f s'.cfg (s'.chan d))) := by
  refine ⟨h.cfg, h.pullcnt, ?_⟩
  by_cases hcd : c = d
  · subst hcd
    rw [State.setChan_chan_same, State.setChan_chan_same, h.cfg, h.chan]
  · rw [State.setChan_chan_other _ _ hcd, State.setChan_chan_other _ _ hcd, h.chan]

theorem SameFor.tickAndSend {c : Chan} {s s' : State} (h : SameFor c s s') :
    SameFor c (Machine.tickAndSend s) (Machine.tickAndSend s') := by
  obtain ⟨hpullcnt, hchan⟩ := tickState_local h.cfg h.pullcnt h.chan
  exact ⟨(tickState_cfg s).trans (h.cfg.trans (tickState_cfg s').symm), hpullcnt, hchan⟩

theorem SameFor.ticks {c : Chan} {s s' : State} (h : SameFor c s s') (k : Nat) :
    SameFor c (Machine.ticks k s) (Machine.ticks k s') := by
  induction k generalizing s s' with
  | zero => exact h
  | succ k ih => exact ih h.tickAndSend

/-- Every command keeps two states the same for a channel. -/
theorem SameFor.exec {c : Chan} {s s' t t' : State} (h : SameFor c s s') {i : Instr} (ht : exec i s = .next t)
    (ht' : exec i s' = .next t') : SameFor c t t' := by
  cases i with
  | pushs d ps => cases ht; cases ht'; exact h.setChan d fun cfg ch => pushAll cfg ch ps
  | pulls => cases ht; cases ht'; rw [h.cfg]; exact h.ticks _
  | setgain d g => cases ht; cases ht'; exact h.setChan d fun _ ch => { ch with gain := gainOf g }
  | setgainm g => cases ht; cases ht'; exact ⟨h.cfg, h.pullcnt, h.chan⟩
  | getsr d => cases ht; cases ht'; exact ⟨h.cfg, h.pullcnt, h.chan⟩

/-- Settles O56: two states that are the same for channel c stay so under every command. -/
theorem channelsAreIsolated : Obligations.ChannelsAreIsolated := by
  intro i s s' t t' c hcfg hpullcnt hchan ht ht'
  obtain ⟨-, hp, hc⟩ := SameFor.exec ⟨hcfg, hpullcnt, hchan⟩ ht ht'
  exact ⟨hc, hp⟩

/-! ## The command at the front of the input -/

/-- The words of one whole command are fetched as that command, whatever input stands behind them. -/
theorem fetch_placeWords {cfg : Cfg} {ws : List Word} {i : Instr} (h : decode cfg ws = .command i [])
    (input : List Input) : fetch cfg (placeWords ws input) = .command i input := by
  have hf := fetch_of_decode (rest := []) (input := input) (by rw [List.append_nil]; exact decode_append h _)
  rwa [List.append_nil] at hf

/-- Settles O5: the fetched command is performed on the state whose input begins behind it. -/
theorem stepRunsTheDecodedCommand : Obligations.StepRunsTheDecodedCommand := by
  intro s ws i input hl hd hcmd
  rw [step_legal hl, hcmd, fetch_placeWords hd, perform]

end Machine

end Sys2Proof

/-!
PROOFS. The state (10_state): the values after reset (R44), what every step keeps of the configuration and of the sent
words (R42, R90) and of the invariant (R26 to R38), which command may change which register (R20), and what a ring holds
after any pushes (R28).
-/

namespace Sys2Proof

/-! ## FLOATs -/

theorem F64.one_eq_ofBits : F64.one = F64.ofBits 0x3FF0000000000000 := by decide

theorem F64.ofInt_lt_ofInt {a b : Int} (ha : a.natAbs ≤ 2 ^ 53) (hb : b.natAbs ≤ 2 ^ 53) :
    (F64.ofInt a).lt (F64.ofInt b) = true ↔ a < b := by
  obtain ⟨afin, av⟩ := F64.ofInt_exact ha
  obtain ⟨bfin, bv⟩ := F64.ofInt_exact hb
  rw [F64.lt_iff afin bfin, av, bv, Int.cast_lt]

namespace Machine

/-! ## Reset -/

theorem Channel.reset_atReset : AtReset Channel.reset where
  mem _ := rfl
  cursor := rfl
  date := rfl
  rate := rfl
  nominal := rfl
  drift := rfl
  incount := rfl
  outdate := rfl
  gain := rfl
  cand := rfl
  candcnt := rfl

/-- Settles O14: the reset state of any configuration has every channel at its reset values, and `State.reset` is the one
of CFG_T. -/
theorem resetStateHoldsTheResetValues : Obligations.ResetStateHoldsTheResetValues := by
  have resetWith : ∀ cfg : Cfg, (∀ c, AtReset ((State.resetWith cfg).chan c)) ∧
      (State.resetWith cfg).mgain = F64.ofBits 0x3FF0000000000000 ∧ (State.resetWith cfg).pullcnt = 0 :=
    fun cfg => ⟨fun c => by rw [State.resetWith_chan]; exact Channel.reset_atReset, F64.one_eq_ofBits, rfl⟩
  rintro s (rfl | ⟨cfg, rfl⟩)
  · exact resetWith Config.cfgT
  · exact resetWith cfg

theorem ChannelInv.reset {cfg : Cfg} (hl : legalConfig cfg = true) : ChannelInv cfg Channel.reset := by
  obtain ⟨hn, -, -, hpersist⟩ := legal_sizes hl
  exact ⟨RingInv.reset (by omega), IsDate.zero, fun _ => rfl, fun h => absurd rfl h, ⟨fun _ => rfl, fun _ => rfl⟩,
    hpersist⟩

theorem Inv.resetWith {cfg : Cfg} (hl : legalConfig cfg = true) (hn : cfg.n < 2 ^ 53) : Inv (State.resetWith cfg) where
  legal := hl
  capacity := hn
  chans c := by rw [State.resetWith_chan]; exact ChannelInv.reset hl
  pullcnt := (legal_sizes hl).2.2.1

theorem legalConfig_cfgT : legalConfig Config.cfgT = true := by decide +kernel

/-- Settles O16: `Inv.resetWith`, and CFG_T is legal and has 16 slots. -/
theorem resetStateMeetsTheInvariant : Obligations.ResetStateMeetsTheInvariant :=
  ⟨fun _ hl hn => Inv.resetWith hl hn, Inv.resetWith legalConfig_cfgT (by decide)⟩

/-! ## The invariant, operation by operation -/

/-- The input is no part of the invariant. -/
theorem Inv.withInput {s : State} (h : Inv s) (xs : List Input) : Inv (s.withInput xs) :=
  ⟨h.legal, h.capacity, h.chans, h.pullcnt⟩

/-- The words sent are no part of the invariant. -/
theorem Inv.send {s : State} (h : Inv s) (w : Word) : Inv (s.send w) :=
  ⟨h.legal, h.capacity, h.chans, h.pullcnt⟩

theorem Inv.setChan {s : State} (h : Inv s) (c : Chan) {x : Channel} (hx : ChannelInv s.cfg x) : Inv (s.setChan c x) := by
  refine ⟨h.legal, h.capacity, fun d => ?_, h.pullcnt⟩
  by_cases hd : d = c
  · subst hd
    rw [State.setChan_chan_same]
    exact hx
  · rw [State.setChan_chan_other _ _ hd]
    exact h.chans d

/-- The gain is no part of the invariant: every bit pattern is accepted (30_encoding R103). -/
theorem ChannelInv.setGain {cfg : Cfg} {ch : Channel} (h : ChannelInv cfg ch) (g : F64) :
    ChannelInv cfg { ch with gain := g } :=
  ⟨h.ring, h.outdate, h.unsynced,
    fun hr => ⟨(h.synced hr).nominal, (h.synced hr).finite, (h.synced hr).positive, (h.synced hr).bounded⟩,
    h.candidate, h.pending⟩

/-- Every command keeps the invariant. -/
theorem Inv.exec {s t : State} (h : Inv s) {i : Instr} (he : exec i s = .next t) : Inv t := by
  cases i with
  | pushs c ps => cases he; exact h.setChan c ((h.chans c).pushAll ps)
  | pulls => cases he; exact h.ticks _
  | setgain c g => cases he; exact h.setChan c ((h.chans c).setGain _)
  | setgainm g => cases he; exact ⟨h.legal, h.capacity, h.chans, h.pullcnt⟩
  | getsr c => cases he; exact h.send _

/-- The RESET event leads into the invariant; the draws it keeps are no part of it. -/
theorem Inv.resetEvent {s : State} (h : Inv s) (xs : List Input) : Inv (s.resetEvent xs) :=
  have hr := Inv.resetWith h.legal h.capacity
  ⟨hr.legal, hr.capacity, hr.chans, hr.pullcnt⟩

/-- Settles O17: a step is a command, a RESET event or the wait, and each keeps the invariant. -/
theorem everyStepKeepsTheInvariant : Obligations.EveryStepKeepsTheInvariant := by
  intro s t h hs
  obtain ⟨i, rest, -, he⟩ | ⟨rest, -, rfl⟩ | ⟨-, rfl⟩ := step_cases hs
  · exact (h.withInput rest).exec he
  · exact h.resetEvent rest
  · exact h

/-- Settles O42: the invariant that every step keeps says when a channel is synchronised. -/
theorem syncedExactlyWhileRated : Obligations.SyncedExactlyWhileRated := by
  refine ⟨fun c => ?_, fun s t h hs c => ?_⟩
  · have hrate : (State.reset.chan c).rate = .nosync := by cases c <;> rfl
    have hsynced := ((Inv.resetWith legalConfig_cfgT (by decide)).chans c).synced_iff
    exact ⟨Bool.eq_false_iff.2 fun hs => hsynced.1 hs hrate, hrate⟩
  · have hc := (everyStepKeepsTheInvariant s t h hs).chans c
    exact ⟨hc.synced_iff, hc.unsynced⟩

/-! ## What a command keeps, register by register -/

theorem exec_cfg {i : Instr} {s t : State} (h : exec i s = .next t) : t.cfg = s.cfg := by
  cases i with
  | pulls => cases h; exact ticks_cfg _ _
  | pushs c ps => cases h; rfl
  | setgain c g => cases h; rfl
  | setgainm g => cases h; rfl
  | getsr c => cases h; rfl

/-- A command only appends to RSP: PULLS its samples, GETSR its code, the others nothing. -/
theorem exec_rsp {i : Instr} {s t : State} (h : exec i s = .next t) : ∃ ws, t.rsp = s.rsp ++ ws := by
  cases i with
  | pulls => cases h; obtain ⟨ws, -, hws⟩ := ticks_rsp s.cfg.bOut s; exact ⟨ws, hws⟩
  | getsr c => cases h; exact ⟨_, rfl⟩
  | pushs c ps => cases h; exact ⟨[], (List.append_nil _).symm⟩
  | setgain c g => cases h; exact ⟨[], (List.append_nil _).symm⟩
  | setgainm g => cases h; exact ⟨[], (List.append_nil _).symm⟩

/-- Settles O10: a command keeps CFG and appends to RSP, and neither a RESET event nor the wait touches the two. -/
theorem stepKeepsConfigurationAndSentWords : Obligations.StepKeepsConfigurationAndSentWords := by
  intro s t hs
  obtain ⟨i, rest, -, he⟩ | ⟨rest, -, rfl⟩ | ⟨-, rfl⟩ := step_cases hs
  · exact ⟨exec_cfg (s := s.withInput rest) he, exec_rsp (s := s.withInput rest) he⟩
  · exact ⟨rfl, [], (List.append_nil _).symm⟩
  · exact ⟨rfl, [], (List.append_nil _).symm⟩

/-- Everything that a command can do to channel c. -/
theorem exec_chan_cases {i : Instr} {s t : State} (h : exec i s = .next t) (c : Chan) :
    t.chan c = s.chan c ∨
    (∃ ps, i = .pushs c ps ∧ t.chan c = pushAll s.cfg (s.chan c) ps) ∨
    (i = .pulls ∧ t = ticks s.cfg.bOut s) ∨
    ∃ g, i = .setgain c g ∧ t.chan c = { s.chan c with gain := gainOf g } := by
  cases i with
  | pushs d ps =>
    cases h
    by_cases hc : c = d
    · subst hc; exact .inr (.inl ⟨ps, rfl, State.setChan_chan_same _ _ _⟩)
    · exact .inl (State.setChan_chan_other _ _ hc)
  | pulls => cases h; exact .inr (.inr (.inl ⟨rfl, rfl⟩))
  | setgain d g =>
    cases h
    by_cases hc : c = d
    · subst hc; exact .inr (.inr (.inr ⟨g, rfl, State.setChan_chan_same _ _ _⟩))
    · exact .inl (State.setChan_chan_other _ _ hc)
  | setgainm g => cases h; exact .inl rfl
  | getsr d => cases h; exact .inl rfl

theorem exec_mgain {i : Instr} {s t : State} (h : exec i s = .next t) : t.mgain = s.mgain ∨ ∃ g, i = .setgainm g := by
  cases i with
  | setgainm g => exact .inr ⟨g, rfl⟩
  | pulls => cases h; exact .inl (ticks_mgain _ _)
  | pushs c ps => cases h; exact .inl rfl
  | setgain c g => cases h; exact .inl rfl
  | getsr c => cases h; exact .inl rfl

theorem exec_pullcnt {i : Instr} {s t : State} (h : exec i s = .next t) : t.pullcnt = s.pullcnt ∨ i = .pulls := by
  cases i with
  | pulls => exact .inr rfl
  | pushs c ps => cases h; exact .inl rfl
  | setgain c g => cases h; exact .inl rfl
  | setgainm g => cases h; exact .inl rfl
  | getsr c => cases h; exact .inl rfl

theorem exec_gain {i : Instr} {s t : State} (h : exec i s = .next t) (c : Chan) :
    (t.chan c).gain = (s.chan c).gain ∨ ∃ g, i = .setgain c g := by
  obtain hc | ⟨ps, -, hc⟩ | ⟨-, rfl⟩ | ⟨g, rfl, -⟩ := exec_chan_cases h c
  · exact .inl (by rw [hc])
  · obtain ⟨-, -, -, -, hgain, -, -⟩ := pushAll_frame s.cfg ps (s.chan c)
    exact .inl (by rw [hc, hgain])
  · exact .inl (ticks_frame _ _ _).2
  · exact .inr ⟨g, rfl⟩

theorem exec_mem {i : Instr} {s t : State} (h : exec i s = .next t) (c : Chan) :
    (t.chan c).ring.mem = (s.chan c).ring.mem ∨ ∃ ps, i = .pushs c ps := by
  obtain hc | ⟨ps, rfl, -⟩ | ⟨-, rfl⟩ | ⟨g, -, hc⟩ := exec_chan_cases h c
  · exact .inl (by rw [hc])
  · exact .inr ⟨ps, rfl⟩
  · exact .inl (ticks_frame _ _ _).1
  · exact .inl (by rw [hc])

/-- The registers of R20 that PUSHS and PULLS write. -/
theorem exec_counters {i : Instr} {s t : State} (h : exec i s = .next t) (c : Chan) :
    ((t.chan c).ring.cursor = (s.chan c).ring.cursor ∧ (t.chan c).ring.date = (s.chan c).ring.date ∧
      (t.chan c).incount = (s.chan c).incount) ∨ (∃ ps, i = .pushs c ps) ∨ i = .pulls := by
  obtain hc | ⟨ps, rfl, -⟩ | ⟨rfl, -⟩ | ⟨g, -, hc⟩ := exec_chan_cases h c
  · exact .inl (by rw [hc]; exact ⟨rfl, rfl, rfl⟩)
  · exact .inr (.inl ⟨ps, rfl⟩)
  · exact .inr (.inr rfl)
  · exact .inl (by rw [hc]; exact ⟨rfl, rfl, rfl⟩)

/-- The registers of R20 that only PULLS writes. -/
theorem exec_rateRegisters {i : Instr} {s t : State} (h : exec i s = .next t) (c : Chan) :
    ((t.chan c).rate = (s.chan c).rate ∧ (t.chan c).nominal = (s.chan c).nominal ∧
      (t.chan c).drift = (s.chan c).drift ∧ (t.chan c).outdate = (s.chan c).outdate ∧
      (t.chan c).cand = (s.chan c).cand ∧ (t.chan c).candcnt = (s.chan c).candcnt) ∨ i = .pulls := by
  obtain hc | ⟨ps, -, hc⟩ | ⟨rfl, -⟩ | ⟨g, -, hc⟩ := exec_chan_cases h c
  · exact .inl (by rw [hc]; exact ⟨rfl, rfl, rfl, rfl, rfl, rfl⟩)
  · obtain ⟨hrate, hnominal, hdrift, houtdate, -, hcand, hcandcnt⟩ := pushAll_frame s.cfg ps (s.chan c)
    exact .inl (by rw [hc]; exact ⟨hrate, hnominal, hdrift, houtdate, hcand, hcandcnt⟩)
  · exact .inr rfl
  · exact .inl (by rw [hc]; exact ⟨rfl, rfl, rfl, rfl, rfl, rfl⟩)

/-- Settles O57: a step that is no RESET is the wait, which changes nothing, or a command, whose registers the lemmas
above list. -/
theorem registersChangeOnlyByTheirCommands : Obligations.RegistersChangeOnlyByTheirCommands := by
  intro s t c hs hreset
  obtain ⟨i, rest, hf, he⟩ | ⟨rest, hf, -⟩ | ⟨-, rfl⟩ := step_cases hs
  · refine ⟨fun hne => ?_, fun hne => ?_, fun hne => ?_, fun hne => ?_, fun hne => ?_⟩
    · obtain ⟨g, rfl⟩ := (exec_gain he c).resolve_left hne
      exact ⟨g, rest, hf⟩
    · obtain ⟨g, rfl⟩ := (exec_mgain he).resolve_left hne
      exact ⟨g, rest, hf⟩
    · obtain ⟨ps, rfl⟩ := (exec_mem he c).resolve_left hne
      exact ⟨ps, rest, hf⟩
    · obtain ⟨ps, rfl⟩ | rfl := (exec_counters he c).resolve_left fun ⟨hcursor, hdate, hincount⟩ => by tauto
      · exact .inl ⟨ps, rest, hf⟩
      · exact .inr ⟨rest, hf⟩
    · have hrates := exec_rateRegisters he c
      have hpullcnt := exec_pullcnt he
      obtain rfl : i = .pulls := by tauto
      exact ⟨rest, hf⟩
  · exact absurd hf (hreset rest)
  · simp

/-! ## What a ring holds after any pushes -/

/-- The laws of the push path speak of a channel; a ring alone is that of the reset channel with this ring. -/
theorem foldl_ringPush_eq (cfg : Cfg) (ps : List WordPair) (r : Ring) :
    ps.foldl (ringPush cfg) r = (pushAll cfg { Channel.reset with ring := r } ps).ring :=
  foldl_ringPush cfg ps { Channel.reset with ring := r }

theorem foldl_ringPush_cursor {cfg : Cfg} (ps : List WordPair) {r : Ring} (h : r.cursor < cfg.n) :
    (ps.foldl (ringPush cfg) r).cursor = (r.cursor + ps.length) % cfg.n := by
  rw [foldl_ringPush_eq]
  exact pushAll_cursor ps h

theorem foldl_ringPush_wf (cfg : Cfg) (ps : List WordPair) {r : Ring} (h : memoryWf r.mem = true) :
    memoryWf (ps.foldl (ringPush cfg) r).mem = true := by
  rw [foldl_ringPush_eq]
  exact pushAll_wf cfg ps h

theorem foldl_ringPush_date (cfg : Cfg) (ps : List WordPair) {r : Ring} (h : r.date = F64.zero)
    (hlen : ps.length ≤ 2 ^ 53) : (ps.foldl (ringPush cfg) r).date = F64.ofInt ps.length := by
  rw [foldl_ringPush_eq, pushAll_date (k := 0) ps (h.trans F64.ofInt_zero.symm) (by omega), Nat.zero_add]

/-- Two push numbers less than N apart go to different slots. -/
theorem mod_ne_mod_of_lt {n k m : Nat} (hkm : k < m) (hmn : m < k + n) : k % n ≠ m % n := by
  intro h
  have := Nat.ModEq.eq_of_abs_lt h (abs_lt.2 ⟨by omega, by omega⟩)
  omega

/-- Of the pairs pushed since a clear, the k-th stands in slot k mod N until N more have been pushed; a slot that none of
the last N pushes wrote is as it was. -/
theorem foldl_ringPush_read {cfg : Cfg} (hn : 0 < cfg.n) {r : Ring} (hw : memoryWf r.mem = true) (hc : r.cursor = 0)
    (ps : List WordPair) :
    (∀ k, (hk : k < ps.length) → ps.length ≤ k + cfg.n →
      memRead (ps.foldl (ringPush cfg) r).mem (k % cfg.n) = normPair ps[k]) ∧
    (∀ i, (∀ k < ps.length, ps.length ≤ k + cfg.n → i ≠ k % cfg.n) →
      memRead (ps.foldl (ringPush cfg) r).mem i = memRead r.mem i) := by
  induction ps using List.reverseRecOn with
  | nil => exact ⟨fun k hk => absurd hk (Nat.not_lt_zero k), fun i _ => rfl⟩
  | append_singleton ps p ih =>
    obtain ⟨held, kept⟩ := ih
    have hcur : (ps.foldl (ringPush cfg) r).cursor = ps.length % cfg.n := by
      rw [foldl_ringPush_cursor ps (by omega), hc, Nat.zero_add]
    have hread : ∀ i, memRead ((ps ++ [p]).foldl (ringPush cfg) r).mem i =
        if i = ps.length % cfg.n then normPair p else memRead (ps.foldl (ringPush cfg) r).mem i := by
      intro i
      rw [List.foldl_append, List.foldl_cons, List.foldl_nil, ringPush_read (foldl_ringPush_wf cfg ps hw), hcur]
    have hlength : (ps ++ [p]).length = ps.length + 1 := List.length_append
    refine ⟨fun k hk hlast => ?_, fun i hi => ?_⟩
    · rw [hread]
      rcases Nat.lt_or_ge k ps.length with hlt | hge
      · rw [if_neg (mod_ne_mod_of_lt hlt (by omega)), held k hlt (by omega), List.getElem_append_left hlt]
      · obtain rfl : k = ps.length := by omega
        rw [if_pos rfl, List.getElem_concat_length rfl]
    · have hnew : i ≠ ps.length % cfg.n := hi ps.length (by omega) (by omega)
      rw [hread, if_neg hnew]
      refine kept i fun k hk hlast => ?_
      rcases Nat.lt_or_ge ps.length (k + cfg.n) with hlt | hge
      · exact hi k (by omega) (by omega)
      · obtain heq : ps.length = k + cfg.n := by omega
        rwa [heq, Nat.add_mod_right] at hnew

/-- The slot j behind the cursor is that of push number `len - j`. -/
theorem slot_behind_cursor {len j n : Nat} (h : j ≤ len) : ((((len % n : Nat) : Int) - j) % n).toNat = (len - j) % n := by
  rw [Int.natCast_mod, Int.emod_sub_emod, ← Nat.cast_sub h, ← Int.natCast_mod, Int.toNat_natCast]

/-- Settles O19: `foldl_ringPush_read`, the slots counted back from the cursor. -/
theorem ringHoldsTheLastSamples : Obligations.RingHoldsTheLastSamples := by
  intro cfg r ps hn hw hc hd hlen
  obtain ⟨held, kept⟩ := foldl_ringPush_read (cfg := cfg) (by omega) hw hc ps
  rw [foldl_ringPush_cursor ps (by omega), hc, Nat.zero_add]
  refine ⟨foldl_ringPush_date cfg ps hd hlen, fun j h1 h2 => ?_, fun i _ hi => kept i fun k hk hlast => ?_⟩
  · rw [slot_behind_cursor (by omega), held (ps.length - j) (by omega) (by omega),
      List.getElem?_eq_getElem (by omega), Option.map_some]
  · have := hi (ps.length - k) (by omega) (by omega)
    rwa [slot_behind_cursor (by omega), Nat.sub_sub_self hk.le] at this

/-! ## A read at an integer date -/

/-- With f = +0.0 the blend is the older sample itself (40_ring_buffer R129). -/
theorem blend_zero {a b : F64} (ha : IsSample a) (hb : IsSample b) : blend a b F64.zero = a := by
  obtain ⟨afin, -⟩ := ha.finite
  obtain ⟨bfin, -⟩ := hb.finite
  obtain ⟨zfin, hz⟩ := F64.mul_zero_right bfin F64.zero_isFinite F64.toRat_zero
  obtain ⟨w, rfl⟩ := ha
  unfold blend
  rw [F64.one_sub_zero, F64.mul_one_right afin, F64.add_zero_right afin (norm24_ne_negZero w) zfin hz]

theorem dateFraction_ofInt {k : Int} (h : k.natAbs ≤ 2 ^ 53) : dateFraction (F64.ofInt k) = F64.zero := by
  unfold dateFraction
  rw [F64.floor_ofInt h, F64.sub_ofInt h h (by omega), sub_self, F64.ofInt_zero]

/-- The guard at an integer date, as integers: DATE - N is exact (40_ring_buffer R126). -/
theorem inRange_ofInt {cfg : Cfg} {r : Ring} {m : Nat} {k : Int} (hn : cfg.n < 2 ^ 53) (hm : m ≤ 2 ^ 53)
    (hr : r.date = F64.ofInt m) (h1 : (m : Int) - cfg.n ≤ k) (h2 : k ≤ m) : inRange cfg r (F64.ofInt k) = true := by
  rw [inRange_iff, hr, F64.sub_ofInt (by omega) (by omega) (by omega), F64.gt]
  refine ⟨(F64.ofInt_exact (by omega)).1, ?_, ?_⟩
  · rw [Bool.eq_false_iff, Ne, F64.ofInt_lt_ofInt (by omega) (by omega)]
    omega
  · rw [Bool.eq_false_iff, Ne, F64.ofInt_lt_ofInt (by omega) (by omega)]
    omega

/-- A read at an integer date in range is the content of that date's slot, not rounded (40_ring_buffer R127, R129). -/
theorem ringPull_ofInt {cfg : Cfg} {r : Ring} {m : Nat} {k : Int} (h : RingInv cfg r) (hn : cfg.n < 2 ^ 53)
    (hm : m ≤ 2 ^ 53) (hr : r.date = F64.ofInt m) (h1 : (m : Int) - cfg.n ≤ k) (h2 : k ≤ m) :
    ringPull cfg r (F64.ofInt k) = memRead r.mem (((r.cursor : Int) - (m - k)) % cfg.n).toNat := by
  have hslot : slotOfDate cfg r (F64.ofInt k).floor = (((r.cursor : Int) - (m - k)) % cfg.n).toNat := by
    unfold slotOfDate
    rw [hr, F64.floor_ofInt (by omega), F64.floor_ofInt (by omega)]
  unfold ringPull blendPair
  rw [if_pos (inRange_ofInt hn hm hr h1 h2), dateFraction_ofInt (by omega), hslot]
  dsimp only
  rw [blend_zero (h.samples _).1 (h.samples _).1, blend_zero (h.samples _).2 (h.samples _).2]

/-- Settles O24: the ring still holds every pair (`foldl_ringPush_read`), and the read at an integer date returns it. -/
theorem pushThenPullReturnsTheSample : Obligations.PushThenPullReturnsTheSample := by
  intro cfg ps k hn hcap hlen hk
  have hinv : RingInv cfg (ps.foldl (ringPush cfg) Ring.reset) := RingInv.pushes ps (RingInv.reset (by omega))
  have hdate := foldl_ringPush_date cfg ps (r := Ring.reset) rfl (by omega)
  have hcursor := foldl_ringPush_cursor (cfg := cfg) ps (r := Ring.reset) (show 0 < cfg.n by omega)
  obtain ⟨held, -⟩ := foldl_ringPush_read (cfg := cfg) (r := Ring.reset) (by omega) rfl rfl ps
  rw [ringPull_ofInt hinv hcap (by omega) hdate (by omega) (by omega), hcursor, ← Nat.cast_sub hk.le,
    show Ring.reset.cursor = 0 from rfl, Nat.zero_add, slot_behind_cursor (by omega), Nat.sub_sub_self hk.le,
    held k hk (by omega)]
  rfl

end Machine

end Sys2Proof

/-!
PROOFS. Memory (20_memory): the commands of a stream take effect in stream order and later input changes nothing of an
earlier command (R69), and pushes into different rings commute (R60, R70).
-/

namespace Sys2Proof

/-- The words of a well-formed command decode to it, and the words behind it are left (R91, R98). -/
theorem decode_encode {cfg : Cfg} {i : Instr} (h : i.wellFormed cfg = true) (rest : List Word) :
    decode cfg (encode i ++ rest) = .command i rest := by
  rw [encode, List.cons_append, decode_ok (decodeHeader_encodeHeader _)]
  cases i with
  | pushs c ps =>
    have hlen : ps.length = cfg.bIn.get c := eq_of_beq h
    rw [Instr.header, Instr.payload, decodePayload, ← hlen, takePairs_interleave]
  | pulls => rfl
  | setgain c g => rfl
  | setgainm g => rfl
  | getsr c => rfl

theorem PerChannel.set_comm {α : Type} (p : PerChannel α) {c d : Chan} (h : c ≠ d) (a b : α) :
    (p.set c a).set d b = (p.set d b).set c a := by
  refine PerChannel.ext_get fun e => ?_
  by_cases hd : e = d
  · subst hd
    rw [get_set_same, get_set_other _ _ h.symm, get_set_same]
  · rw [get_set_other _ _ hd]
    by_cases hc : e = c
    · subst hc
      rw [get_set_same, get_set_same]
    · rw [get_set_other _ _ hc, get_set_other _ _ hc, get_set_other _ _ hd]

namespace Machine

/-! ## A stream of commands -/

theorem placeWords_append (ws vs : List Word) (input : List Input) :
    placeWords (ws ++ vs) input = placeWords ws (placeWords vs input) := by
  unfold placeWords
  rw [List.map_append, List.append_assoc]

/-- A step on the words of a well-formed command executes it and leaves the input behind them. -/
theorem step_encode {s t : State} {i : Instr} (hl : legalConfig s.cfg = true) (hi : i.wellFormed s.cfg = true)
    (ht : exec i s = .next t) (input : List Input) :
    step (s.withInput (placeWords (encode i) input)) = .next (t.withInput input) := by
  have hd : decode s.cfg (encode i) = .command i [] := by simpa using decode_encode hi []
  exact (stepRunsTheDecodedCommand (s.withInput (placeWords (encode i) input)) _ i input hl hd rfl).trans
    (exec_withInput (s := s) input ht)

/-- Settles O12, by induction on the commands: the first step executes the first command (`step_encode`), and the state it
leaves, of the same configuration, has the words of the others in front. -/
theorem streamIsSequentiallyConsistent : Obligations.StreamIsSequentiallyConsistent := by
  intro is s rest hl hwf
  induction is generalizing s with
  | nil => rfl
  | cons i is ih =>
    obtain ⟨t, ht⟩ := exec_next i s
    have hcfg : t.cfg = s.cfg := exec_cfg ht
    obtain ⟨hi, his⟩ := List.forall_mem_cons.1 hwf
    have hstep : step (s.withInput (placeWords (encodeProgram (i :: is)) rest))
        = .next (t.withInput (placeWords (encodeProgram is) rest)) := by
      rw [encodeProgram, List.flatMap_cons, placeWords_append]
      exact step_encode hl hi ht _
    rw [List.length_cons, run_next hstep, execAll, exec_withInput rest ht]
    exact ih t (by rwa [hcfg]) (by rwa [hcfg])

/-! ## Input that arrives behind the unread input -/

/-- What arrives later can only add to the words before the next RESET event. -/
theorem leadingWords_append (xs ys : List Input) : ∃ ws, leadingWords (xs ++ ys) = leadingWords xs ++ ws := by
  induction xs with
  | nil => exact ⟨_, rfl⟩
  | cons x xs ih =>
    cases x with
    | word w => obtain ⟨ws, hws⟩ := ih; exact ⟨ws, congrArg (w :: ·) hws⟩
    | reset => exact ⟨[], rfl⟩

theorem leadingWords_length_le (xs : List Input) : (leadingWords xs).length ≤ xs.length := by
  induction xs with
  | nil => exact le_rfl
  | cons x xs ih =>
    cases x with
    | word w => exact Nat.succ_le_succ ih
    | reset => exact Nat.zero_le _

/-- Behind a RESET event nothing adds to the words before it, and what follows it is longer by what arrives. -/
theorem append_of_afterReset {xs rest : List Input} (h : afterReset xs = some rest) (ys : List Input) :
    leadingWords (xs ++ ys) = leadingWords xs ∧ afterReset (xs ++ ys) = some (rest ++ ys) := by
  induction xs with
  | nil => cases h
  | cons x xs ih =>
    cases x with
    | word w => obtain ⟨hw, hr⟩ := ih h; exact ⟨congrArg (w :: ·) hw, hr⟩
    | reset => cases h; exact ⟨rfl, rfl⟩

theorem fetch_eq_command_iff {cfg : Cfg} {xs rest : List Input} {i : Instr} :
    fetch cfg xs = .command i rest ↔ ∃ ws, decode cfg (leadingWords xs) = .command i ws ∧
      rest = xs.drop ((leadingWords xs).length - ws.length) := by
  unfold fetch
  cases decode cfg (leadingWords xs) with
  | command j ws =>
    constructor
    · rintro ⟨⟩
      exact ⟨ws, rfl, rfl⟩
    · rintro ⟨ws, ⟨⟩, rfl⟩
      rfl
  | reserved why ws => simp
  | incomplete => cases afterReset xs <;> simp

theorem fetch_eq_reset_iff {cfg : Cfg} {xs rest : List Input} :
    fetch cfg xs = .reset rest ↔ decode cfg (leadingWords xs) = .incomplete ∧ afterReset xs = some rest := by
  unfold fetch
  cases decode cfg (leadingWords xs) with
  | command j ws => simp
  | reserved why ws => simp
  | incomplete => cases afterReset xs <;> simp

/-- A command that has arrived whole is fetched whatever arrives behind it (R106). -/
theorem fetch_command_append {cfg : Cfg} {xs rest : List Input} {i : Instr} (h : fetch cfg xs = .command i rest)
    (ys : List Input) : fetch cfg (xs ++ ys) = .command i (rest ++ ys) := by
  obtain ⟨ws, hd, rfl⟩ := fetch_eq_command_iff.1 h
  obtain ⟨vs, hvs⟩ := leadingWords_append xs ys
  refine fetch_eq_command_iff.2 ⟨ws ++ vs, by rw [hvs, decode_append hd], ?_⟩
  have hle := leadingWords_length_le xs
  rw [hvs, List.length_append, List.length_append, Nat.add_sub_add_right, List.drop_append_of_le_length (by omega)]

/-- A RESET event is met whatever arrives behind it (70_reset_and_hazards R240). -/
theorem fetch_reset_append {cfg : Cfg} {xs rest : List Input} (h : fetch cfg xs = .reset rest) (ys : List Input) :
    fetch cfg (xs ++ ys) = .reset (rest ++ ys) := by
  obtain ⟨hd, hr⟩ := fetch_eq_reset_iff.1 h
  obtain ⟨hleading, hafter⟩ := append_of_afterReset hr ys
  exact fetch_eq_reset_iff.2 ⟨by rw [hleading, hd], hafter⟩

theorem State.deliver_eq_withInput (s : State) (xs : List Input) : s.deliver xs = s.withInput (s.cmd ++ xs) := rfl

/-- A command does the same with more input behind the input it leaves. -/
theorem exec_deliver {i : Instr} {s t : State} (h : exec i s = .next t) (arrived : List Input) :
    exec i (s.deliver arrived) = .next (t.deliver arrived) := by
  rw [State.deliver_eq_withInput, State.deliver_eq_withInput, exec_cmd h]
  exact exec_withInput (s.cmd ++ arrived) h

/-- Settles O11: a step that does not wait fetches a command or a RESET event, the same one with more input behind, and
neither reads the input it leaves. -/
theorem laterInputDoesNotChangeAStep : Obligations.LaterInputDoesNotChangeAStep := by
  intro s t arrived hwait hs
  have hl := step_legal_of_next hs
  rw [step_legal (s := s.deliver arrived) hl]
  obtain ⟨i, rest, hf, he⟩ | ⟨rest, hf, rfl⟩ | ⟨hf, -⟩ := step_cases hs
  · rw [State.deliver_cfg, State.deliver_cmd, fetch_command_append hf]
    exact exec_deliver he arrived
  · rw [State.deliver_cfg, State.deliver_cmd, fetch_reset_append hf]
    rfl
  · exact absurd hf hwait

/-! ## Pushes into different rings -/

theorem State.setChan_comm (s : State) {c d : Chan} (h : c ≠ d) (x y : Channel) :
    (s.setChan c x).setChan d y = (s.setChan d y).setChan c x := by
  unfold State.setChan
  rw [PerChannel.set_comm _ h]

/-- Settles O26: a PUSHS reads and writes its own channel only (R70), so each of the two finds its channel as it was
before the other, and the two writes commute. -/
theorem pushesOfDifferentChannelsCommute : Obligations.PushesOfDifferentChannelsCommute := by
  intro s t u c d ps qs hcd ht hu
  cases ht
  cases hu
  refine ⟨_, rfl, ?_⟩
  simp only [exec, execPushs, State.setChan_cfg, State.setChan_chan_other _ _ hcd,
    State.setChan_chan_other _ _ hcd.symm, State.setChan_comm _ hcd]

end Machine

end Sys2Proof

/-!
PROOFS. The encoding (30_encoding): decoding and encoding undo each other (R91 to R98), which headers are reserved (R105),
what a step does with a reserved header and with a part of a command (R105, R106), the words a PULLS sends (R96) and the
word of GETSR (R104).
-/

namespace Sys2Proof

/-! ## The payload of a header -/

theorem Instr.payload_length {cfg : Cfg} {i : Instr} (h : i.wellFormed cfg = true) :
    i.payload.length = payloadLength cfg i.header := by
  cases i with
  | pushs c ps =>
    have hlen : ps.length = cfg.bIn.get c := eq_of_beq h
    rw [Instr.payload, Instr.header, payloadLength, interleave_length, hlen]
  | pulls => rfl
  | setgain c g => rfl
  | setgainm g => rfl
  | getsr c => rfl

/-- Everything that decoding the payload of a header can answer: a well-formed command of that header whose payload stands
at the front of the words, or, where they are too few, nothing. -/
theorem decodePayload_cases (cfg : Cfg) (h : Header) (ws : List Word) :
    (∃ i rest, decodePayload cfg h ws = .command i rest ∧ i.header = h ∧ i.wellFormed cfg = true ∧
      ws = i.payload ++ rest) ∨
    (decodePayload cfg h ws = .incomplete ∧ ws.length < payloadLength cfg h) := by
  cases h with
  | pushs c =>
    rw [decodePayload]
    cases hp : takePairs (cfg.bIn.get c) ws with
    | none => exact .inr ⟨rfl, takePairs_none.1 hp⟩
    | some q =>
      obtain ⟨hlen, hws⟩ := takePairs_some (ps := q.1) (rest := q.2) hp
      exact .inl ⟨.pushs c q.1, q.2, rfl, rfl, beq_iff_eq.2 hlen, hws⟩
  | pulls => exact .inl ⟨.pulls, ws, rfl, rfl, rfl, rfl⟩
  | setgain c =>
    cases ws with
    | nil => exact .inr ⟨rfl, Nat.one_pos⟩
    | cons g ws => exact .inl ⟨.setgain c g, ws, rfl, rfl, rfl, rfl⟩
  | setgainm =>
    cases ws with
    | nil => exact .inr ⟨rfl, Nat.one_pos⟩
    | cons g ws => exact .inl ⟨.setgainm g, ws, rfl, rfl, rfl, rfl⟩
  | getsr c => exact .inl ⟨.getsr c, ws, rfl, rfl, rfl, rfl⟩

/-- A payload of which words are missing decodes to nothing (R106). -/
theorem decodePayload_incomplete {cfg : Cfg} {h : Header} {ws : List Word} (hlen : ws.length < payloadLength cfg h) :
    decodePayload cfg h ws = .incomplete := by
  obtain ⟨i, rest, -, rfl, hi, rfl⟩ | ⟨hd, -⟩ := decodePayload_cases cfg h ws
  · rw [List.length_append, Instr.payload_length hi] at hlen
    omega
  · exact hd

/-! ## Decoding and encoding undo each other -/

/-- Settles O1: `decode_encode`, by which the header names the command and the payload holds its operands. -/
theorem decodeEncodeRoundTrip : Obligations.DecodeEncodeRoundTrip :=
  fun _ _ rest h => decode_encode h rest

/-- Settles O2: the first word is the header of the command (`encodeHeader_of_decodeHeader`), and its payload stands behind
it (`decodePayload_cases`). -/
theorem decodedCommandIsItsEncoding : Obligations.DecodedCommandIsItsEncoding := by
  intro cfg ws rest i hd
  cases ws with
  | nil => cases hd
  | cons w ws =>
    cases hw : decodeHeader w with
    | error why => rw [decode_error hw] at hd; cases hd
    | ok h =>
      rw [decode_ok hw] at hd
      obtain ⟨j, ws', hj, rfl, hwf, rfl⟩ | ⟨hinc, -⟩ := decodePayload_cases cfg h ws
      · rw [hj] at hd
        cases hd
        exact ⟨hwf, by rw [encode, encodeHeader_of_decodeHeader hw, List.cons_append]⟩
      · rw [hinc] at hd; cases hd

/-- Settles O4: the words are the encodings of the commands, and the two gains widen by computation. -/
theorem workedEncodingsDecode : Obligations.WorkedEncodingsDecode :=
  ⟨decode_encode (i := .pushs .c1 [⟨0x00061000, 0xFFF9F000⟩, ⟨0x00062000, 0xFFF9E000⟩]) rfl [],
    decode_encode (i := .pulls) rfl [],
    decode_encode (i := .setgain .c2 0x40000000) rfl [], by decide +kernel,
    decode_encode (i := .setgainm 0x3E800000) rfl [], by decide +kernel,
    decode_encode (i := .getsr .c3) rfl []⟩

/-! ## Reserved headers -/

/-- A reserved answer comes from the header alone, and the words behind it are left (R98, R105). -/
theorem decode_eq_reserved_iff {cfg : Cfg} {w : Word} {ws rest : List Word} {why : Reserved} :
    decode cfg (w :: ws) = .reserved why rest ↔ decodeHeader w = .error why ∧ rest = ws := by
  cases hw : decodeHeader w with
  | error why' =>
    rw [decode_error hw, Decoded.reserved.injEq, Except.error.injEq, eq_comm (a := ws)]
  | ok h =>
    rw [decode_ok hw]
    obtain ⟨i, rest', hd, -⟩ | ⟨hd, -⟩ := decodePayload_cases cfg h ws
    · rw [hd]; exact iff_of_false nofun nofun
    · rw [hd]; exact iff_of_false nofun nofun

theorem channelHeader_error_iff {ch : Nat} (hch : ch < 4) {mk : Chan → Header} :
    (∃ why, channelHeader ch mk = .error why) ↔ ch = 0 := by
  match ch, hch with
  | 0, _ => exact iff_of_true ⟨.channelMissing, rfl⟩ rfl
  | 1, _ => exact iff_of_false nofun (by decide)
  | 2, _ => exact iff_of_false nofun (by decide)
  | 3, _ => exact iff_of_false nofun (by decide)

theorem globalHeader_error_iff {ch : Nat} {h : Header} :
    (∃ why, globalHeader ch h = .error why) ↔ ch ≠ 0 := by
  unfold globalHeader
  split
  · exact iff_of_false nofun (not_not.2 ‹_›)
  · exact iff_of_true ⟨_, rfl⟩ ‹_›

/-- The opcodes that have no command, and those whose channel field does not fit their format (R105). -/
theorem opcodeMap_error_iff {op ch : Nat} (hch : ch < 4) : (∃ why, opcodeMap op ch = .error why) ↔
    (op = 0 ∨ 6 ≤ op) ∨ ((op = 1 ∨ op = 3 ∨ op = 5) ∧ ch = 0) ∨ ((op = 2 ∨ op = 4) ∧ ch ≠ 0) := by
  match op with
  | 0 => exact iff_of_true ⟨.op, rfl⟩ (.inl (.inl rfl))
  | 1 => exact (channelHeader_error_iff hch).trans (by omega)
  | 2 => exact globalHeader_error_iff.trans (by omega)
  | 3 => exact (channelHeader_error_iff hch).trans (by omega)
  | 4 => exact globalHeader_error_iff.trans (by omega)
  | 5 => exact (channelHeader_error_iff hch).trans (by omega)
  | n + 6 => exact iff_of_true ⟨.op, rfl⟩ (.inl (.inr (by omega)))

/-- A header is reserved by its zero fields or by its opcode (R105). -/
theorem decodeHeader_error_iff {w : Word} : (∃ why, decodeHeader w = .error why) ↔
    headerRz1 w ≠ 0 ∨ headerRz0 w ≠ 0 ∨ ∃ why, opcodeMap (headerOp w) (headerCh w) = .error why := by
  obtain ⟨h1, he⟩ | ⟨-, h2, he⟩ | ⟨h1, h2, he⟩ := decodeHeader_cases w
  · exact iff_of_true ⟨_, he⟩ (.inl h1)
  · exact iff_of_true ⟨_, he⟩ (.inr (.inl h2))
  · rw [he, h1, h2]; simp

/-- Settles O3: the conditions of `decodeHeader_error_iff` and `opcodeMap_error_iff`, with the fields as numbers. -/
theorem reservedHeadersAreExactlyThese : Obligations.ReservedHeadersAreExactlyThese := by
  intro cfg w rest
  obtain ⟨hop, hrz1, hch, hrz0⟩ := header_fields w
  have hch4 : headerCh w < 4 := by rw [hch]; exact Nat.mod_lt _ (by decide)
  simp only [decode_eq_reserved_iff, and_true]
  rw [decodeHeader_error_iff, opcodeMap_error_iff hch4, hop, hrz1, hch, hrz0]
  tauto

/-- FS by its bits (00_scope R11). -/
theorem F64.fullScale_eq_ofBits : F64.fullScale = F64.ofBits 0x415FFFFFC0000000 := by decide

namespace Machine

/-! ## A step on a reserved header, and on a part of a command -/

theorem fetch_reserved {cfg : Cfg} {w : Word} {why : Reserved} (h : decodeHeader w = .error why) (rest : List Input) :
    fetch cfg (.word w :: rest) = .reserved why rest := by
  unfold fetch
  rw [leadingWords, decode_error h]
  simp

/-- Settles O6: the header is fetched as reserved, and a step refuses it. -/
theorem stepRefusesReservedHeader : Obligations.StepRefusesReservedHeader := by
  intro s w why rest hl hw hcmd
  rw [step_legal hl, hcmd, fetch_reserved hw, perform]

/-- Words that are no whole command, and no RESET event behind them: the block waits (R106). -/
theorem fetch_incomplete {cfg : Cfg} {ws : List Word} (h : decode cfg ws = .incomplete) :
    fetch cfg (placeWords ws []) = .wait := by
  unfold fetch
  rw [leadingWords_placeWords, afterReset_placeWords, leadingWords, List.append_nil, h, afterReset]

theorem step_wait {s : State} (hl : legalConfig s.cfg = true) (h : fetch s.cfg s.cmd = .wait) : step s = .next s := by
  rw [step_legal hl, h, perform]

/-- Settles O7: in both cases the block waits, and the wait changes nothing. -/
theorem incompleteCommandIsNotStarted : Obligations.IncompleteCommandIsNotStarted := by
  refine ⟨fun s w ws h hl hw hlen hcmd => step_wait hl ?_, fun s hl hcmd => step_wait hl ?_⟩
  · rw [hcmd]
    exact fetch_incomplete (by rw [decode_ok hw, decodePayload_incomplete hlen])
  · rw [hcmd, fetch_nil]

/-! ## The words of a PULLS -/

/-- The words that k ticks send, tick by tick, left before right (R96, R193). -/
theorem ticks_rsp_eq (k : Nat) (s : State) : (ticks k s).rsp = s.rsp ++ (List.range k).flatMap
    fun j => [(tickOutput (ticks j s)).1.l, (tickOutput (ticks j s)).1.r] := by
  induction k with
  | zero => exact (List.append_nil _).symm
  | succ k ih =>
    rw [ticks_succ, tickAndSend_rsp, ih, List.range_succ, List.flatMap_append, List.append_assoc,
      List.flatMap_singleton]

theorem ticks_rsp_length (k : Nat) (s : State) : (ticks k s).rsp.length = s.rsp.length + 2 * k := by
  obtain ⟨ws, hlen, hrsp⟩ := ticks_rsp k s
  rw [hrsp, List.length_append, hlen]

theorem synced_eq_not {ch : Channel} {b : Bool} (h : ch.drift.eq F64.zero = b) : synced ch = !b := by
  rw [synced, h]

/-- A synchronised channel contributes its ring at the read date, times its gain (44_pull_path R187). -/
theorem contribution_synced {cfg : Cfg} {c : Chan} {ch : Channel} (h : synced ch = true) :
    contribution cfg c ch = ⟨(ringPull cfg ch.ring (readDate cfg c ch)).l.mul ch.gain,
      (ringPull cfg ch.ring (readDate cfg c ch)).r.mul ch.gain⟩ := by
  unfold contribution
  rw [if_pos h]

/-- Settles O43: the ticks one by one (`ticks_succ`, `ticks_rsp_eq`), what they leave alone, and the mix of a tick, whose
three pairs can only be the contributions of the channels. -/
theorem pullsSendsItsTicks : Obligations.PullsSendsItsTicks := by
  refine ⟨rfl, fun s => ⟨_, rfl, rfl, ticks_rsp_eq _ s, ticks_rsp_length _ s, ticks_cfg _ s, ticks_cmd _ s,
    ticks_mgain _ s, fun c i => by rw [(ticks_frame _ s c).1], fun c => (ticks_frame _ s c).2, rfl,
    fun k => ticks_succ k s, fun x hx => ?_⟩⟩
  have hcontribution : ∀ c, x c = contribution s.cfg c (s.chan c) := by
    intro c
    obtain ⟨hzero, hnonzero⟩ := hx c
    cases hd : (s.chan c).drift.eq F64.zero with
    | true => rw [hzero hd, contribution_unsynced (synced_eq_not hd), silence]
    | false => rw [hnonzero hd _ rfl, contribution_synced (synced_eq_not hd), readDate, targetAge]
  rw [hcontribution, hcontribution, hcontribution, ← F64.fullScale_eq_ofBits]
  exact ⟨⟨_, rfl⟩, _, rfl⟩

/-! ## The word of GETSR -/

/-- Code 4 is the code of SRMID and of no other rate (R104). -/
theorem rateWord_eq_four_iff {r : Rate} : rateWord r = 4 ↔ r = .srmid := by
  cases r <;> decide

/-- A channel has the rate SRMID only where the configuration gives it a frequency (10_state R29, R30). -/
theorem ChannelInv.midRate {cfg : Cfg} {ch : Channel} (h : ChannelInv cfg ch) (hr : ch.rate = .srmid) :
    cfg.midRate ≠ none := by
  obtain ⟨hz, hhz, -⟩ := (h.synced (by rw [hr]; decide)).nominal
  rw [hr, rateHz] at hhz
  rw [hhz]
  exact Option.some_ne_none hz

/-- Settles O34: GETSR sends the rate's code, and by the invariant SRMID is a rate of the configuration. -/
theorem getsrEffect : Obligations.GetsrEffect := by
  intro s c
  exact ⟨by cases c <;> rfl, rateWord (s.chan c).rate, rfl, congrArg rateWord, congrArg rateWord, congrArg rateWord,
    congrArg rateWord, congrArg rateWord, congrArg rateWord,
    fun hinv hw => (hinv.chans c).midRate (rateWord_eq_four_iff.1 hw)⟩

end Machine

end Sys2Proof

/-!
PROOFS. The ring (40_ring_buffer): how DATE counts (R125), the guard and the value of a read (R126 to R129, R131), the
clear (R121) and the conversion of a sample (R122).
-/

namespace Sys2Proof

/-! ## FLOATs: comparison, floor, magnitude, and half of one -/

theorem F64.lt_eq_false_iff {x y : F64} (hx : x.isFinite = true) (hy : y.isFinite = true) :
    x.lt y = false ↔ y.toRat ≤ x.toRat := by
  rw [Bool.eq_false_iff, Ne, F64.lt_iff hx hy, not_lt]

theorem F64.floor_between {x : F64} {low high : Int} (h1 : (low : ℚ) ≤ x.toRat) (h2 : x.toRat ≤ high) :
    low ≤ x.floor ∧ x.floor ≤ high := by
  obtain ⟨hle, hlt⟩ := F64.floor_spec x
  have hlow : (low : ℚ) < x.floor + 1 := h1.trans_lt hlt
  have hlow' : low < x.floor + 1 := by exact_mod_cast hlow
  exact ⟨by omega, by exact_mod_cast hle.trans h2⟩

/-- The magnitude of a datum whose value is an integer. -/
theorem F64.magnitude_of_toRat {s : Bool} {e : Fin 2047} {f : BitVec 52} {k : Int} (h : (F64.fin s e f).toRat = k) :
    F64.magnitude e f = k.natAbs * F64.one1074 := by
  rw [← F64.units_natAbs_fin s, F64.units_of_toRat h, Int.natAbs_mul, Int.natAbs_natCast]

/-- At 2^53 units and above, the exponent field is at least 2. -/
theorem F64.two_le_exponent {e : Fin 2047} {f : BitVec 52} (h : 2 ^ 53 ≤ F64.magnitude e f) : 2 ≤ e.val := by
  by_contra hlt
  have hf := f.isLt
  have he : e.val - 1 = 0 := by omega
  have hs : F64.significand e f < 2 ^ 53 := by unfold F64.significand; split <;> omega
  rw [F64.magnitude, he, pow_zero, Nat.mul_one] at h
  omega

/-- The exponent field of half a datum, where that is no subnormal. -/
def F64.predExponent (e : Fin 2047) : Fin 2047 := ⟨e.val - 1, by omega⟩

theorem F64.magnitude_predExponent {e : Fin 2047} {f : BitVec 52} (h : 2 ≤ e.val) :
    F64.magnitude e f = F64.magnitude (F64.predExponent e) f * 2 := by
  have hp : (F64.predExponent e).val = e.val - 1 := rfl
  unfold F64.magnitude F64.significand
  rw [hp, if_neg (by omega), if_neg (by omega), Nat.mul_assoc, ← pow_succ]
  congr 2
  omega

/-- The product by 0.5 rounds nothing where the half is no subnormal: the exponent goes down by one. -/
theorem F64.mul_half {s : Bool} {e : Fin 2047} {f : BitVec 52} (h : 2 ≤ e.val) :
    (F64.fin s e f).mul F64.half = .fin s (F64.predExponent e) f := by
  have hhalf : 2 * F64.magnitude 1022 0 = F64.one1074 := by decide +kernel
  have hpos : 0 < F64.one1074 := by exact_mod_cast F64.one1074_pos
  have hround : F64.roundBits (F64.magnitude e f * F64.magnitude 1022 0) F64.one1074
      = F64.bits63 (F64.predExponent e) f :=
    F64.roundBits_exact hpos (by rw [← F64.magnitude_eq, F64.magnitude_predExponent h, Nat.mul_assoc, hhalf])
  show F64.round (s != false) (F64.magnitude e f * F64.magnitude 1022 0) F64.one1074 = _
  rw [Bool.bne_false, F64.round, hround, F64.ofMagnitudeBits_bits63]

theorem F64.div_fin (s t : Bool) (e : Fin 2047) (f : BitVec 52) {e' : Fin 2047} {f' : BitVec 52}
    (h : 0 < F64.magnitude e' f') :
    (F64.fin s e f).div (.fin t e' f')
      = F64.round (s != t) (F64.magnitude e f * F64.one1074) (F64.magnitude e' f') :=
  if_neg (Nat.ne_of_gt h)

theorem F64.one_sub_half : F64.one.sub F64.half = F64.half := by decide +kernel

namespace Machine

/-! ## NORM24 -/

theorem sampleOf_exact (w : Word) :
    (F64.ofInt (sampleOf w)).isFinite = true ∧ (F64.ofInt (sampleOf w)).toRat = sampleOf w := by
  obtain ⟨hlow, hhigh⟩ := sampleOf_bounds w
  exact F64.ofInt_exact (by omega)

theorem norm24_of_sampleOf {w v : Word} (h : sampleOf w = sampleOf v) : norm24 w = norm24 v := by
  unfold norm24
  rw [h]

/-- The least sample, the only one below -1.0 (R122). -/
theorem norm24_least : norm24 0x00800000 = F64.ofBits 0xBFF0000020000040 := by decide +kernel

theorem norm24_le_one (w : Word) : (norm24 w).le F64.one = true := by
  obtain ⟨hfin, -, hone, -⟩ := norm24_bounds w
  rwa [F64.le_iff hfin F64.one_isFinite, F64.toRat_one]

theorem norm24_ge_neg_one {w : Word} (h : sampleOf w ≠ -8388608) :
    (norm24 w).ge (F64.ofBits 0xBFF0000000000000) = true := by
  obtain ⟨hfin, -, -, hlow⟩ := norm24_bounds w
  obtain ⟨ofin, hval⟩ := F64.ofInt_exact (i := -1) (by norm_num)
  have hneg : F64.ofBits 0xBFF0000000000000 = F64.ofInt (-1) := by decide +kernel
  rw [hneg, F64.ge, F64.le_iff ofin hfin, hval]
  exact_mod_cast hlow h

theorem norm24_ge_least (w : Word) : (norm24 w).ge (F64.ofBits 0xBFF0000020000040) = true := by
  by_cases h : sampleOf w = -8388608
  · rw [norm24_of_sampleOf (v := 0x00800000) h, norm24_least]
    decide +kernel
  · have hstep : (F64.ofBits 0xBFF0000020000040).le (F64.ofBits 0xBFF0000000000000) = true := by decide +kernel
    have hge := norm24_ge_neg_one h
    have hfin := (norm24_bounds w).1
    rw [F64.le_iff (by decide) (by decide)] at hstep
    rw [F64.ge, F64.le_iff (by decide) hfin] at hge ⊢
    exact hstep.trans hge

/-- Settles O28: one exact conversion and one division, whose bounds are `norm24_ge_least`, `norm24_ge_neg_one` and
`norm24_le_one`; only the least sample lies below -1.0. -/
theorem norm24Rule : Obligations.Norm24Rule := by
  refine ⟨fun w => ⟨?_, F64.units_of_toRat (sampleOf_exact w).2, (norm24_bounds w).1, norm24_ne_negZero w,
    norm24_ge_least w, norm24_le_one w, norm24_ge_neg_one⟩, fun w v h => norm24_of_sampleOf (congrArg BitVec.toInt h),
    norm24_zero, by decide +kernel, norm24_least, by decide +kernel⟩
  rw [← F64.fullScale_eq_ofBits]
  rfl

/-! ## Half of a sample -/

/-- A sample other than 0 is a quotient of at least 1 / FS, far above the subnormals. -/
theorem norm24_magnitude {w : Word} (h : sampleOf w ≠ 0) :
    ∃ s e f, norm24 w = .fin s e f ∧ 2 ^ 53 ≤ F64.magnitude e f := by
  obtain ⟨ofin, hval⟩ := sampleOf_exact w
  obtain ⟨s, e, f, hx⟩ := F64.finite_cases ofin
  have hnum : F64.magnitude e f = (sampleOf w).natAbs * F64.one1074 := F64.magnitude_of_toRat (hx ▸ hval)
  have hden : F64.magnitude 1045 0xFFFFFC0000000 = 8388607 * F64.one1074 :=
    F64.magnitude_of_toRat (s := false) (k := 8388607) F64.toRat_fullScale
  have hpos : 0 < F64.magnitude 1045 0xFFFFFC0000000 := by decide +kernel
  have hround := F64.div_fin s false e f hpos
  rw [← F64.fullScale, ← hx, ← norm24] at hround
  have hfin := (norm24_bounds w).1
  rw [hround] at hfin ⊢
  obtain ⟨e', f', hdatum, hmag⟩ := F64.magnitude_of_round hfin
  refine ⟨_, e', f', hdatum, ?_⟩
  have hunits : 2 ^ 53 * 8388607 ≤ F64.one1074 := by decide +kernel
  rw [hmag, ← F64.magnitudeOfBits_small (le_refl (2 ^ 53)), F64.magnitudeOfBits_le]
  refine F64.le_roundBits hpos ?_
  rw [F64.magnitudeOfBits_small le_rfl, hnum, hden, ← Nat.mul_assoc]
  exact Nat.mul_le_mul_right _ (hunits.trans (Nat.le_mul_of_pos_left _ (by omega)))

/-- Half of a sample is exact, and has a sign only below 0. -/
theorem IsSample.mul_half {a : F64} (h : IsSample a) :
    (a.mul F64.half).isFinite = true ∧ a.units = (a.mul F64.half).units * 2 ∧
      ((a.mul F64.half).sign = true → a.units < 0) := by
  obtain ⟨w, rfl⟩ := h
  by_cases h0 : sampleOf w = 0
  · rw [norm24_of_sampleOf (v := 0) h0, norm24_zero]
    decide +kernel
  · obtain ⟨s, e, f, hw, hbig⟩ := norm24_magnitude h0
    have he := F64.two_le_exponent hbig
    have hmag := F64.magnitude_predExponent (f := f) he
    rw [hw, F64.mul_half he]
    cases s with
    | false => exact ⟨rfl, by simp only [F64.units]; omega, fun hs => absurd hs Bool.false_ne_true⟩
    | true => exact ⟨rfl, by simp only [F64.units]; omega, fun _ => by simp only [F64.units]; omega⟩

/-- With f = 0.5 the blend is the half sum, rounded by the addition alone (R129). -/
theorem blend_half {a b : F64} (ha : IsSample a) (hb : IsSample b) :
    blend a b F64.half = F64.ofUnits false ((a.units + b.units) / 2) := by
  obtain ⟨afin, aunits, asign⟩ := ha.mul_half
  obtain ⟨bfin, bunits, bsign⟩ := hb.mul_half
  have hsum : (a.units + b.units) / 2 = (a.mul F64.half).units + (b.mul F64.half).units := by omega
  rw [blend, F64.one_sub_half, F64.add_eq afin bfin, hsum]
  by_cases h0 : (a.mul F64.half).units + (b.mul F64.half).units = 0
  · have hsign : ((a.mul F64.half).sign && (b.mul F64.half).sign) = false := by
      rw [Bool.eq_false_iff, Ne, Bool.and_eq_true]
      rintro ⟨hs, ht⟩
      have hneg := asign hs
      have hneg' := bsign ht
      omega
    rw [hsign]
  · exact F64.ofUnits_sign h0

/-- Settles O23: `blend_zero` and `blend_half`; half of each sample is a whole number of units (`IsSample.mul_half`). -/
theorem blendAtZeroAndAtOneHalf : Obligations.BlendAtZeroAndAtOneHalf := by
  intro a b ha hb
  obtain ⟨-, aunits, -⟩ := ha.mul_half
  obtain ⟨-, bunits, -⟩ := hb.mul_half
  exact ⟨blend_zero ha hb, by omega, blend_half ha hb⟩

/-! ## The count of pushes -/

/-- Settles O20: below 2^53 the sum with 1.0 is exact, at 2^53 it rounds back. -/
theorem dateCountsPushesUpToTheLimit : Obligations.DateCountsPushesUpToTheLimit := by
  intro cfg r p k hr
  refine ⟨fun hk => ?_, fun hk => ?_, ringPush_cursor cfg r p⟩
  · rw [ringPush_date, hr]
    exact F64.ofInt_add_one hk
  · rw [ringPush_date, hr, hk]
    exact F64.ofInt_limit_add_one

/-! ## The guard and the read -/

/-- DATE - N is exact (40_ring_buffer R126). -/
theorem date_sub_capacity {cfg : Cfg} {r : Ring} {m : Nat} (hn : cfg.n < 2 ^ 53) (hm : m ≤ 2 ^ 53)
    (hr : r.date = F64.ofInt m) : r.date.sub (F64.ofInt cfg.n) = F64.ofInt ((m : Int) - cfg.n) := by
  rw [hr, F64.sub_ofInt (by omega) (by omega) (by omega)]

/-- The guard as inequalities between values: DATE - N <= d <= DATE. -/
theorem inRange_iff_toRat {cfg : Cfg} {r : Ring} {d : F64} {m : Nat} (hn : cfg.n < 2 ^ 53) (hm : m ≤ 2 ^ 53)
    (hr : r.date = F64.ofInt m) :
    inRange cfg r d = true ↔ d.isFinite = true ∧ d.toRat ≤ m ∧ (((m : Int) - cfg.n : Int) : ℚ) ≤ d.toRat := by
  obtain ⟨mfin, mval⟩ := F64.ofInt_exact (i := m) (by omega)
  obtain ⟨lfin, lval⟩ := F64.ofInt_exact (i := (m : Int) - cfg.n) (by omega)
  rw [inRange_iff, date_sub_capacity hn hm hr, hr, F64.gt]
  refine and_congr_right fun hd => ?_
  rw [F64.lt_eq_false_iff mfin hd, F64.lt_eq_false_iff hd lfin, mval, lval, Int.cast_natCast]

theorem ringPull_in {cfg : Cfg} {r : Ring} {d : F64} (h : inRange cfg r d = true) :
    ringPull cfg r d = blendPair (memRead r.mem (slotOfDate cfg r d.floor))
      (memRead r.mem ((slotOfDate cfg r d.floor + 1) % cfg.n)) (dateFraction d) := by
  unfold ringPull
  rw [if_pos h]

/-- Each of the three tests of the guard gives silence (R126). -/
theorem ringPull_silence {cfg : Cfg} {r : Ring} {d : F64}
    (h : d.isFinite = false ∨ d.gt r.date = true ∨ d.lt (r.date.sub (F64.ofInt cfg.n)) = true) :
    ringPull cfg r d = silence := by
  refine ringPull_out (Bool.eq_false_iff.2 fun hin => ?_)
  obtain ⟨hfin, hgt, hlt⟩ := inRange_iff.1 hin
  rw [hfin, hgt, hlt] at h
  simp at h

theorem slotOfDate_eq {cfg : Cfg} {r : Ring} {m : Nat} (hm : m ≤ 2 ^ 53) (hr : r.date = F64.ofInt m) (k : Int) :
    slotOfDate cfg r k = (((r.cursor : Int) - ((m : Int) - k)) % cfg.n).toNat := by
  rw [slotOfDate, hr, F64.floor_ofInt (by omega)]

theorem slotOfDate_lt {cfg : Cfg} (hn : 0 < cfg.n) (r : Ring) (k : Int) : slotOfDate cfg r k < cfg.n := by
  have hlt := Int.emod_lt_of_pos ((r.cursor : Int) - (r.date.floor - k)) (Int.natCast_pos.2 hn)
  unfold slotOfDate
  omega

/-- Settles O21: outside the guard `ringPull_silence`; inside it `ringPull_in`, with the bounds of the floor, the slots
and the fraction, and the finite blend of samples. -/
theorem ringPullRule : Obligations.RingPullRule := by
  intro cfg r d m hinv hn hm hr
  refine ⟨fun h => ringPull_silence (.inl h), fun h => ringPull_silence (.inr (.inl h)),
    fun h => ringPull_silence (.inr (.inr h)), date_sub_capacity hn hm hr, fun hd hgt hlt => ?_⟩
  have hin : inRange cfg r d = true := inRange_iff.2 ⟨hd, hgt, hlt⟩
  have hpos : 0 < cfg.n := lt_of_le_of_lt (Nat.zero_le _) hinv.cursor
  obtain ⟨-, hhigh, hlow⟩ := (inRange_iff_toRat hn hm hr).1 hin
  obtain ⟨hfloor, hfloor'⟩ := F64.floor_between (high := m) hlow (by exact_mod_cast hhigh)
  obtain ⟨ffin, hf0, hf1⟩ := dateFraction_bounds hd (by omega)
  have hge : (dateFraction d).ge F64.zero = true := by
    rwa [F64.ge, F64.le_iff F64.zero_isFinite ffin, F64.toRat_zero]
  have hle : (dateFraction d).le F64.one = true := by
    rwa [F64.le_iff ffin F64.one_isFinite, F64.toRat_one]
  have hfinite : ∀ a b, IsSample a → IsSample b → (blend a b (dateFraction d)).isFinite = true :=
    fun a b ha hb => (blend_finite ha hb ffin hf0 hf1).1
  rw [ringPull_in hin]
  exact ⟨slotOfDate cfg r d.floor, _, dateFraction d, slotOfDate_eq hm hr _, rfl, slotOfDate_lt hpos r _,
    Nat.mod_lt _ hpos, hfloor, hfloor', rfl, hge, hle, rfl, rfl,
    hfinite _ _ (hinv.samples _).1 (hinv.samples _).1, hfinite _ _ (hinv.samples _).2 (hinv.samples _).2⟩

/-- Settles O22: `ringPull_ofInt` in range; out of range the guard fails at the integer. -/
theorem integerDateReadsOneSlot : Obligations.IntegerDateReadsOneSlot := by
  intro cfg r m k hinv hn hm hr hk
  refine ⟨fun ⟨hlow, hhigh⟩ => ringPull_ofInt hinv hn hm hr hlow hhigh, fun hout => ?_⟩
  refine ringPull_out (Bool.eq_false_iff.2 fun hin => ?_)
  obtain ⟨-, hhigh, hlow⟩ := (inRange_iff_toRat hn hm hr).1 hin
  rw [(F64.ofInt_exact hk).2] at hhigh hlow
  have hhigh' : k ≤ m := by exact_mod_cast hhigh
  have hlow' : (m : Int) - cfg.n ≤ k := by exact_mod_cast hlow
  omega

/-! ## The clear -/

theorem ringClear_date (r : Ring) : (ringClear r).date = F64.ofInt (0 : Nat) := F64.ofInt_zero.symm

/-- Settles O25: the cleared ring has CURSOR = 0 and DATE = 0, so its range is -N to 0 and its slot of date k is k mod
N. -/
theorem clearKeepsTheStorage : Obligations.ClearKeepsTheStorage := by
  intro cfg r hinv hn
  have hdate := ringClear_date r
  refine ⟨rfl, rfl, rfl, rfl, fun d hd hlow hhigh => ?_, fun k hlow hhigh => ?_⟩
  · obtain ⟨lfin, lval⟩ := F64.ofInt_exact (i := -(cfg.n : Int)) (by omega)
    rw [F64.ge, F64.le_iff lfin hd, lval] at hlow
    rw [F64.le_iff hd F64.zero_isFinite, F64.toRat_zero] at hhigh
    exact (inRange_iff_toRat hn (by omega) hdate).2 ⟨hd, by simpa using hhigh, by simpa using hlow⟩
  · have hslot : ((ringClear r).cursor : Int) - ((0 : Nat) - k) = k := by simp [ringClear]
    rw [ringPull_ofInt hinv.clear hn (by omega) hdate (by omega) (by omega), hslot, ringClear]

end Machine

end Sys2Proof

/-!
PROOFS. The push path (41_push_path): the net effect of PUSHS (R142), and the count that saturates at 2^32 - 1 and there
matches no rate (R141, R153).
-/

namespace Sys2Proof.Machine

/-! ## The net effect of PUSHS -/

/-- Writing the registers of a channel touches nothing outside it (10_state R20). -/
theorem SameBut.setChan (c : Chan) (s : State) (x : Channel) : SameBut c s (s.setChan c x) where
  cfg := rfl
  mgain := rfl
  pullcnt := rfl
  cmd := rfl
  rsp := rfl
  draws := rfl
  others _ h := s.setChan_chan_other x h

/-- The words of a PUSHS: opcode 1, the channel number in bits 25:24, and the interleaved pairs (30_encoding R91, R95). -/
theorem encode_pushs (c : Chan) (ps : List WordPair) :
    encode (.pushs c ps) = (0x10000000 + (BitVec.ofNat 32 c.number <<< 24)) :: interleave ps := by
  cases c <;> rfl

/-- Settles O18: PUSHS writes `pushAll` of its pairs into the channel, so each clause is a law of `pushAll`; legality makes
the burst shorter than the ring, so that no slot is written twice (`pushAll_read`). -/
theorem pushsNetEffect : Obligations.PushsNetEffect := by
  intro s c ps k hl hring hdate hk hwf
  have hlen : ps.length = s.cfg.bIn.get c := eq_of_beq hwf
  have hfits : ps.length ≤ s.cfg.n := by
    obtain ⟨-, hburst⟩ := legal_burst hl c
    omega
  obtain ⟨written, kept⟩ := pushAll_read ps hring.canonical hring.cursor hfits
  refine ⟨encode_pushs c ps, by rw [interleave_length, hlen], _, rfl, SameBut.setChan c s _, ?_⟩
  rw [State.setChan_chan_same, ← hlen]
  exact ⟨written, kept, pushAll_cursor ps hring.cursor, pushAll_date ps hdate hk, pushAll_incount _ ps _,
    pushAll_frame _ ps _⟩

/-! ## The saturated count -/

theorem countOne_of_lt {n : BitVec 32} (h : n.toNat < 2 ^ 32 - 1) : (countOne n).toNat = n.toNat + 1 := by
  rw [countOne_toNat, min_eq_left (by omega)]

theorem countOne_of_limit {n : BitVec 32} (h : n.toNat = 2 ^ 32 - 1) : countOne n = n := by
  apply BitVec.eq_of_toNat_eq
  rw [countOne_toNat, h, min_eq_right (by omega)]

/-- CLASSIFY finds nothing exactly when the count lies outside the band of every rate (42_rate_detector R154). -/
theorem classify_eq_none_iff {cfg : Cfg} {c : Chan} {n : Nat} :
    classify cfg c n = none ↔ ∀ r hz, rateHz cfg r = some hz → inBand cfg c n hz = false := by
  unfold classify
  rw [firstMatch_none]
  simp only [Prod.forall, mem_ratesList]

/-- Every band of a legal configuration ends below 2^32 - 1, so a count from there on matches nothing (R153 (c)). -/
theorem classify_of_limit_le {cfg : Cfg} (h : legalConfig cfg = true) (c : Chan) {n : Nat} (hn : 2 ^ 32 - 1 ≤ n) :
    classify cfg c n = none := by
  refine classify_eq_none_iff.2 fun r hz hr => ?_
  obtain ⟨-, hend⟩ := (legal_bands h c).2 r hz hr
  rw [← Bool.not_eq_true, inBand_iff]
  omega

/-- Settles O27: the counter by its two cases, and the bands of a legal configuration hold neither its limit nor 0
(`classify_zero`). -/
theorem saturatedCountMatchesNothing : Obligations.SaturatedCountMatchesNothing := by
  intro cfg c ch p
  rw [pushOne_incount]
  exact ⟨countOne_of_lt, countOne_of_limit, fun hl => ⟨classifyRate_nosync.2 (classify_of_limit_le hl c le_rfl),
    classifyRate_nosync.2 (classify_zero hl c)⟩⟩

end Sys2Proof.Machine

/-!
PROOFS. The rate detector (42_rate_detector): the one band that holds a count (R152 to R155), the same rate and another
rate in DETECT (R158, R159, R161), and what DETECT never touches (R162).
-/

namespace Sys2Proof.Machine

/-! ## CLASSIFY -/

theorem classifyRate_of_some {cfg : Cfg} {c : Chan} {n : Nat} {rho : Rate × Nat} (h : classify cfg c n = some rho) :
    classifyRate cfg c n = rho.1 := by
  rw [classifyRate, h]

/-- A legal configuration has disjoint bands, so the band that holds a count is the one CLASSIFY finds (R153, R154). -/
theorem classifyRate_eq_iff_inBand {cfg : Cfg} (hl : legalConfig cfg = true) {c : Chan} {n : Nat} {r : Rate} {hz : Nat}
    (hr : rateHz cfg r = some hz) : classifyRate cfg c n = r ↔ inBand cfg c n hz = true := by
  constructor
  · intro h
    exact (classify_some (classify_of_rate hr h)).2
  · intro h
    exact classifyRate_of_some (firstMatch_unique (legal_bands hl c).1 (mem_ratesList.2 hr) h)

/-- Settles O35: the rates by `classifyRate_eq_iff_inBand`, NOSYNC by `classify_eq_none_iff`. -/
theorem classifyFindsTheOneBand : Obligations.ClassifyFindsTheOneBand := by
  intro cfg c n hl
  refine ⟨fun r hz hr => (classifyRate_eq_iff_inBand hl hr).trans inBand_iff, ?_⟩
  rw [classifyRate_nosync, classify_eq_none_iff]
  refine forall₃_congr fun r hz _ => ?_
  rw [← Bool.not_eq_true, inBand_iff]
  rfl

/-- Settles O36: the scan runs on each of the fixed counts. -/
theorem classifyBoundaryCounts : Obligations.ClassifyBoundaryCounts := by
  intro c
  cases c <;> decide

/-! ## DETECT with a match -/

/-- A match with the channel's own rate (R158). -/
theorem detect_sameRate {cfg : Cfg} {c : Chan} {ch : Channel} (h0 : ch.rate ≠ .nosync)
    (h : classifyRate cfg c ch.incount.toNat = ch.rate) :
    detect cfg c ch = { ch with cand := .nosync, candcnt := 0, incount := 0 } := by
  rcases detect_cases cfg c ch with ⟨hcl, -⟩ | ⟨-, -, he⟩ | ⟨m, hz, k, hcl, hm, -⟩
  · exact absurd (h.symm.trans (classifyRate_nosync.2 hcl)) h0
  · exact he
  · exact absurd ((classifyRate_of_some hcl).symm.trans h) hm

/-- Settles O39. -/
theorem sameRateKeepsTheChannel : Obligations.SameRateKeepsTheChannel := fun _ _ _ => detect_sameRate

/-- What DETECT makes of a channel in the k-th window in a row that finds another rate m: m is the candidate until
k reaches PERSIST, and then comes a fresh lock (R159). -/
def otherRateOutcome (cfg : Cfg) (m : Rate) (hz k : Nat) (ch : Channel) : Channel :=
  if k < cfg.persist then { ch with cand := m, candcnt := k, incount := 0 }
  else { freshLock m (nominalFactor hz) ch with incount := 0 }

theorem otherRateOutcome_of_lt {cfg : Cfg} {m : Rate} {hz k : Nat} {ch : Channel} (h : k < cfg.persist) :
    otherRateOutcome cfg m hz k ch = { ch with cand := m, candcnt := k, incount := 0 } := if_pos h

theorem otherRateOutcome_of_ge {cfg : Cfg} {m : Rate} {hz k : Nat} {ch : Channel} (h : cfg.persist ≤ k) :
    otherRateOutcome cfg m hz k ch = { freshLock m (nominalFactor hz) ch with incount := 0 } := if_neg (not_lt.2 h)

/-- A match with another rate (R159). -/
theorem detect_otherRate {cfg : Cfg} {c : Chan} {ch : Channel} {m : Rate} {hz k : Nat} (hr : rateHz cfg m = some hz)
    (h : classifyRate cfg c ch.incount.toNat = m) (hm : m ≠ ch.rate)
    (hk : k = if m = ch.cand then ch.candcnt + 1 else 1) : detect cfg c ch = otherRateOutcome cfg m hz k ch := by
  have hsome := classify_of_rate hr h
  rcases detect_cases cfg c ch with ⟨hcl, -⟩ | ⟨z, hcl, -⟩ | ⟨m', z, k', hcl, -, hk', hout⟩ <;> rw [hsome] at hcl
  · cases hcl
  · cases hcl
    exact absurd rfl hm
  · cases hcl
    rw [← hk] at hk'
    subst hk'
    obtain ⟨hlt, he⟩ | ⟨hge, he⟩ := hout
    · rw [he, otherRateOutcome_of_lt hlt]
    · rw [he, otherRateOutcome_of_ge hge]

/-- Settles O38: `detect_otherRate` below PERSIST and from PERSIST on. -/
theorem freshLockRule : Obligations.FreshLockRule := by
  intro cfg c ch m hz k hr h hm hk
  rw [detect_otherRate hr h hm hk]
  exact ⟨otherRateOutcome_of_lt, otherRateOutcome_of_ge⟩

/-- While the windows in a row find the same other rate, m is the candidate, or there is none yet and CANDCNT is 0; in
both cases the next window counts CANDCNT on by one (R161). -/
theorem detect_window_otherRate {cfg : Cfg} {c : Chan} {ch : Channel} {m : Rate} {hz : Nat} {n : BitVec 32}
    (hr : rateHz cfg m = some hz) (hm : m ≠ ch.rate) (hpend : m = ch.cand ∨ ch.candcnt = 0)
    (h : classifyRate cfg c n.toNat = m) :
    detect cfg c { ch with incount := n } = otherRateOutcome cfg m hz (ch.candcnt + 1) ch := by
  refine detect_otherRate (ch := { ch with incount := n }) hr h hm ?_
  split
  · rfl
  · next hne => rw [hpend.resolve_left hne]

/-- Up to PERSIST windows in a row that find the same other rate do together what the last of them does (R159,
R161). -/
theorem foldl_detect_otherRate {cfg : Cfg} {c : Chan} {ch : Channel} {m : Rate} {hz k : Nat} {n : BitVec 32}
    {counts : List (BitVec 32)} (hr : rateHz cfg m = some hz) (hm : m ≠ ch.rate)
    (hpend : m = ch.cand ∨ ch.candcnt = 0) (hall : ∀ x ∈ n :: counts, classifyRate cfg c x.toNat = m)
    (hk : k = ch.candcnt + 1 + counts.length) (hle : k ≤ cfg.persist) :
    (n :: counts).foldl (fun x n => detect cfg c { x with incount := n }) ch = otherRateOutcome cfg m hz k ch := by
  induction counts generalizing ch n with
  | nil => rw [hk]; exact detect_window_otherRate hr hm hpend (hall n List.mem_cons_self)
  | cons n' counts ih =>
    obtain ⟨hn, hrest⟩ := List.forall_mem_cons.1 hall
    rw [List.length_cons] at hk
    have hnext : k = ch.candcnt + 1 + 1 + counts.length := by omega
    rw [List.foldl_cons, detect_window_otherRate hr hm hpend hn, otherRateOutcome_of_lt (by omega)]
    exact ih (ch := { ch with cand := m, candcnt := ch.candcnt + 1, incount := 0 }) hm (.inl rfl) hrest hnext

/-- Settles O40: `foldl_detect_otherRate` from CANDCNT = 0, below PERSIST and at it. -/
theorem lockNeedsPersistWindows : Obligations.LockNeedsPersistWindows := by
  intro cfg c ch m hz counts hpersist hr hm _ hcnt hall
  cases counts with
  | nil => exact ⟨fun _ => ⟨rfl, rfl, rfl, rfl, rfl, rfl, fun h => absurd rfl h, hcnt⟩,
      fun hlen => absurd (hlen ▸ hpersist) (by decide)⟩
  | cons n counts =>
    have hcount : (n :: counts).length = ch.candcnt + 1 + counts.length := by
      rw [hcnt, List.length_cons, Nat.add_comm, Nat.zero_add]
    have hrun := foldl_detect_otherRate hr hm (.inr hcnt) hall hcount
    constructor
    · intro hlt
      rw [hrun hlt.le, otherRateOutcome_of_lt hlt]
      exact ⟨rfl, rfl, rfl, rfl, rfl, rfl, fun _ => rfl, rfl⟩
    · intro heq
      rw [hrun heq.le, otherRateOutcome_of_ge heq.ge]
      exact ⟨rfl, rfl, rfl, rfl, rfl, rfl⟩

/-! ## What DETECT never touches -/

theorem SyncedInv.synced {cfg : Cfg} {ch : Channel} (h : SyncedInv cfg ch) : Machine.synced ch = true := by
  obtain ⟨hfin, hpos, -⟩ := h.bounds
  refine synced_eq_not (b := false) ?_
  rw [← Bool.not_eq_true, F64.eq_iff hfin F64.zero_isFinite, F64.toRat_zero]
  exact hpos.ne'

theorem not_synced_of_drift_zero {ch : Channel} (h : ch.drift = F64.zero) : ¬ synced ch = true := by
  rw [synced, h]
  decide

/-- DETECT keeps `synced` equivalent to "not NOSYNC" (R38): it writes RATE and DRIFT together or not at all. -/
theorem synced_detect_iff {cfg : Cfg} (hl : legalConfig cfg = true) {ch : Channel}
    (h : synced ch = true ↔ ch.rate ≠ .nosync) (c : Chan) :
    synced (detect cfg c ch) = true ↔ (detect cfg c ch).rate ≠ .nosync := by
  rcases detect_cases cfg c ch with ⟨-, he⟩ | ⟨-, -, he⟩ | ⟨m, hz, k, hcl, -, -, ⟨-, he⟩ | ⟨-, he⟩⟩ <;> rw [he]
  · exact iff_of_false (not_synced_of_drift_zero rfl) fun hne => hne rfl
  · exact h
  · exact h
  · have hr := (classify_some hcl).1
    exact iff_of_true (SyncedInv.fresh hl hr rfl rfl).synced (rate_ne_nosync hr)

theorem windowTest_mgain (s : State) : (windowTest s).mgain = s.mgain := by
  unfold windowTest
  split <;> rfl

/-- Settles O41: `detect_frame` and `synced_detect_iff`; DETECT of another channel is a rule of that channel alone. -/
theorem detectNeverTouches : Obligations.DetectNeverTouches := by
  intro cfg c ch
  obtain ⟨hgain, hmem, -⟩ := detect_frame cfg c ch
  refine ⟨hgain, hmem, fun p d hd => ?_, windowTest_mgain, fun hl h => synced_detect_iff hl h c⟩
  rw [detectAll_get, detectAll_get, PerChannel.get_set_other p ch hd]

end Sys2Proof.Machine

/-!
PROOFS. The read position and the drift filter (43_drift_filter): the read date (R170, R171), the clamp (R175), the band
that one update keeps (R176, R178), and what a tick, and a PULLS inside a window, make of a channel (R172, R177, R194).
-/

namespace Sys2Proof

/-! ## FLOATs -/

theorem F64.half_eq_ofBits : F64.half = F64.ofBits 0x3FE0000000000000 := by decide

theorem F64.threeHalves_eq_ofBits : F64.threeHalves = F64.ofBits 0x3FF8000000000000 := by decide

/-- Of two comparable data only one is below the other, the infinities included. -/
theorem F64.lt_eq_false_of_le {x y : F64} (h : x.le y = true) : y.lt x = false := by
  cases x with
  | nan => cases h
  | inf s => cases y <;> cases s <;> simp_all [F64.le, F64.lt, F64.eq]
  | fin s e f =>
    cases y with
    | nan => cases h
    | inf t => cases t <;> simp_all [F64.le, F64.lt, F64.eq]
    | fin t e' f' => exact (F64.lt_eq_false_iff rfl rfl).2 ((F64.le_iff rfl rfl).1 h)

/-- Whole multiples of two values compare as those of their units. -/
theorem F64.mul_units_le {x y : F64} {a b : Int} (h : a * x.toRat ≤ b * y.toRat) : a * x.units ≤ b * y.units := by
  have hscaled := mul_le_mul_of_nonneg_right h F64.scale_pos.le
  rw [mul_assoc, mul_assoc, ← F64.units_eq_toRat, ← F64.units_eq_toRat] at hscaled
  exact_mod_cast hscaled

/-- Half a unit of 2^-1074 is far below every figure of the filter. -/
theorem F64.halfUnit_le : 1 / (2 * (F64.one1074 : ℚ)) ≤ 1 / 2 ^ 100 := by
  have hnat : 2 ^ 100 ≤ F64.one1074 := by
    rw [F64.one1074_eq, Nat.pow_le_pow_iff_right (by norm_num)]
    norm_num
  have hrat : (2 : ℚ) ^ 100 ≤ F64.one1074 := by exact_mod_cast hnat
  exact one_div_le_one_div_of_le (by positivity) (by linarith)

namespace Machine

/-- A product that is not negative and not too large: finite, not negative, and off by at most 2^-53 of itself and
2^-100. -/
theorem mul_nonneg_error {x y : F64} (hx : x.isFinite = true) (hy : y.isFinite = true) {k : Nat} (hk : k ≤ 900)
    (h0 : 0 ≤ x.toRat * y.toRat) (h1 : x.toRat * y.toRat ≤ 2 ^ k) :
    (x.mul y).isFinite = true ∧ 0 ≤ (x.mul y).toRat ∧
      |(x.mul y).toRat - x.toRat * y.toRat| ≤ (x.mul y).toRat / 2 ^ 53 + 1 / 2 ^ 100 := by
  obtain ⟨hi, -, hfin, -, hval, -⟩ := exists_two_pow k hk
  obtain ⟨pfin, p0, -⟩ := F64.mul_between hx hy F64.zero_isFinite hfin (by rwa [F64.toRat_zero]) (by rwa [hval])
  rw [F64.toRat_zero] at p0
  have herr := F64.mul_error hx hy pfin
  rw [abs_of_nonneg p0] at herr
  exact ⟨pfin, p0, herr.trans (add_le_add_right F64.halfUnit_le _)⟩

/-! ## The registers of a synchronised channel -/

theorem SyncedInv.nominal_spec {cfg : Cfg} (hl : legalConfig cfg = true) {ch : Channel} (h : SyncedInv cfg ch) :
    ch.nominal.isFinite = true ∧ 1 / 2 ^ 16 ≤ ch.nominal.toRat ∧ ch.nominal.toRat ≤ 2 ^ 33 := by
  obtain ⟨hz, hr, hnom⟩ := h.nominal
  rw [hnom]
  exact nominalFactor_spec hl hr

/-- The correction of a locked channel at its own read date is no NaN (R171, R174). -/
theorem ChannelInv.correction_not_nan {cfg : Cfg} (hl : legalConfig cfg = true) (hn : cfg.n < 2 ^ 53) {ch : Channel}
    (h : ChannelInv cfg ch) (hr : ch.rate ≠ .nosync) (c : Chan) :
    (correction cfg c ch (readDate cfg c ch)).isNaN = false := by
  have hs := h.synced hr
  obtain ⟨rfin, rle⟩ := readDate_finite hl hn h.outdate hs c
  obtain ⟨nfin, nge, -⟩ := hs.nominal_spec hl
  exact Machine.correction_not_nan hl c nfin (lt_of_lt_of_le (by positivity) nge)
    (driftError_finite hl hn h.ring.date c rfin rle)

/-- Settles O50: `readDate_finite`. -/
theorem readDateOfALockedChannelIsFinite : Obligations.ReadDateOfALockedChannelIsFinite := fun _ c h hr =>
  (readDate_finite h.legal h.capacity (h.chans c).outdate ((h.chans c).synced hr) c).1

/-- Settles O51: the product of +0.0 and DRIFT is a zero, and a zero minus B_IN[c] is the integer -B_IN[c], exactly. -/
theorem readDateStartsOneBurstBack : Obligations.ReadDateStartsOneBurstBack := by
  intro cfg c ch h1 h2 hout hdrift
  obtain ⟨bfin, bval⟩ := F64.ofInt_exact (i := cfg.bIn.get c) (by omega)
  obtain ⟨rfin, rval⟩ := F64.ofInt_exact (i := -(cfg.bIn.get c : Int)) (by omega)
  obtain ⟨pfin, pval⟩ := F64.mul_zero_left hdrift F64.zero_isFinite F64.toRat_zero
  obtain ⟨sfin, sval⟩ := F64.sub_exact pfin bfin rfin (by rw [pval, bval, rval]; push_cast; ring)
  rw [readDate, targetAge, hout]
  exact F64.eq_ofInt sfin (by omega) (sval.trans rval) (by omega)

/-! ## The clamp -/

theorem clampTo_of_between {lo hi x : F64} (hlo : x.ge lo = true) (hhi : x.le hi = true) : clampTo lo hi x = x := by
  simp only [clampTo, F64.gt, F64.lt_eq_false_of_le hlo, F64.lt_eq_false_of_le hhi, Bool.false_eq_true, if_false]

/-- The bounds of the clamp of a synchronised channel are finite, in order, and from 2^-17 to 2^34. -/
theorem SyncedInv.clampBounds_spec {cfg : Cfg} (hl : legalConfig cfg = true) {ch : Channel} (h : SyncedInv cfg ch) :
    (ch.nominal.mul F64.half).isFinite = true ∧ (ch.nominal.mul F64.threeHalves).isFinite = true ∧
      1 / 2 ^ 17 ≤ (ch.nominal.mul F64.half).toRat ∧
      (ch.nominal.mul F64.half).toRat ≤ (ch.nominal.mul F64.threeHalves).toRat ∧
      (ch.nominal.mul F64.threeHalves).toRat ≤ 2 ^ 34 := by
  obtain ⟨nfin, nge, nle⟩ := h.nominal_spec hl
  obtain ⟨lofin, hifin, loge, lole, hige, hile⟩ := Machine.clampBounds_spec nfin nge nle
  exact ⟨lofin, hifin, loge, lole.trans hige, hile⟩

/-- The clamp holds whatever is no NaN within the bounds of a synchronised channel (R175). -/
theorem SyncedInv.clampToNominal_within {cfg : Cfg} (hl : legalConfig cfg = true) {ch : Channel}
    (h : SyncedInv cfg ch) {x : F64} (hx : x.isNaN = false) :
    (clampToNominal ch.nominal x).isFinite = true ∧
      (ch.nominal.mul F64.half).toRat ≤ (clampToNominal ch.nominal x).toRat ∧
      (clampToNominal ch.nominal x).toRat ≤ (ch.nominal.mul F64.threeHalves).toRat := by
  obtain ⟨lofin, hifin, -, hle, -⟩ := h.clampBounds_spec hl
  exact clampTo_between lofin hifin hle hx

/-- Settles O53: the correction is no NaN (`ChannelInv.correction_not_nan`), so the clamp ends within its bounds
(`SyncedInv.clampToNominal_within`), and `clampTo_of_between`. -/
theorem clampHoldsTheCorrection : Obligations.ClampHoldsTheCorrection := by
  rintro s c corr h hr rfl
  have hs := (h.chans c).synced hr
  have hnan := (h.chans c).correction_not_nan h.legal h.capacity hr c
  obtain ⟨lofin, hifin, -⟩ := hs.clampBounds_spec h.legal
  obtain ⟨cfin, cge, cle⟩ := hs.clampToNominal_within h.legal hnan
  rw [← F64.half_eq_ofBits, ← F64.threeHalves_eq_ofBits]
  exact ⟨hnan, (F64.le_iff lofin cfin).2 cge, (F64.le_iff cfin hifin).2 cle, clampTo_of_between⟩

/-! ## The moving average -/

/-- The two coefficients of the moving average add up to 1, up to one rounding. -/
theorem oneSubAlpha_add_alpha {cfg : Cfg} (hl : legalConfig cfg = true) :
    |(F64.one.sub cfg.alpha).toRat + cfg.alpha.toRat - 1| ≤ 1 / 2 ^ 53 := by
  obtain ⟨afin, -⟩ := legal_alpha hl
  obtain ⟨bfin, b0, b1, -⟩ := oneSubAlpha_spec hl
  have herr := F64.sub_error F64.one_isFinite afin bfin
  rw [F64.toRat_one, abs_of_nonneg b0, sub_sub_eq_add_sub] at herr
  exact herr.trans (div_le_div_of_nonneg_right b1 (by positivity))

/-- The moving average of two values of a band stays in the band, up to a relative 2^-50: each of its four roundings is
off by at most 2^-53 (R178). -/
theorem movingAverage_within {cfg : Cfg} (hl : legalConfig cfg = true) {old corr : F64} {lo hi : ℚ}
    (hof : old.isFinite = true) (hcf : corr.isFinite = true) (hlo : 1 / 2 ^ 17 ≤ lo) (hhi : hi ≤ 2 ^ 34)
    (ho1 : lo ≤ old.toRat) (ho2 : old.toRat ≤ hi) (hc1 : lo ≤ corr.toRat) (hc2 : corr.toRat ≤ hi) :
    (2 ^ 50 - 1) * lo ≤ 2 ^ 50 * (movingAverage cfg old corr).toRat ∧
      2 ^ 50 * (movingAverage cfg old corr).toRat ≤ (2 ^ 50 + 1) * hi := by
  have hlo0 : 0 < lo := lt_of_lt_of_le (by positivity) hlo
  have hhi0 : 0 < hi := hlo0.trans_le (ho1.trans ho2)
  obtain ⟨afin, a0, a1⟩ := legal_alpha hl
  obtain ⟨bfin, b0, b1, -⟩ := oneSubAlpha_spec hl
  have hsum := abs_le.1 (oneSubAlpha_add_alpha hl)
  obtain ⟨sfin, s0, -⟩ := movingAverage_spec hl hof (hlo0.trans_le ho1)
    ((ho2.trans hhi).trans (by norm_num)) hcf (hlo.trans hc1) (hc2.trans hhi)
  unfold movingAverage at sfin s0 ⊢
  generalize F64.one.sub cfg.alpha = β at *
  generalize cfg.alpha = α at *
  have hsumLo := mul_le_mul_of_nonneg_left hsum.1 hlo0.le
  have hsumHi := mul_le_mul_of_nonneg_left hsum.2 hhi0.le
  have holdLo := mul_le_mul_of_nonneg_right ho1 b0
  have holdHi := mul_le_mul_of_nonneg_right ho2 b0
  have hcorrLo := mul_le_mul_of_nonneg_right hc1 a0.le
  have hcorrHi := mul_le_mul_of_nonneg_right hc2 a0.le
  have hexactLo : lo * (1 - 1 / 2 ^ 53) ≤ old.toRat * β.toRat + corr.toRat * α.toRat := by linarith
  have hexactHi : old.toRat * β.toRat + corr.toRat * α.toRat ≤ hi * (1 + 1 / 2 ^ 53) := by linarith
  obtain ⟨pfin, p0, perr⟩ := mul_nonneg_error hof bfin (k := 34) (by norm_num) ((mul_nonneg hlo0.le b0).trans holdLo)
    (holdHi.trans ((mul_le_of_le_one_right hhi0.le b1).trans hhi))
  obtain ⟨qfin, q0, qerr⟩ := mul_nonneg_error hcf afin (k := 34) (by norm_num)
    ((mul_nonneg hlo0.le a0.le).trans hcorrLo) (hcorrHi.trans ((mul_le_of_le_one_right hhi0.le a1.le).trans hhi))
  have serr := F64.add_error pfin qfin sfin
  rw [abs_of_pos s0] at serr
  obtain ⟨perrLo, perrHi⟩ := abs_le.1 perr
  obtain ⟨qerrLo, qerrHi⟩ := abs_le.1 qerr
  obtain ⟨serrLo, serrHi⟩ := abs_le.1 serr
  constructor <;> linarith

/-- Settles O54: both DRIFT and the clamped correction lie in the band (`SyncedInv.clampToNominal_within`), and the
moving average keeps them there (`movingAverage_within`). -/
theorem driftUpdateStaysInBand : Obligations.DriftUpdateStaysInBand := by
  rintro s c lo hi new h hr rfl rfl hge hle rfl
  have hs := (h.chans c).synced hr
  obtain ⟨lofin, hifin, loge, -, hile⟩ := hs.clampBounds_spec h.legal
  obtain ⟨cfin, cge, cle⟩ := hs.clampToNominal_within h.legal
    ((h.chans c).correction_not_nan h.legal h.capacity hr c)
  obtain ⟨hlow, hhigh⟩ := movingAverage_within h.legal hs.finite cfin loge hile
    ((F64.le_iff lofin hs.finite).1 hge) ((F64.le_iff hs.finite hifin).1 hle) cge cle
  exact ⟨F64.mul_units_le (by exact_mod_cast hlow), F64.mul_units_le (by exact_mod_cast hhigh)⟩

/-- Settles O55: the filter runs on each of the fixed values. -/
theorem driftExamples : Obligations.DriftExamples := by
  rintro d rfl
  decide +kernel

/-! ## One tick -/

theorem tickChannel_synced {cfg : Cfg} {c : Chan} {ch : Channel} (h : synced ch = true) :
    tickChannel cfg c ch =
      { ch with
        drift := movingAverage cfg ch.drift (clampToNominal ch.nominal (correction cfg c ch (readDate cfg c ch)))
        outdate := ch.outdate.add F64.one } := by
  rw [tickChannel_eq, tickDrift, if_pos h, driftAdjust]

/-- Settles O58: `tickChannel_unsynced`, and `tickChannel_synced` with the parts of the filter written out. -/
theorem tickFiltersASynchronisedChannel : Obligations.TickFiltersASynchronisedChannel := by
  intro cfg c x
  refine ⟨fun h => tickChannel_unsynced (synced_eq_not h), ?_⟩
  rintro r age tgt err corr lo hi low clamped h rfl rfl rfl rfl rfl rfl rfl rfl rfl
  rw [tickChannel_synced (synced_eq_not h), ← F64.half_eq_ofBits, ← F64.threeHalves_eq_ofBits]
  rfl

/-! ## The ticks of a PULLS inside a window -/

/-- Before a window ends, the ticks of each channel follow one another without DETECT (R191). -/
theorem ticks_chan {s : State} {k : Nat} (h : s.pullcnt + k < s.cfg.w) (c : Chan) :
    (ticks k s).chan c = (tickChannel s.cfg c)^[k] (s.chan c) := by
  induction k with
  | zero => rfl
  | succ k ih =>
    have hcnt : (ticks k s).pullcnt = s.pullcnt + k := by
      rw [ticks_pullcnt (by omega), Nat.mod_eq_of_lt (by omega)]
    rw [ticks_succ]
    show (tickState (ticks k s)).chan c = _
    rw [tickState_chan, ticks_cfg, hcnt, if_neg (by omega), ih (by omega), Function.iterate_succ_apply']

/-- The ticks of a channel write its DRIFT and its OUTDATE and nothing else. -/
theorem tickChannel_iterate_frame (cfg : Cfg) (c : Chan) (ch : Channel) (k : Nat) :
    (tickChannel cfg c)^[k] ch =
      { ch with
        drift := ((tickChannel cfg c)^[k] ch).drift
        outdate := ((tickChannel cfg c)^[k] ch).outdate } := by
  induction k with
  | zero => rfl
  | succ k ih =>
    rw [Function.iterate_succ_apply', tickChannel_eq, ih]

theorem tickChannel_iterate_outdate {cfg : Cfg} {c : Chan} {ch : Channel} {j k : Nat} (h : ch.outdate = F64.ofInt j)
    (hle : j + k ≤ 2 ^ 53) : ((tickChannel cfg c)^[k] ch).outdate = F64.ofInt (j + k : Nat) := by
  induction k with
  | zero => exact h
  | succ k ih =>
    rw [Function.iterate_succ_apply', tickChannel_eq, ih (by omega)]
    exact F64.ofInt_add_one (by omega)

/-- DRIFT.ADJ is not run for a channel that is not synchronised (R177). -/
theorem tickChannel_iterate_drift {cfg : Cfg} {c : Chan} {ch : Channel} (h : synced ch = false) (k : Nat) :
    ((tickChannel cfg c)^[k] ch).drift = ch.drift := by
  induction k with
  | zero => rfl
  | succ k ih =>
    have hs : synced ((tickChannel cfg c)^[k] ch) = false := by rw [synced, ih]; exact h
    rw [Function.iterate_succ_apply', tickChannel_unsynced hs]
    exact ih

/-- Settles O44: the counter by `ticks_pullcnt`, the channels by `ticks_chan` and what the ticks of a channel leave
alone. -/
theorem pullsInsideAWindow : Obligations.PullsInsideAWindow := by
  intro s h
  refine ⟨_, rfl, ticks_pullcnt h.pullcnt _, fun hw c => ?_⟩
  have hchan := ticks_chan hw c
  have hframe := tickChannel_iterate_frame s.cfg c (s.chan c) s.cfg.bOut
  rw [← hchan] at hframe
  refine ⟨hchan, fun j hj hle => ?_, fun hs => ?_, ?_⟩
  · rw [hchan]
    exact tickChannel_iterate_outdate hj hle
  · rw [hchan]
    exact tickChannel_iterate_drift hs _
  · rw [hframe]
    exact ⟨rfl, rfl, rfl, rfl, rfl, rfl, rfl⟩

end Machine

end Sys2Proof

/-!
PROOFS. The pull path (44_pull_path): CVT24 (R186), a channel that is not synchronised is not heard (R187), a block
without a lock sends zeros (R185, R192), the examples (R197), and what the first read after a lock returns (R195).
-/

namespace Sys2Proof

/-! ## The bounds of CVT24 -/

theorem F64.twoPow31_eq_ofBits : F64.twoPow31 = F64.ofBits 0x41E0000000000000 := by decide

theorem F64.belowMinInt32_eq_ofBits : F64.belowMinInt32 = F64.ofBits 0xC1E0000000200000 := by decide

theorem F64.twoPow31_eq_ofInt : F64.twoPow31 = F64.ofInt (2 ^ 31) := by decide +kernel

theorem F64.belowMinInt32_eq_ofInt : F64.belowMinInt32 = F64.ofInt (-(2 ^ 31 + 1)) := by decide +kernel

theorem F64.toRat_twoPow31 : F64.twoPow31.toRat = 2 ^ 31 := by
  rw [F64.twoPow31_eq_ofInt, (F64.ofInt_exact (by norm_num)).2]
  norm_num

theorem F64.toRat_belowMinInt32 : F64.belowMinInt32.toRat = -(2 ^ 31 + 1) := by
  rw [F64.belowMinInt32_eq_ofInt, (F64.ofInt_exact (by norm_num)).2]
  norm_num

namespace Machine

/-! ## CVT24 -/

/-- CVT24 has a stated result exactly for the finite values strictly between its two bounds. -/
theorem outOfInt32_eq_false_iff {y : F64} :
    outOfInt32 y = false ↔ y.isFinite = true ∧ -(2 ^ 31 + 1) < y.toRat ∧ y.toRat < 2 ^ 31 := by
  cases y with
  | nan => decide
  | inf s => cases s <;> decide
  | fin s e f =>
    rw [outOfInt32, Bool.or_eq_false_iff, Bool.or_eq_false_iff, F64.ge, ← Bool.not_eq_true (F64.le _ _),
      ← Bool.not_eq_true (F64.le _ F64.belowMinInt32), F64.le_iff rfl rfl, F64.le_iff rfl rfl, not_le, not_le,
      F64.toRat_twoPow31, F64.toRat_belowMinInt32]
    exact ⟨fun ⟨⟨_, h2⟩, h3⟩ => ⟨rfl, h3, h2⟩, fun ⟨_, h3, h2⟩ => ⟨⟨rfl, h2⟩, h3⟩⟩

theorem cvt24_draws {y : F64} (h : outOfInt32 y = true) (draws : Nat) :
    cvt24 y draws = (Config.draw32 draws, draws + 1) := by
  rw [cvt24, if_pos h, draw32]

theorem cvt24_of_inInt32 {y : F64} (h : outOfInt32 y = false) (draws : Nat) :
    cvt24 y draws = (wordOfInt y.trunc, draws) := by
  rw [cvt24, h]
  rfl

/-- Where CVT24 has a stated result, the truncation fits 32 bits. -/
theorem trunc_bounds_of_inInt32 {y : F64} (h : outOfInt32 y = false) : -2 ^ 31 ≤ y.trunc ∧ y.trunc ≤ 2 ^ 31 - 1 := by
  obtain ⟨-, hlow, hhigh⟩ := outOfInt32_eq_false_iff.1 h
  obtain ⟨h1, h2⟩ := F64.trunc_bounds (y := y) (a := 2 ^ 31 + 1) (b := 2 ^ 31) (by norm_num) (by norm_num)
    (by exact_mod_cast hlow) (by exact_mod_cast hhigh)
  omega

theorem toInt_wordOfInt {i : Int} (h1 : -2 ^ 31 ≤ i) (h2 : i ≤ 2 ^ 31 - 1) : (wordOfInt i).toInt = i :=
  BitVec.toInt_ofInt_eq_self (by norm_num) (by omega) (by omega)

/-- Settles O30: the three cases are `outOfInt32`, and outside them the truncation fits (`trunc_bounds_of_inInt32`). -/
theorem cvt24Rule : Obligations.Cvt24Rule := by
  intro y draws
  rw [← F64.twoPow31_eq_ofBits, ← F64.belowMinInt32_eq_ofBits]
  refine ⟨fun h => ?_, fun ⟨h1, h2, h3⟩ => ?_⟩
  · refine cvt24_draws ?_ draws
    rwa [outOfInt32, Bool.or_eq_true, Bool.or_eq_true, or_assoc]
  · have hin : outOfInt32 y = false := by rw [outOfInt32, h1, h2, h3]; rfl
    obtain ⟨hlow, hhigh⟩ := trunc_bounds_of_inInt32 hin
    exact ⟨(outOfInt32_eq_false_iff.1 hin).1, hlow, hhigh, cvt24_of_inInt32 hin draws, toInt_wordOfInt hlow hhigh, rfl⟩

/-! ## The mix without the channels that are not synchronised -/

/-- Settles O47: either channel contributes silence (`contribution_unsynced`), so the two states have one mix. -/
theorem silentChannelIsNotHeard : Obligations.SilentChannelIsNotHeard := by
  intro s c x hs hx
  have hsame : ∀ d, contribution s.cfg d ((s.setChan c x).chan d) = contribution s.cfg d (s.chan d) := by
    intro d
    by_cases hd : d = c
    · subst hd
      rw [State.setChan_chan_same, contribution_unsynced hx, contribution_unsynced hs]
    · rw [State.setChan_chan_other _ _ hd]
  have hmix : mix (s.setChan c x) = mix s := by
    unfold mix
    simp only [State.setChan_cfg, State.setChan_mgain, hsame]
  refine ⟨contribution_unsynced hs, ?_⟩
  unfold tickOutput
  rw [hmix, State.setChan_draws]

theorem mixLane_silent (mgain : F64) :
    mixLane F64.zero F64.zero F64.zero mgain = (F64.zero.mul mgain).mul F64.fullScale := by
  rw [mixLane, F64.zero_add_zero, F64.zero_add_zero]

/-- With no channel locked both lanes of the mix are those of three silent channels. -/
theorem mix_unlocked {s : State} (h : Inv s) (hr : ∀ c, (s.chan c).rate = .nosync) :
    mix s = ⟨(F64.zero.mul s.mgain).mul F64.fullScale, (F64.zero.mul s.mgain).mul F64.fullScale⟩ := by
  have hsilent : ∀ c, contribution s.cfg c (s.chan c) = silence := fun c =>
    contribution_unsynced (Bool.eq_false_iff.2 fun hs => (h.chans c).synced_iff.1 hs (hr c))
  rw [mix, hsilent, hsilent, hsilent, silence, mixLane_silent]

/-- Settles O46: silence times a finite gain is a zero, which converts to 0 (`cvt24_zero`); times any other gain it has no
stated word (`outOfInt32_of_gain`). -/
theorem unlockedTickOutputsZero : Obligations.UnlockedTickOutputsZero := by
  intro s h hr
  have hmix := mix_unlocked h hr
  refine ⟨fun hfin => ?_, fun hinf => ?_⟩
  · obtain ⟨gfin, gval⟩ := F64.mul_zero_left hfin F64.zero_isFinite F64.toRat_zero
    obtain ⟨yfin, yval⟩ := F64.mul_zero_left F64.fullScale_isFinite gfin gval
    simp only [tickOutput, hmix, cvt24_zero yfin yval]
  · simp only [tickOutput, hmix, cvt24_draws (outOfInt32_of_gain hinf)]

/-! ## A silent block -/

/-- A tick of a quiet block keeps it quiet: a window that ends with no pair counted finds no rate. -/
theorem Quiet.tickAndSend {s : State} (h : Quiet s) : Quiet (Machine.tickAndSend s) := by
  have hchan : ∀ c, ((tickState s).chan c).rate = .nosync ∧ ((tickState s).chan c).incount = 0 := by
    intro c
    have hrate := h.unlocked c
    have hcount := h.empty c
    rw [tickState_chan, tickChannel_eq]
    split
    · rw [detect_nosync (classifyRate_nosync.2 (by rw [hcount]; exact classify_zero h.inv.legal c))]
      exact ⟨rfl, rfl⟩
    · exact ⟨hrate, hcount⟩
  refine ⟨h.inv.tickAndSend, fun c => (hchan c).1, fun c => (hchan c).2, ?_⟩
  show (tickState s).mgain.isFinite = true
  rw [tickState_mgain]
  exact h.mgain

theorem Quiet.ticks {s : State} (h : Quiet s) (k : Nat) : Quiet (Machine.ticks k s) := by
  induction k with
  | zero => exact h
  | succ k ih =>
    rw [ticks_succ]
    exact ih.tickAndSend

theorem Quiet.tickOutput_eq {s : State} (h : Quiet s) : tickOutput s = (⟨0, 0⟩, s.draws) :=
  (unlockedTickOutputsZero s h.inv h.unlocked).1 h.mgain

theorem Quiet.ticks_rsp {s : State} (h : Quiet s) (k : Nat) :
    (Machine.ticks k s).rsp = s.rsp ++ List.replicate (2 * k) 0 := by
  induction k with
  | zero => exact (List.append_nil _).symm
  | succ k ih =>
    rw [ticks_succ, tickAndSend_rsp, ih, (h.ticks k).tickOutput_eq, List.append_assoc, Nat.mul_succ,
      List.replicate_add]
    rfl

theorem Quiet.reset : Quiet State.reset :=
  ⟨Inv.resetWith legalConfig_cfgT (by decide), fun c => by cases c <;> rfl, fun c => by cases c <;> rfl, rfl⟩

/-- k PULLS in a row find the block quiet each time. -/
theorem Quiet.run_pulls {s : State} (h : Quiet s) (k : Nat) :
    ∃ t, Host.Core.run core k (s.withInput (placeWords (List.replicate k 0x20000000) [])) = .next t ∧
      t.rsp = s.rsp ++ List.replicate (2 * s.cfg.bOut * k) 0 := by
  induction k generalizing s with
  | zero => exact ⟨_, rfl, (List.append_nil _).symm⟩
  | succ k ih =>
    obtain ⟨t, hrun, hrsp⟩ := ih (h.ticks s.cfg.bOut)
    have hstep : step (s.withInput (placeWords (List.replicate (k + 1) 0x20000000) [])) =
        .next ((Machine.ticks s.cfg.bOut s).withInput (placeWords (List.replicate k 0x20000000) [])) :=
      step_encode (i := .pulls) h.inv.legal rfl rfl _
    refine ⟨t, (run_next hstep k).trans hrun, ?_⟩
    rw [hrsp, h.ticks_rsp, ticks_cfg, List.append_assoc, ← List.replicate_add, Nat.mul_succ, Nat.add_comm]

/-- Settles O45: `ticks_rsp_length` in every state; a quiet state stays quiet tick by tick and sends zeros. -/
theorem silentBlockStaysSilent : Obligations.SilentBlockStaysSilent := by
  refine ⟨fun s => ⟨_, rfl, ticks_rsp_length _ s⟩, fun s h => ⟨_, rfl, h.ticks _, h.ticks_rsp _⟩, Quiet.reset,
    fun k => ?_⟩
  exact Quiet.reset.run_pulls k

/-! ## The four example ticks -/

/-- Settles O49: the model evaluated on the four examples. -/
theorem tickExamples : Obligations.TickExamples := by
  refine ⟨⟨_, rfl, ?_, fun c => ?_, ?_, ?_⟩, ?_, ?_, ?_, ?_, ?_⟩
  · decide +kernel
  · cases c <;> decide +kernel
  all_goals decide +kernel

/-! ## The first read after a lock -/

/-- The registers of the read position after a fresh lock and any pushes: OUTDATE = +0.0 and a finite DRIFT (R156). -/
theorem pushAll_freshLock (cfg : Cfg) (m : Rate) (nom : F64) (ch : Channel) (ps : List WordPair) :
    (pushAll cfg (freshLock m nom ch) ps).outdate = F64.zero ∧ (pushAll cfg (freshLock m nom ch) ps).drift = nom ∧
      (pushAll cfg (freshLock m nom ch) ps).ring = ps.foldl (ringPush cfg) (ringClear ch.ring) := by
  obtain ⟨-, -, hdrift, houtdate, -⟩ := pushAll_frame cfg ps (freshLock m nom ch)
  exact ⟨houtdate, hdrift, (foldl_ringPush cfg ps (freshLock m nom ch)).symm⟩

/-- The slot of the date -j, j pairs before a clear, whatever has been pushed since. -/
theorem slot_before_clear {len j n : Nat} (h0 : 0 < j) (h : j ≤ n) :
    ((((len % n : Nat) : Int) - ((len : Int) - -(j : Int))) % n).toNat = n - j := by
  have hwrap : (len : Int) - ((len : Int) - -(j : Int)) = ((n - j : Nat) : Int) + n * (-1) := by omega
  rw [Int.natCast_mod, Int.emod_sub_emod, hwrap, Int.add_mul_emod_self_left, ← Int.natCast_mod,
    Nat.mod_eq_of_lt (by omega), Int.toNat_natCast]

/-- Settles O52: the read date is -B_IN[c] (`readDateStartsOneBurstBack`), its slot is N - B_IN[c], and the pushes since
the clear have gone to lower slots (`foldl_ringPush_read`). -/
theorem firstReadAfterLockIsOldContent : Obligations.FirstReadAfterLockIsOldContent := by
  intro cfg c ch m hz ps hl hn hring hhz hlen
  obtain ⟨hburst, hcap⟩ := legal_burst hl c
  obtain ⟨nfin, -⟩ := nominalFactor_spec hl hhz
  obtain ⟨houtdate, hdrift, hpushed⟩ := pushAll_freshLock cfg m (nominalFactor hz) ch ps
  have hdate := foldl_ringPush_date cfg ps (r := ringClear ch.ring) rfl (by omega)
  have hcursor := foldl_ringPush_cursor (cfg := cfg) ps hring.clear.cursor
  obtain ⟨-, kept⟩ := foldl_ringPush_read (cfg := cfg) (by omega) hring.clear.canonical rfl ps
  rw [readDateStartsOneBurstBack cfg c _ hburst (by omega) houtdate (by rwa [hdrift]), hpushed,
    ringPull_ofInt (hring.clear.pushes ps) hn (by omega) hdate (by omega) (by omega), hcursor,
    show (ringClear ch.ring).cursor = 0 from rfl, Nat.zero_add, slot_before_clear (by omega) (by omega)]
  refine kept _ fun k hk _ => ?_
  rw [Nat.mod_eq_of_lt (by omega)]
  omega

end Machine

end Sys2Proof

/-!
PROOFS. The mix at gains of magnitude at most 1 (44_pull_path R189): no output word is drawn, and every one lies
within three times the least sample.
-/

namespace Sys2Proof

/-! ## Bounds that are the value of a FLOAT -/

/-- The value of a finite FLOAT: no rounding crosses it. -/
def F64.IsValue (q : ℚ) : Prop := ∃ x : F64, x.isFinite = true ∧ x.toRat = q

theorem F64.isValue_dyadic {r k : Nat} (hr : r ≤ 2 ^ 53) (hk : k ≤ 1074) : F64.IsValue (r / 2 ^ k) := by
  obtain ⟨e, f, hm⟩ := F64.exists_magnitude (r := r) (k := 1074 - k) hr (by omega)
  refine ⟨.fin false e f, rfl, ?_⟩
  rw [F64.toRat_of_magnitude hm (by omega), Nat.sub_sub_self hk]

theorem F64.mul_abs_le {x y : F64} {q : ℚ} (hq : F64.IsValue q) (hx : x.isFinite = true) (hy : y.isFinite = true)
    (h : |x.toRat * y.toRat| ≤ q) : (x.mul y).isFinite = true ∧ |(x.mul y).toRat| ≤ q := by
  obtain ⟨d, dfin, rfl⟩ := hq
  rw [abs_le, ← F64.toRat_neg] at h ⊢
  exact F64.mul_between hx hy (by rwa [F64.neg_isFinite]) dfin h.1 h.2

theorem F64.add_abs_le {x y : F64} {q : ℚ} (hq : F64.IsValue q) (hx : x.isFinite = true) (hy : y.isFinite = true)
    (h : |x.toRat + y.toRat| ≤ q) : (x.add y).isFinite = true ∧ |(x.add y).toRat| ≤ q := by
  obtain ⟨d, dfin, rfl⟩ := hq
  rw [abs_le, ← F64.toRat_neg] at h ⊢
  exact F64.add_between hx hy (by rwa [F64.neg_isFinite]) dfin h.1 h.2

theorem F64.div_abs_le {x y : F64} {q : ℚ} (hq : F64.IsValue q) (hx : x.isFinite = true) (hy : y.isFinite = true)
    (hy0 : 0 < y.toRat) (h : |x.toRat / y.toRat| ≤ q) : (x.div y).isFinite = true ∧ |(x.div y).toRat| ≤ q := by
  obtain ⟨d, dfin, rfl⟩ := hq
  rw [abs_le, ← F64.toRat_neg] at h ⊢
  exact F64.div_between hx hy hy0 (by rwa [F64.neg_isFinite]) dfin h.1 h.2

namespace Machine

/-! ## Samples, reads and contributions -/

/-- The least sample has the greatest magnitude, 8388608 / 8388607, a little above 1 + 2^-23. -/
theorem norm24_abs_le (w : Word) : |(norm24 w).toRat| ≤ 67108873 / 2 ^ 26 := by
  obtain ⟨ofin, hval⟩ := sampleOf_exact w
  obtain ⟨hlow, hhigh⟩ := sampleOf_bounds w
  have habs : |(sampleOf w : ℚ)| ≤ 8388608 := by
    exact_mod_cast abs_le.2 ⟨hlow, by omega⟩
  have hvalue : F64.IsValue (67108873 / 2 ^ 26) := F64.isValue_dyadic (r := 67108873) (by norm_num) (by norm_num)
  have hbound : |(F64.ofInt (sampleOf w)).toRat / F64.fullScale.toRat| ≤ 67108873 / 2 ^ 26 := by
    rw [hval, F64.toRat_fullScale, abs_div, abs_of_nonneg (by norm_num : (0 : ℚ) ≤ 8388607),
      div_le_iff₀ (by norm_num)]
    linarith
  exact (F64.div_abs_le hvalue ofin F64.fullScale_isFinite (by rw [F64.toRat_fullScale]; norm_num) hbound).2

/-- A lane that is finite and of magnitude at most 1 + 5 * 2^-25: room above every sample for the roundings of a read,
and three such lanes times FS still truncate to at most 3 * 2^23. -/
def NearUnit (x : F64) : Prop := x.isFinite = true ∧ |x.toRat| ≤ 33554437 / 2 ^ 25

theorem nearUnit_isValue : F64.IsValue (33554437 / 2 ^ 25) :=
  F64.isValue_dyadic (r := 33554437) (by norm_num) (by norm_num)

/-- A gain of magnitude at most 1. -/
def UnitGain (g : F64) : Prop := g.isFinite = true ∧ |g.toRat| ≤ 1

theorem NearUnit.zero : NearUnit F64.zero := ⟨rfl, by rw [F64.toRat_zero]; norm_num⟩

/-- One product of a blend: the rounding adds less than 2^-51. -/
theorem mul_sample_error {x g : F64} (hx : IsSample x) (hg : g.isFinite = true) (h0 : 0 ≤ g.toRat) (h1 : g.toRat ≤ 1) :
    (x.mul g).isFinite = true ∧ |(x.mul g).toRat| ≤ 67108873 / 2 ^ 26 * g.toRat + 1 / 2 ^ 51 := by
  obtain ⟨w, rfl⟩ := hx
  obtain ⟨xfin, -⟩ := norm24_bounds w
  have hprod : |(norm24 w).toRat * g.toRat| ≤ 67108873 / 2 ^ 26 * g.toRat := by
    rw [abs_mul, abs_of_nonneg h0]
    exact mul_le_mul_of_nonneg_right (norm24_abs_le w) h0
  obtain ⟨pfin, hp⟩ := mul_bound xfin hg (k := 1) (by norm_num) (hprod.trans (by linarith))
  have herr := F64.mul_error xfin hg pfin
  have htiny := F64.halfUnit_le
  have htri := abs_sub_abs_le_abs_sub (((norm24 w).mul g).toRat) ((norm24 w).toRat * g.toRat)
  exact ⟨pfin, by linarith⟩

/-- A blend of two samples exceeds the greater of them by the roundings only. -/
theorem blend_nearUnit {a b f : F64} (ha : IsSample a) (hb : IsSample b) (hf : f.isFinite = true) (h0 : 0 ≤ f.toRat)
    (h1 : f.toRat ≤ 1) : NearUnit (blend a b f) := by
  obtain ⟨gfin, g0, g1⟩ := one_sub_bounds hf h0 h1
  have hg := F64.sub_error F64.one_isFinite hf gfin
  rw [F64.toRat_one, abs_of_nonneg g0] at hg
  have hsum := (abs_le.1 hg).2
  obtain ⟨pfin, hp⟩ := mul_sample_error ha gfin g0 g1
  obtain ⟨qfin, hq⟩ := mul_sample_error hb hf h0 h1
  have htri := abs_add_le (a.mul (F64.one.sub f)).toRat (b.mul f).toRat
  exact F64.add_abs_le nearUnit_isValue pfin qfin (htri.trans (by linarith))

/-- A read of a ring in its invariant: silence, or a blend of samples (40_ring_buffer R126, R128). -/
theorem ringPull_nearUnit {cfg : Cfg} {r : Ring} (h : RingInv cfg r) (hn : cfg.n < 2 ^ 53) (d : F64) :
    NearUnit (ringPull cfg r d).l ∧ NearUnit (ringPull cfg r d).r := by
  cases hin : inRange cfg r d with
  | false =>
    rw [ringPull_out hin]
    exact ⟨NearUnit.zero, NearUnit.zero⟩
  | true =>
    obtain ⟨-, m, hm, -, hdate⟩ := h.date.spec
    obtain ⟨dfin, hhigh, hlow⟩ := (inRange_iff_toRat hn hm hdate).1 hin
    obtain ⟨hfloor, hfloor'⟩ := F64.floor_between (high := m) hlow (by exact_mod_cast hhigh)
    obtain ⟨ffin, hf0, hf1⟩ := dateFraction_bounds dfin (by omega)
    rw [ringPull_in hin]
    exact ⟨blend_nearUnit (h.samples _).1 (h.samples _).1 ffin hf0 hf1,
      blend_nearUnit (h.samples _).2 (h.samples _).2 ffin hf0 hf1⟩

theorem NearUnit.mul {x g : F64} (hx : NearUnit x) (hg : UnitGain g) : NearUnit (x.mul g) := by
  obtain ⟨xfin, hx⟩ := hx
  obtain ⟨gfin, hg⟩ := hg
  refine F64.mul_abs_le nearUnit_isValue xfin gfin ?_
  rw [abs_mul]
  exact (mul_le_of_le_one_right (abs_nonneg _) hg).trans hx

theorem contribution_nearUnit {cfg : Cfg} (hn : cfg.n < 2 ^ 53) {c : Chan} {ch : Channel} (h : ChannelInv cfg ch)
    (hg : UnitGain ch.gain) : NearUnit (contribution cfg c ch).l ∧ NearUnit (contribution cfg c ch).r := by
  cases hs : synced ch with
  | false =>
    rw [contribution_unsynced hs]
    exact ⟨NearUnit.zero, NearUnit.zero⟩
  | true =>
    obtain ⟨hl, hr⟩ := ringPull_nearUnit h.ring hn (readDate cfg c ch)
    rw [contribution_synced hs]
    exact ⟨hl.mul hg, hr.mul hg⟩

/-! ## The mix and its words -/

/-- Three lanes, the master gain and FS, each operation rounded: 3 * (1 + 5 * 2^-25) * FS is below 25165824.75. -/
theorem mixLane_abs_le {x1 x2 x3 m : F64} (h1 : NearUnit x1) (h2 : NearUnit x2) (h3 : NearUnit x3) (hm : UnitGain m) :
    (mixLane x1 x2 x3 m).isFinite = true ∧ |(mixLane x1 x2 x3 m).toRat| ≤ 100663299 / 2 ^ 2 := by
  obtain ⟨fin1, h1⟩ := h1
  obtain ⟨fin2, h2⟩ := h2
  obtain ⟨fin3, h3⟩ := h3
  obtain ⟨mfin, hm⟩ := hm
  have htwo : F64.IsValue (67108874 / 2 ^ 25) := F64.isValue_dyadic (r := 67108874) (by norm_num) (by norm_num)
  have hthree : F64.IsValue (100663311 / 2 ^ 25) := F64.isValue_dyadic (r := 100663311) (by norm_num) (by norm_num)
  have hscaled : F64.IsValue (100663299 / 2 ^ 2) := F64.isValue_dyadic (r := 100663299) (by norm_num) (by norm_num)
  obtain ⟨fin12, h12⟩ := F64.add_abs_le htwo fin1 fin2 ((abs_add_le _ _).trans (by linarith))
  obtain ⟨fin123, h123⟩ := F64.add_abs_le hthree fin12 fin3 ((abs_add_le _ _).trans (by linarith))
  obtain ⟨gfin, hg⟩ := F64.mul_abs_le hthree fin123 mfin
    (by rw [abs_mul]; exact (mul_le_of_le_one_right (abs_nonneg _) hm).trans h123)
  refine F64.mul_abs_le hscaled gfin F64.fullScale_isFinite ?_
  rw [abs_mul, F64.toRat_fullScale, abs_of_nonneg (by norm_num : (0 : ℚ) ≤ 8388607)]
  linarith

/-- Such a value is not drawn, and its word lies within the bound (R186). -/
theorem cvt24_of_abs_le {y : F64} (hfin : y.isFinite = true) (h : |y.toRat| ≤ 100663299 / 2 ^ 2) (draws : Nat) :
    ∃ w : Word, cvt24 y draws = (w, draws) ∧ -25165824 ≤ w.toInt ∧ w.toInt ≤ 25165824 := by
  obtain ⟨hlow, hhigh⟩ := abs_le.1 h
  have hin : outOfInt32 y = false := outOfInt32_eq_false_iff.2 ⟨hfin, by linarith, by linarith⟩
  obtain ⟨t1, t2⟩ := F64.trunc_bounds (y := y) (a := 25165825) (b := 25165825) (by norm_num) (by norm_num)
    (by push_cast; linarith) (by push_cast; linarith)
  refine ⟨_, cvt24_of_inInt32 hin draws, ?_⟩
  rw [toInt_wordOfInt (by omega) (by omega)]
  omega

/-- The three gains and the master gain have magnitude at most 1. -/
structure UnitGains (s : State) : Prop where
  inv : Inv s
  gain : ∀ c, UnitGain (s.chan c).gain
  mgain : UnitGain s.mgain

theorem UnitGains.ticks {s : State} (h : UnitGains s) (k : Nat) : UnitGains (Machine.ticks k s) :=
  ⟨h.inv.ticks k, fun c => by rw [(ticks_frame k s c).2]; exact h.gain c, by rw [ticks_mgain]; exact h.mgain⟩

theorem UnitGains.tickOutput {s : State} (h : UnitGains s) : ∃ l r : Word, Machine.tickOutput s = (⟨l, r⟩, s.draws) ∧
    (-25165824 ≤ l.toInt ∧ l.toInt ≤ 25165824) ∧ (-25165824 ≤ r.toInt ∧ r.toInt ≤ 25165824) := by
  have hlanes := fun c => contribution_nearUnit h.inv.capacity (c := c) (h.inv.chans c) (h.gain c)
  obtain ⟨lfin, hl⟩ := mixLane_abs_le (hlanes .c1).1 (hlanes .c2).1 (hlanes .c3).1 h.mgain
  obtain ⟨rfin, hr⟩ := mixLane_abs_le (hlanes .c1).2 (hlanes .c2).2 (hlanes .c3).2 h.mgain
  obtain ⟨l, hcl, hlb⟩ := cvt24_of_abs_le lfin hl s.draws
  obtain ⟨r, hcr, hrb⟩ := cvt24_of_abs_le rfin hr s.draws
  refine ⟨l, r, ?_, hlb, hrb⟩
  simp only [Machine.tickOutput, mix, hcl, hcr]

theorem UnitGains.ticks_draws {s : State} (h : UnitGains s) (k : Nat) : (Machine.ticks k s).draws = s.draws := by
  induction k with
  | zero => rfl
  | succ k ih =>
    obtain ⟨l, r, hout, -⟩ := (h.ticks k).tickOutput
    rw [ticks_succ]
    show (tickState (Machine.ticks k s)).draws = s.draws
    rw [tickState_draws, hout, ih]

theorem UnitGains.ticks_words {s : State} (h : UnitGains s) (k : Nat) :
    ∀ w ∈ (Machine.ticks k s).rsp.drop s.rsp.length, -25165824 ≤ w.toInt ∧ w.toInt ≤ 25165824 := by
  intro w hw
  rw [ticks_rsp_eq, List.drop_left, List.mem_flatMap] at hw
  obtain ⟨j, -, hw⟩ := hw
  obtain ⟨l, r, hout, hl, hr⟩ := (h.ticks j).tickOutput
  rw [hout, List.mem_pair] at hw
  rcases hw with rfl | rfl
  · exact hl
  · exact hr

/-- A gain between -1.0 and 1.0 is finite: no comparison with a NaN holds, and an infinity fails one of the two. -/
theorem unitGain_of_le {g : F64} (h1 : g.ge (F64.ofInt (-1)) = true) (h2 : g.le F64.one = true) : UnitGain g := by
  obtain ⟨ofin, oval⟩ := F64.ofInt_exact (i := -1) (by norm_num)
  obtain ⟨s, e, f, ho⟩ := F64.finite_cases ofin
  have gfin : g.isFinite = true := by
    cases g with
    | nan => cases h2
    | inf t =>
      cases t with
      | false => cases h2
      | true => rw [ho] at h1; cases h1
    | fin t e' f' => rfl
  rw [F64.ge, F64.le_iff ofin gfin, oval] at h1
  rw [F64.le_iff gfin F64.one_isFinite, F64.toRat_one] at h2
  exact ⟨gfin, abs_le.2 ⟨by exact_mod_cast h1, h2⟩⟩

/-- Settles O48: every tick of the PULLS starts with these gains, and there the mix of a tick is bounded
(`mixLane_abs_le`), so that both words convert without a draw. -/
theorem unitGainsDrawNothing : Obligations.UnitGainsDrawNothing := by
  intro s t hinv hgain hm1 hm2 ht
  have h : UnitGains s := ⟨hinv, fun c => unitGain_of_le (hgain c).1 (hgain c).2, unitGain_of_le hm1 hm2⟩
  cases ht
  exact ⟨h.ticks_draws _, h.ticks_words _⟩

end Machine

end Sys2Proof

/-!
PROOFS. The way of a stored sample to the output at unity gains (44_pull_path R189): the product by FS undoes the
division by FS of NORM24, although both are rounded.
-/

namespace Sys2Proof

theorem two_pow_mul_two_pow {a b c : Nat} (h : a + b = c) : 2 ^ a * 2 ^ b = 2 ^ c := by rw [← pow_add, h]

/-! ## The error of one rounding, by the size of the quotient -/

theorem F64.roundHalfEven_error (num : Nat) {den : Nat} (hd : 0 < den) :
    2 * num ≤ (2 * F64.roundHalfEven num den + 1) * den ∧ 2 * F64.roundHalfEven num den * den ≤ 2 * num + den := by
  have h1 := Nat.div_add_mod num den
  have h2 := Nat.mod_lt num hd
  unfold F64.roundHalfEven
  generalize num % den = r at *
  generalize num / den = q at *
  subst h1
  split
  · constructor
    · nlinarith
    · have : den ≤ 2 * r := by omega
      nlinarith
  · constructor
    · have : 2 * r ≤ den := by omega
      nlinarith
    · nlinarith

/-- The magnitude that is rounded to: the rounded significand with the dropped bits put back. -/
theorem F64.magnitudeOfBits_roundBits (num den : Nat) :
    F64.magnitudeOfBits (F64.roundBits num den) =
      F64.roundHalfEven num (den * 2 ^ F64.droppedBits (num / den)) * 2 ^ F64.droppedBits (num / den) := by
  unfold F64.roundBits
  by_cases hk : F64.droppedBits (num / den) = 0
  · have hq := F64.droppedBits_zero hk
    have hR := F64.roundHalfEven_le_succ num den
    rw [hk, pow_zero, Nat.mul_one, Nat.mul_one, Nat.zero_mul, Nat.zero_add, F64.magnitudeOfBits_small (by omega)]
  · obtain ⟨hlow, hhigh⟩ := F64.droppedBits_pos hk
    generalize F64.droppedBits (num / den) = k at *
    have hP : 0 < 2 ^ k := by positivity
    have hge := F64.roundHalfEven_ge num (den * 2 ^ k)
    have hle := F64.roundHalfEven_le_succ num (den * 2 ^ k)
    rw [← Nat.div_div_eq_div_mul] at hge hle
    have hlow' : 2 ^ 52 ≤ num / den / 2 ^ k := (Nat.le_div_iff_mul_le hP).2 hlow
    have hhigh' : num / den / 2 ^ k < 2 ^ 53 := (Nat.div_lt_iff_lt_mul hP).2 hhigh
    exact F64.magnitudeOfBits_normal k _ (by omega) (by omega)

/-- A quotient below 2^(53 + j) is rounded with an error of at most half of 2^j. -/
theorem F64.roundBits_error_of_lt {num den j : Nat} (hd : 0 < den) (h : num < 2 ^ 53 * 2 ^ j * den) :
    2 * num ≤ (2 * F64.magnitudeOfBits (F64.roundBits num den) + 2 ^ j) * den ∧
      2 * F64.magnitudeOfBits (F64.roundBits num den) * den ≤ 2 * num + 2 ^ j * den := by
  have hq : num / den < 2 ^ (53 + j) := by
    rw [pow_add]
    exact (Nat.div_lt_iff_lt_mul hd).2 h
  have hk : F64.droppedBits (num / den) ≤ j := by
    unfold F64.droppedBits
    rcases Nat.eq_zero_or_pos (num / den) with h0 | h0
    · rw [h0]; simp
    · have := (Nat.log2_lt (by omega)).2 hq
      omega
  rw [F64.magnitudeOfBits_roundBits]
  generalize F64.droppedBits (num / den) = k at *
  obtain ⟨h1, h2⟩ := F64.roundHalfEven_error num (den := den * 2 ^ k) (by positivity)
  have hp : 2 ^ k * den ≤ 2 ^ j * den := Nat.mul_le_mul_right _ (Nat.pow_le_pow_right (by norm_num) hk)
  constructor <;> nlinarith

/-- A whole number x within half of the last place of a magnitude is rounded to it; below a power of two the last place
is half as wide. -/
theorem F64.roundBits_of_near {x den i r : Nat} (hd : 0 < den) (h1 : 2 ^ 52 ≤ r) (h2 : r < 2 ^ 53)
    (hup : 2 * x < (2 * r + 1) * 2 ^ (i + 1)) (hlow : 2 * r * 2 ^ (i + 1) < 2 * x + 2 ^ (i + 1))
    (hpow : r = 2 ^ 52 → 2 * r * 2 ^ (i + 1) < 2 * x + 2 ^ i) :
    F64.roundBits (x * den) den = (i + 1) * 2 ^ 52 + r := by
  have hb := F64.magnitudeOfBits_normal (i + 1) r h1 h2.le
  refine Nat.le_antisymm (F64.roundBits_le_of_lt_mid hd ?_) ?_
  · rw [Nat.add_assoc, hb, F64.magnitudeOfBits_normal (i + 1) (r + 1) (by omega) (by omega), ← Nat.mul_assoc]
    exact Nat.mul_lt_mul_of_pos_right (by linarith) hd
  · rcases Nat.eq_or_lt_of_le h1 with hr | hr
    · have hpred : (i + 1) * 2 ^ 52 + r = i * 2 ^ 52 + (2 ^ 53 - 1) + 1 := by omega
      have hlow' := hpow hr.symm
      rw [hpred] at hb ⊢
      refine F64.le_roundBits_of_mid_lt hd ?_
      rw [hb, F64.magnitudeOfBits_normal i (2 ^ 53 - 1) (by norm_num) (by norm_num), ← Nat.mul_assoc]
      refine Nat.mul_lt_mul_of_pos_right ?_ hd
      rw [← hr, pow_succ 2 i] at hlow' ⊢
      omega
    · obtain ⟨q, rfl⟩ : ∃ q, r = q + 1 := ⟨r - 1, by omega⟩
      rw [← Nat.add_assoc] at hb ⊢
      refine F64.le_roundBits_of_mid_lt hd ?_
      rw [hb, F64.magnitudeOfBits_normal (i + 1) q (by omega) (by omega), ← Nat.mul_assoc]
      exact Nat.mul_lt_mul_of_pos_right (by linarith) hd

/-! ## The division by FS and the product by FS -/

theorem F64.magnitude_fullScale : F64.magnitude 1045 0xFFFFFC0000000 = 8388607 * F64.one1074 :=
  F64.magnitude_of_toRat (s := false) (k := 8388607) F64.toRat_fullScale

/-- The magnitude of the rounded quotient m / FS. -/
def F64.quotientFS (m : Nat) : Nat :=
  F64.magnitudeOfBits (F64.roundBits (m * F64.one1074 * F64.one1074) (8388607 * F64.one1074))

theorem F64.one1074_split {e : Nat} (h : e ≤ 23) (m : Nat) :
    m * F64.one1074 = m * 2 ^ (52 - e) * 2 ^ (1021 + e + 1) := by
  rw [Nat.mul_assoc, two_pow_mul_two_pow (c := 1074) (by omega), F64.one1074_eq]

/-- For 2^e <= m < 2^(e+1) the quotient m / FS lies below 2^(e-22), but for m = FS itself. -/
theorem F64.lt_mul_fullScale {m e : Nat} (h : m < 2 ^ (e + 1)) (he : e ≤ 23) (hm : m ≤ 2 ^ 23) (hne : m ≠ 8388607) :
    m * 2 ^ 22 < 2 ^ e * 8388607 := by
  rw [pow_succ] at h
  rcases Nat.lt_or_ge e 22 with hlt | hge
  · have hpow : 2 ^ e < 2 ^ 22 := Nat.pow_lt_pow_right (by norm_num) hlt
    omega
  · obtain rfl | rfl : e = 22 ∨ e = 23 := by omega
    · omega
    · omega

/-- The error of the quotient, times FS: less than half of the last place of m. -/
theorem F64.quotientFS_error {m e : Nat} (h : m < 2 ^ (e + 1)) (he : e ≤ 23) (hm : m ≤ 2 ^ 23) (hne : m ≠ 8388607) :
    2 * (m * F64.one1074) ≤ (2 * F64.quotientFS m + 2 ^ (999 + e)) * 8388607 ∧
      2 * F64.quotientFS m * 8388607 ≤ 2 * (m * F64.one1074) + 2 ^ (999 + e) * 8388607 := by
  have hpos : 0 < F64.one1074 := by exact_mod_cast F64.one1074_pos
  have hlt : m * F64.one1074 < 2 ^ 53 * 2 ^ (999 + e) * 8388607 := by
    have hsize : 2 ^ 53 * 2 ^ (999 + e) = 2 ^ e * 2 ^ 1052 :=
      (two_pow_mul_two_pow (c := e + 1052) (by omega)).trans (two_pow_mul_two_pow rfl).symm
    have hone : 2 ^ 22 * 2 ^ 1052 = F64.one1074 := by rw [F64.one1074_eq, ← pow_add]
    rw [hsize, ← hone, ← Nat.mul_assoc, Nat.mul_right_comm (2 ^ e)]
    exact Nat.mul_lt_mul_of_pos_right (F64.lt_mul_fullScale h he hm hne) (Nat.pow_pos (by norm_num))
  obtain ⟨h1, h2⟩ := F64.roundBits_error_of_lt (num := m * F64.one1074 * F64.one1074) (den := 8388607 * F64.one1074)
    (j := 999 + e) (by positivity) (by rw [← Nat.mul_assoc]; exact Nat.mul_lt_mul_of_pos_right hlt hpos)
  rw [← F64.quotientFS] at h1 h2
  constructor
  · exact Nat.le_of_mul_le_mul_right (by linarith) hpos
  · exact Nat.le_of_mul_le_mul_right (by linarith) hpos

/-- 1 / FS is 2^-23 + 2^-46 + 2^-69 and a little more, and these three bits of 2^e / FS are a FLOAT. -/
theorem F64.quotientFS_twoPow {e : Nat} (he : e ≤ 23) :
    (2 ^ 46 + 2 ^ 23 + 1) * 2 ^ (1005 + e) ≤ F64.quotientFS (2 ^ e) := by
  obtain ⟨b, f, hb⟩ := F64.exists_magnitude (r := 2 ^ 46 + 2 ^ 23 + 1) (k := 1005 + e) (by norm_num) (by omega)
  have hpos : 0 < F64.one1074 := by exact_mod_cast F64.one1074_pos
  have hscale : 2 ^ e * F64.one1074 = 2 ^ 69 * 2 ^ (1005 + e) := by
    rw [F64.one1074_eq, two_pow_mul_two_pow (c := 1074 + e) (by omega),
      two_pow_mul_two_pow (c := 1074 + e) (by omega)]
  rw [← hb, F64.magnitude_eq, F64.quotientFS, F64.magnitudeOfBits_le]
  refine F64.le_roundBits (by positivity) ?_
  rw [← F64.magnitude_eq, hb, hscale, ← Nat.mul_assoc]
  refine Nat.mul_le_mul_right _ ?_
  rw [Nat.mul_right_comm]
  exact Nat.mul_le_mul_right _ (by norm_num)

/-- The product of the rounded quotient by FS is rounded back to m. -/
theorem F64.roundBits_quotientFS_mul {m e : Nat} (h1 : 2 ^ e ≤ m) (h2 : m < 2 ^ (e + 1)) (he : e ≤ 23) (hm : m ≤ 2 ^ 23)
    (hne : m ≠ 8388607) :
    F64.magnitudeOfBits (F64.roundBits (F64.quotientFS m * (8388607 * F64.one1074)) F64.one1074)
      = m * F64.one1074 := by
  have hpos : 0 < F64.one1074 := by exact_mod_cast F64.one1074_pos
  have hsplit := F64.one1074_split he m
  obtain ⟨hlow, hup⟩ := F64.quotientFS_error h2 he hm hne
  have hplace : 2 ^ 22 * 2 ^ (999 + e) = 2 ^ (1021 + e) := two_pow_mul_two_pow (by omega)
  have hq : 0 < 2 ^ (52 - e) := Nat.pow_pos (by norm_num)
  have hr0 : 2 ^ e * 2 ^ (52 - e) = 2 ^ 52 := two_pow_mul_two_pow (by omega)
  have hr1 : 2 ^ 52 ≤ m * 2 ^ (52 - e) := hr0 ▸ Nat.mul_le_mul_right _ h1
  have hr2 : m * 2 ^ (52 - e) < 2 ^ 53 :=
    (Nat.mul_lt_mul_of_pos_right h2 hq).trans_eq (two_pow_mul_two_pow (by omega))
  have hp : 0 < 2 ^ (999 + e) := Nat.pow_pos (by norm_num)
  rw [hsplit, pow_succ 2 (1021 + e), ← hplace] at hlow hup
  have hround : F64.roundBits (F64.quotientFS m * 8388607 * F64.one1074) F64.one1074
      = (1021 + e + 1) * 2 ^ 52 + m * 2 ^ (52 - e) := by
    refine F64.roundBits_of_near hpos hr1 hr2 ?_ ?_ (fun hr => ?_) <;> rw [pow_succ 2 (1021 + e), ← hplace]
    · linarith
    · linarith
    · have hm2 : m = 2 ^ e := Nat.eq_of_mul_eq_mul_right hq (hr.trans hr0.symm)
      have hbits := F64.quotientFS_twoPow he
      rw [← hm2, ← two_pow_mul_two_pow (show 6 + (999 + e) = 1005 + e by omega)] at hbits
      rw [hr]
      linarith
  rw [← Nat.mul_assoc, hround, F64.magnitudeOfBits_normal _ _ hr1 hr2.le, hsplit]

theorem F64.add_comm_of_finite {x y : F64} (hx : x.isFinite = true) (hy : y.isFinite = true) : x.add y = y.add x := by
  rw [F64.add_eq hx hy, F64.add_eq hy hx, Bool.and_comm, Int.add_comm]

theorem F64.trunc_ofInt {k : Int} (h : k.natAbs ≤ 2 ^ 53) : (F64.ofInt k).trunc = k := by
  rw [F64.trunc, F64.units_of_toRat (F64.ofInt_exact h).2, Int.mul_tdiv_cancel _ (ne_of_gt F64.one1074_pos)]

namespace Machine

/-- Every sample but 0 is the rounded quotient of its magnitude by FS, with its sign. -/
theorem norm24_eq_fin {w : Word} {s : Bool} {e : Fin 2047} {f : BitVec 52} (h : F64.ofInt (sampleOf w) = .fin s e f) :
    ∃ e' f', norm24 w = .fin s e' f' ∧ F64.magnitude e' f' = F64.quotientFS (sampleOf w).natAbs := by
  have hpos : 0 < F64.one1074 := by exact_mod_cast F64.one1074_pos
  have hmag : F64.magnitude e f = (sampleOf w).natAbs * F64.one1074 := F64.magnitude_of_toRat (h ▸ (sampleOf_exact w).2)
  have hdiv := F64.div_fin s false e f (e' := 1045) (f' := 0xFFFFFC0000000) (by rw [F64.magnitude_fullScale]; omega)
  rw [← F64.fullScale, ← h, ← norm24, Bool.bne_false, hmag, F64.magnitude_fullScale] at hdiv
  obtain ⟨e', f', hround, hmag'⟩ := F64.magnitude_of_round (hdiv ▸ (norm24_bounds w).1)
  exact ⟨e', f', hdiv.trans hround, hmag'⟩

/-- The product by FS undoes NORM24: the two roundings together give the sample back. -/
theorem norm24_mul_fullScale (w : Word) : (norm24 w).mul F64.fullScale = F64.ofInt (sampleOf w) := by
  by_cases h0 : sampleOf w = 0
  · rw [norm24_of_sampleOf (v := 0) h0, h0, norm24_zero, F64.ofInt_zero]
    decide +kernel
  by_cases hone : (sampleOf w).natAbs = 8388607
  · rcases Int.natAbs_eq_iff.1 hone with h | h
    · rw [norm24_of_sampleOf (v := 0x007FFFFF) h, h]
      decide +kernel
    · rw [norm24_of_sampleOf (v := 0x00800001) h, h]
      decide +kernel
  obtain ⟨hlow, hhigh⟩ := sampleOf_bounds w
  obtain ⟨ofin, hval⟩ := sampleOf_exact w
  obtain ⟨s, e, f, hdatum⟩ := F64.finite_cases ofin
  obtain ⟨e', f', hnorm, hquot⟩ := norm24_eq_fin hdatum
  have hlog : (sampleOf w).natAbs < 2 ^ 24 := by omega
  have hmag := F64.roundBits_quotientFS_mul (Nat.log2_self_le (by omega)) Nat.lt_log2_self
    (Nat.le_of_lt_succ ((Nat.log2_lt (by omega)).2 hlog)) (by omega) hone
  have hbits : F64.roundBits (F64.quotientFS (sampleOf w).natAbs * (8388607 * F64.one1074)) F64.one1074
      = F64.bits63 e f := by
    rw [← F64.magnitudeOfBits_inj, hmag, ← F64.magnitude_eq, F64.magnitude_of_toRat (hdatum ▸ hval)]
  rw [hnorm, hdatum]
  show F64.round (s != false) (F64.magnitude e' f' * F64.magnitude 1045 0xFFFFFC0000000) F64.one1074 = _
  rw [hquot, F64.magnitude_fullScale, F64.round, hbits, Bool.bne_false, F64.ofMagnitudeBits_bits63]

/-- A sample in any of the three places of a mix, the other two silent and the gains 1.0. -/
theorem mixLane_one_sample (w : Word) :
    mixLane (norm24 w) F64.zero F64.zero F64.one = F64.ofInt (sampleOf w) ∧
      mixLane F64.zero (norm24 w) F64.zero F64.one = F64.ofInt (sampleOf w) ∧
      mixLane F64.zero F64.zero (norm24 w) F64.one = F64.ofInt (sampleOf w) := by
  have hfin := (norm24_bounds w).1
  have hright : (norm24 w).add F64.zero = norm24 w :=
    F64.add_zero_right hfin (norm24_ne_negZero w) F64.zero_isFinite F64.toRat_zero
  have hleft : F64.zero.add (norm24 w) = norm24 w := (F64.add_comm_of_finite F64.zero_isFinite hfin).trans hright
  simp only [mixLane, hright, hleft, F64.zero_add_zero, F64.mul_one_right hfin, norm24_mul_fullScale, and_self]

/-- An integer of 24 bits converts to its own word. -/
theorem cvt24_ofInt {k : Int} (h : k.natAbs ≤ 2 ^ 24) (draws : Nat) : cvt24 (F64.ofInt k) draws = (wordOfInt k, draws) := by
  obtain ⟨ofin, hval⟩ := F64.ofInt_exact (i := k) (by omega)
  have hlow : (-(2 ^ 31 + 1) : ℚ) < k := by exact_mod_cast (show (-(2 ^ 31 + 1) : Int) < k by omega)
  have hhigh : (k : ℚ) < 2 ^ 31 := by exact_mod_cast (show k < (2 ^ 31 : Int) by omega)
  rw [cvt24_of_inInt32 (outOfInt32_eq_false_iff.2 ⟨ofin, by rwa [hval], by rwa [hval]⟩), F64.trunc_ofInt (by omega)]

/-- Settles O29: the mix of one sample is its integer (`mixLane_one_sample`), and that converts to its own word. -/
theorem unityGainReturnsTheStoredSample : Obligations.UnityGainReturnsTheStoredSample := by
  intro w draws
  obtain ⟨hlow, hhigh⟩ := sampleOf_bounds w
  obtain ⟨h1, h2, h3⟩ := mixLane_one_sample w
  rw [F64.mul_one_right (norm24_bounds w).1, h1, h2, h3, cvt24_ofInt (by omega)]
  exact ⟨rfl, rfl, rfl⟩

end Machine

end Sys2Proof

/-!
PROOFS. The configuration commands (45_config_status): SETGAIN (R200), and SETGAINM with what a zero and a non-finite
master gain make of a tick (R201, R192).
-/

namespace Sys2Proof

theorem PerChannel.set_set_same {α : Type} (p : PerChannel α) (c : Chan) (a b : α) : (p.set c a).set c b = p.set c b := by
  cases c <;> rfl

namespace Machine

@[simp] theorem State.writeMgain_chan (s : State) (m : F64) (c : Chan) : { s with mgain := m }.chan c = s.chan c := rfl

/-! ## The master gain in a lane of the mix -/

/-- A finite sum under a master gain of zero converts to the word 0 and draws nothing. -/
theorem cvt24_mixLane_zeroGain {x1 x2 x3 m : F64} (hm : m.eq F64.zero = true)
    (hsum : ((x1.add x2).add x3).isFinite = true) (draws : Nat) : cvt24 (mixLane x1 x2 x3 m) draws = (0, draws) := by
  obtain ⟨pfin, pval⟩ := F64.mul_zero_right hsum (F64.finite_of_eq_zero hm) (F64.toRat_of_eq_zero hm)
  obtain ⟨yfin, yval⟩ := F64.mul_zero_left F64.fullScale_isFinite pfin pval
  exact cvt24_zero yfin yval draws

/-- Any sum under an infinite or NaN master gain converts to a free word. -/
theorem cvt24_mixLane_nonFiniteGain {m : F64} (hm : m.isFinite = false) (x1 x2 x3 : F64) (draws : Nat) :
    cvt24 (mixLane x1 x2 x3 m) draws = (Config.draw32 draws, draws + 1) :=
  cvt24_draws (outOfInt32_of_gain hm) draws

/-- Settles O33: SETGAINM writes MGAIN alone, so the next tick mixes the same three contributions under the new gain, and
each lane converts by `cvt24_mixLane_zeroGain` or `cvt24_mixLane_nonFiniteGain`. -/
theorem setgainmEffect : Obligations.SetgainmEffect := by
  intro s g
  refine ⟨rfl, _, rfl, rfl, fun hzero hl hr => ?_, fun hinf => ?_⟩
  · simp only [tickOutput, mix, gainOf, State.writeMgain_chan, cvt24_mixLane_zeroGain hzero hl,
      cvt24_mixLane_zeroGain hzero hr]
  · simp only [tickOutput, mix, gainOf, cvt24_mixLane_nonFiniteGain hinf]

/-! ## The gain of a channel -/

/-- Of two writes of one channel the later one stands. -/
theorem State.setChan_setChan_same (s : State) (c : Chan) (x y : Channel) :
    (s.setChan c x).setChan c y = s.setChan c y := by
  unfold State.setChan
  rw [PerChannel.set_set_same]

@[simp] theorem synced_writeGain (ch : Channel) (g : F64) : synced { ch with gain := g } = synced ch := rfl

@[simp] theorem readDate_writeGain (cfg : Cfg) (c : Chan) (ch : Channel) (g : F64) :
    readDate cfg c { ch with gain := g } = readDate cfg c ch := rfl

/-- Settles O32: SETGAIN writes GAIN[c] alone, on which neither `synced` nor the read date depends; so the channel still
contributes silence, or the pair it reads times the new gain. -/
theorem setgainEffect : Obligations.SetgainEffect := by
  intro s c g
  refine ⟨by cases c <;> rfl, _, rfl, SameBut.setChan c s _, State.setChan_chan_same s c _, fun g' => ?_, fun hs => ?_,
    fun hs => ?_⟩
  · simp only [exec, execSetgain, State.setChan_chan_same, State.setChan_setChan_same]
  · rw [State.setChan_chan_same, contribution_unsynced (by rwa [synced_writeGain]), contribution_unsynced hs]
  · rw [State.setChan_chan_same, contribution_synced (by rwa [synced_writeGain]), readDate_writeGain, State.setChan_cfg,
      gainOf]

end Machine

end Sys2Proof

/-!
PROOFS. Exceptions (60_exceptions): the block has no fault, a model refuses reserved headers alone, and a stream of
well-formed commands never stops (R210, R256); a loss of sync resets the channel's registers together (R212).
-/

namespace Sys2Proof.Machine

/-! ## No fault, and one refusal -/

/-- What a legal configuration refuses is the reserved header that was fetched: everything else has a next state
(R210). -/
theorem step_refused {s : State} {r : Refusal} (hl : legalConfig s.cfg = true) (h : step s = .refused r) :
    ∃ why rest, fetch s.cfg s.cmd = .reserved why rest ∧ r = .reservedHeader why := by
  rw [step_legal hl] at h
  cases hf : fetch s.cfg s.cmd with
  | command i rest =>
    obtain ⟨t, ht⟩ := exec_next i (s.withInput rest)
    rw [hf, perform, ht] at h
    cases h
  | reserved why rest => rw [hf] at h; cases h; exact ⟨why, rest, rfl, rfl⟩
  | reset rest => rw [hf] at h; cases h
  | wait => rw [hf] at h; cases h

/-- Settles O9: the type of faults is empty, every command has a next state (`exec_next`), and `step_refused`. -/
theorem noCommandCanFault : Obligations.NoCommandCanFault := by
  refine ⟨fun _ => nofun, exec_next, fun s r hl h => ?_⟩
  obtain ⟨why, -, -, hr⟩ := step_refused hl h
  exact ⟨why, hr⟩

/-! ## A stream of well-formed commands -/

/-- A block that waits goes on waiting: the wait is no stop (70_reset_and_hazards R256, log 7). -/
theorem run_wait {s : State} (hl : legalConfig s.cfg = true) (h : fetch s.cfg s.cmd = .wait) (k : Nat) :
    Host.Core.run core k s = .next s := by
  induction k with
  | zero => rfl
  | succ k ih => rw [run_next (step_wait hl h), ih]

/-- A step on the words of a list of commands executes the first and leaves the words of the others in front. -/
theorem step_encodeProgram_cons {s t : State} {i : Instr} (hl : legalConfig s.cfg = true)
    (hi : i.wellFormed s.cfg = true) (ht : exec i s = .next t) (is : List Instr) (input : List Input) :
    step (s.withInput (placeWords (encodeProgram (i :: is)) input)) =
      .next (t.withInput (placeWords (encodeProgram is) input)) := by
  rw [encodeProgram, List.flatMap_cons, placeWords_append]
  exact step_encode hl hi ht _

/-- Settles O13, by induction on the commands: behind the last one the block waits, and a run that takes a step executes
the first one, into a state of the same configuration, and goes on with the others. -/
theorem wellFormedStreamNeverStops : Obligations.WellFormedStreamNeverStops := by
  intro is s k hl hwf
  induction is generalizing s k with
  | nil => exact ⟨_, run_wait (s := s.withInput []) hl (fetch_nil _) k⟩
  | cons i is ih =>
    cases k with
    | zero => exact ⟨_, rfl⟩
    | succ k =>
      obtain ⟨hi, his⟩ := List.forall_mem_cons.1 hwf
      obtain ⟨t, ht⟩ := exec_next i s
      have hcfg : t.cfg = s.cfg := exec_cfg ht
      obtain ⟨u, hu⟩ := ih t k (by rwa [hcfg]) (by rwa [hcfg])
      exact ⟨u, (run_next (step_encodeProgram_cons hl hi ht is []) k).trans hu⟩

/-! ## The loss of sync -/

/-- A tick before its window test does not count input: only PUSH1 does (41_push_path R140). -/
theorem tickChannel_incount (cfg : Cfg) (c : Chan) (ch : Channel) : (tickChannel cfg c ch).incount = ch.incount := by
  rw [tickChannel_eq]

theorem tickState_chan_of_windowEnd {s : State} (h : s.pullcnt + 1 = s.cfg.w) (c : Chan) :
    (tickState s).chan c = detect s.cfg c (tickChannel s.cfg c (s.chan c)) := by
  rw [tickState_chan, if_pos h]

theorem tickState_chan_insideWindow {s : State} (h : s.pullcnt + 1 ≠ s.cfg.w) (c : Chan) :
    (tickState s).chan c = tickChannel s.cfg c (s.chan c) := by
  rw [tickState_chan, if_neg h]

/-- Where the count of a window that ends matches no rate, entry to "no sync" also overwrites the DRIFT and the OUTDATE
that the tick has just written, so nothing of the tick remains in the channel (R212). -/
theorem tickState_chan_syncLoss {s : State} {c : Chan} (h : s.pullcnt + 1 = s.cfg.w)
    (hcount : classifyRate s.cfg c (s.chan c).incount.toNat = .nosync) :
    (tickState s).chan c = { enterNoSync (s.chan c) with incount := 0 } := by
  rw [tickState_chan_of_windowEnd h, detect_nosync (by rwa [tickChannel_incount]), tickChannel_eq]
  rfl

/-- Settles O37: the counter by `tickState_pullcnt`, the channel by the two cases of the window test, and the loss by
`tickState_chan_syncLoss`; inside a window a tick writes DRIFT and OUTDATE alone (`tickChannel_eq`). -/
theorem syncLossResetsTogether : Obligations.SyncLossResetsTogether := by
  intro s c
  refine ⟨fun h => ⟨?_, tickState_chan_of_windowEnd h c⟩, fun h => ⟨?_, tickState_chan_insideWindow h c⟩,
    fun h hcount => ?_, fun h => ?_⟩
  · rw [tickState_pullcnt, if_pos h]
  · rw [tickState_pullcnt, if_neg h]
  · rw [tickState_chan_syncLoss h hcount]
    exact ⟨rfl, rfl, rfl, rfl, rfl, rfl, rfl, rfl, rfl, rfl, rfl⟩
  · rw [tickState_chan_insideWindow h, tickChannel_eq]

end Sys2Proof.Machine

/-!
PROOFS. The RESET event (70_reset_and_hazards R240): what stands before it in part is discarded, and every register takes
its reset value.
-/

namespace Sys2Proof.Machine

/-- A RESET event behind words that are no whole command is what is fetched, and those words are gone (R240). -/
theorem fetch_incomplete_reset {cfg : Cfg} {ws : List Word} (h : decode cfg ws = .incomplete) (rest : List Input) :
    fetch cfg (placeWords ws (.reset :: rest)) = .reset rest := by
  rw [fetch_eq_reset_iff, leadingWords_placeWords, afterReset_placeWords, leadingWords, List.append_nil]
  exact ⟨h, rfl⟩

theorem step_reset {s : State} {rest : List Input} (hl : legalConfig s.cfg = true)
    (h : fetch s.cfg s.cmd = .reset rest) : step s = .next (s.resetEvent rest) := by
  rw [step_legal hl, h, perform]

theorem State.resetEvent_atReset (s : State) (rest : List Input) (c : Chan) : AtReset ((s.resetEvent rest).chan c) := by
  rw [State.resetEvent_chan]
  exact Channel.reset_atReset

/-- Settles O8: the event is fetched, the part of a command before it is not, and the step goes to `State.resetEvent`,
which keeps the configuration and the words sent. -/
theorem resetEventRestoresEveryRegister : Obligations.ResetEventRestoresEveryRegister := by
  intro s ws rest hl hd hcmd
  have hstep : step s = .next (s.resetEvent rest) := step_reset hl (by rw [hcmd, fetch_incomplete_reset hd])
  exact ⟨_, hstep, s.resetEvent_atReset rest, F64.one_eq_ofBits, rfl, rfl, rfl, rfl⟩

end Sys2Proof.Machine
